-- ==== Sys2Proof/Word.lean ====
section
/-! DEFINITION. The word types of LCDNB: bytes, nibbles, command words and the status word. -/

namespace Sys2Proof

/-- An LCD instruction byte or character code (spec 00_scope R19, 30_encoding R58 `payload`). -/
abbrev Byte := BitVec 8

/-- "4-bit half of a byte" (spec 00_scope R19): what one commit carries on DB7..DB4. -/
abbrev Nibble := BitVec 4

/-- The host command word `cmd_word` (spec 30_encoding R58): 10 bits. -/
abbrev CmdWord := BitVec 10

/-- The read-only STATUS word (spec 10_state R31): 8 bits. -/
abbrev StatusWord := BitVec 8

end Sys2Proof
end

