-- ==== Sys2Proof/Config.lean ====
section
/-! DEFINITION. The build-time configuration of LCDNB (spec 00_scope R10 to R15), its example `CFG_EX`,
the type of the LCD controller observer (spec 10_state R35) and the free values of the model. -/

namespace Sys2Proof

/-- The sixteen named delays `N_x` of spec 00_scope R12. -/
inductive Delay where
  | eh | el | setup | powerOn | reset1 | reset2 | reset3 | nib4
  | funcSet | dispOff | clear | entry | dispOn | data | cmd | home
deriving DecidableEq, Repr

/-- Every delay name, in the order of the table of spec 00_scope R12. -/
def Delay.all : List Delay :=
  [.eh, .el, .setup, .powerOn, .reset1, .reset2, .reset3, .nib4,
   .funcSet, .dispOff, .clear, .entry, .dispOn, .data, .cmd, .home]

/-- The minimum time `T_x` in microseconds (spec 00_scope R12).  `N_SETUP` has no time minimum. -/
def Delay.minMicros : Delay → Nat
  | .eh => 1
  | .el => 1
  | .setup => 0
  | .powerOn => 40000
  | .reset1 => 10000
  | .reset2 => 100
  | .reset3 => 100
  | .nib4 => 100
  | .funcSet => 100
  | .dispOff => 100
  | .clear => 4000
  | .entry => 100
  | .dispOn => 4000
  | .data => 100
  | .cmd => 100
  | .home => 2000

/-- The six signal roles of the bus (spec 00_scope R19 "Bus Line Assignment", 10_state R33). -/
inductive Line where
  | rs | e | db4 | db5 | db6 | db7
deriving DecidableEq, Repr

/-- The six roles, each once. -/
def Line.all : List Line := [.rs, .e, .db4, .db5, .db6, .db7]

/-- The configuration record (spec 00_scope R11, R12, R14): fixed at build time, changed by no step.
It may fail the checks of spec 00_scope R16; those stand in `Sys2Proof.WellFormed`. -/
structure Config where
  /-- `W`: width of PORT and DDR. -/
  portWidth : Nat
  pinRs : Nat
  pinE : Nat
  pinDb4 : Nat
  pinDb5 : Nat
  pinDb6 : Nat
  pinDb7 : Nat
  /-- `F_CLK_HZ`. -/
  clkHz : Nat
  /-- `CW`: width of CNT. -/
  cntWidth : Nat
  nEh : Nat
  nEl : Nat
  nSetup : Nat
  nPowerOn : Nat
  nReset1 : Nat
  nReset2 : Nat
  nReset3 : Nat
  nNib4 : Nat
  nFuncSet : Nat
  nDispOff : Nat
  nClear : Nat
  nEntry : Nat
  nDispOn : Nat
  nData : Nat
  nCmd : Nat
  nHome : Nat
  /-- `NIB_RESET` and `NIB_4BIT`: 4 bits (spec 00_scope R14), so WF7 holds of them by their type. -/
  nibReset : Nibble
  nib4Bit : Nibble
  /-- The `OP_*` constants: 8 bits (spec 00_scope R14), so WF7 holds of them by their type. -/
  opFuncSet : Byte
  opDispOff : Byte
  opClear : Byte
  opEntry : Byte
  opDispOn : Byte
  opHome : Byte
  /-- `HOST_UINT_BITS`, the width of the host's counter (spec 42_host_pseudo R118): host side only. -/
  hostUintBits : Nat
deriving DecidableEq, Repr

/-- The cycle count `N_x` of a delay (spec 00_scope R12). -/
def Config.cycles (c : Config) : Delay → Nat
  | .eh => c.nEh
  | .el => c.nEl
  | .setup => c.nSetup
  | .powerOn => c.nPowerOn
  | .reset1 => c.nReset1
  | .reset2 => c.nReset2
  | .reset3 => c.nReset3
  | .nib4 => c.nNib4
  | .funcSet => c.nFuncSet
  | .dispOff => c.nDispOff
  | .clear => c.nClear
  | .entry => c.nEntry
  | .dispOn => c.nDispOn
  | .data => c.nData
  | .cmd => c.nCmd
  | .home => c.nHome

/-- The PORT bit position of a line (spec 00_scope R11). -/
def Config.pin (c : Config) : Line → Nat
  | .rs => c.pinRs
  | .e => c.pinE
  | .db4 => c.pinDb4
  | .db5 => c.pinDb5
  | .db6 => c.pinDb6
  | .db7 => c.pinDb7

/-- The example configuration `CFG_EX` of spec 00_scope R15, with the default opcodes of R14.
DESIGN CHOICE (log 2): `hostUintBits` is 32, for which CFG_EX gives no value. -/
def Config.cfgEx : Config where
  portWidth := 8
  pinRs := 0
  pinE := 1
  pinDb4 := 4
  pinDb5 := 5
  pinDb6 := 6
  pinDb7 := 7
  clkHz := 1000000
  cntWidth := 16
  nEh := 1
  nEl := 1
  nSetup := 1
  nPowerOn := 40000
  nReset1 := 10000
  nReset2 := 100
  nReset3 := 100
  nNib4 := 100
  nFuncSet := 100
  nDispOff := 100
  nClear := 11000
  nEntry := 100
  nDispOn := 4000
  nData := 100
  nCmd := 100
  nHome := 2000
  nibReset := 0x3#4
  nib4Bit := 0x2#4
  opFuncSet := 0x28#8
  opDispOff := 0x08#8
  opClear := 0x01#8
  opEntry := 0x06#8
  opDispOn := 0x0C#8
  opHome := 0x02#8
  hostUintBits := 32

/-- The bit-width mode of the LCD controller observer (spec 10_state R35). -/
inductive ControllerMode where
  | unknown | eightBit | fourBit
deriving DecidableEq, Repr, Inhabited

/-- The LCD controller as an observer (spec 10_state R35): its mode and its nibble phase (0 when the
next commit is the high nibble of a byte).  `heldRs` and `heldNibble` are the high nibble it holds
while the phase is 1 (spec 41_protocol_driver R109, CA4).  LCDNB never reads it. -/
structure Controller where
  mode : ControllerMode
  phase : BitVec 1
  heldRs : Bool
  heldNibble : Nibble
deriving DecidableEq, Repr, Inhabited

/-- FREE VALUE (log 12): what the controller observer is after its `n`-th undetermined event (power-on,
a cut-short sequence, a nibble in 8-bit mode; spec 93_implementation_defined I1, I8, I12, I16, I17).
It has no body: nothing can be proved of its values. -/
opaque Config.controllerDraw : Nat → Controller

end Sys2Proof
end

