-- ==== Sys2Proof/Syntax.lean ====
section
/-! DEFINITION. The instructions of the opcode table, the seven micro-ops of the sequencer, and the
host-side assembler lines and pseudo-instructions. -/

namespace Sys2Proof

/-- One constructor per row of spec/opcode_table.json.  The four `host_cmd` rows are the 10-bit command
words the host presents (spec 30_encoding R58, R59, R66); the seven `lcd_instr` rows are the closed set
of LCD instruction bytes (spec 30_encoding R64); the two `lcd_nibble` rows are the single-nibble forms
(spec 30_encoding R62).  Bits the hardware ignores are operands, so that no bit of an encoding is lost. -/
inductive Instr where
  /-- INIT (R91); the payload is ignored (R60). -/
  | init (payload : Byte)
  /-- SEND_INSTR(b) (R92). -/
  | sendInstr (b : Byte)
  /-- SEND_DATA(b) (R93). -/
  | sendData (b : Byte)
  /-- The reserved op 0b11 (R66); the payload is ignored. -/
  | reserved (payload : Byte)
  /-- CLEAR_DISPLAY `00000001` (R101). -/
  | clearDisplay
  /-- HOME_CURSOR `0000001x` (R102). -/
  | homeCursor (x : Bool)
  /-- ENTRY_MODE_SET `000001IS` (R103). -/
  | entryModeSet (i s : Bool)
  /-- DISPLAY_ON_OFF `00001DCB` (R104). -/
  | displayOnOff (d c b : Bool)
  /-- FUNCTION_RESET `0011NFxx` (R105, R150). -/
  | functionReset (n f : Bool) (x : BitVec 2)
  /-- FUNCTION_SET_4BIT `0010NFxx` (R106). -/
  | functionSet4Bit (n f : Bool) (x : BitVec 2)
  /-- SET_CURSOR_POSITION `1AAAAAAA` (R107). -/
  | setCursorPosition (a : BitVec 7)
  /-- NIB_RESET, the single-nibble form `(0, NIB_RESET)` (R62, R105). -/
  | nibReset
  /-- NIB_4BIT, the single-nibble form `(0, NIB_4BIT)` (R62, R106). -/
  | nib4Bit
deriving DecidableEq, Repr

/-- The three formats of spec/opcode_table.json (spec 30_encoding R73). -/
inductive Format where
  | hostCmd | lcdInstr | lcdNibble
deriving DecidableEq, Repr

/-- The micro-op set of spec 40_bus_signal_driver R75. -/
inductive MicroOp where
  | setDir
  | wait (d : Delay)
  | zero
  | setRs (v : Bool)
  | putNib (n : Nibble)
  | strobeHi
  | strobeLo
deriving DecidableEq, Repr

/-- One line of a host program: the three assembler commands of spec 30_encoding R71 and the nine
pseudo-instructions of spec 30_encoding R72.  Host side only: no part of LCDNB. -/
inductive HostLine where
  | init
  | instr (b : Byte)
  | data (b : Byte)
  | clear
  | home
  | dispOn
  | dispOff
  | entry
  | setPos (a : Nat)
  | print (codes : List Byte)
  | printNum (v : Nat)
  | tick (t : Nat)
deriving DecidableEq, Repr

end Sys2Proof
end

