-- ==== Sys2Proof/WellFormed.lean ====
section
/-! DEFINITION. The checks: the configuration checks WF1 to WF7 of spec 00_scope R16, the operand checks
of host lines, and the (empty) check of instructions. -/

namespace Sys2Proof

/-- The least cycle count a delay may have: `max(1, ceil(T_x * F_CLK_HZ / 10^6))` (spec 00_scope R12). -/
def Config.minCycles (c : Config) (d : Delay) : Nat :=
  max 1 ((d.minMicros * c.clkHz + 999999) / 1000000)

/-- WF1: `W >= 6`. -/
def Config.wf1 (c : Config) : Bool := 6 ≤ c.portWidth

/-- WF2: the six pin positions are distinct and each is `< W`. -/
def Config.wf2 (c : Config) : Bool :=
  decide (Line.all.map c.pin).Nodup && Line.all.all fun l => decide (c.pin l < c.portWidth)

/-- WF3: every `N_x >= 1`. -/
def Config.wf3 (c : Config) : Bool := Delay.all.all fun d => decide (1 ≤ c.cycles d)

/-- WF4: every `N_x` meets its stated minimum time. -/
def Config.wf4 (c : Config) : Bool := Delay.all.all fun d => decide (c.minCycles d ≤ c.cycles d)

/-- The waits that the clear-display wait must exceed (spec 00_scope R13). -/
def Delay.belowClear : List Delay :=
  [.reset1, .reset2, .reset3, .nib4, .funcSet, .dispOff, .entry, .dispOn]

/-- WF5: rule R13, `N_CLEAR` exceeds every other wait after a transmission of the init sequence. -/
def Config.wf5 (c : Config) : Bool :=
  Delay.belowClear.all fun d => decide (c.cycles d < c.nClear)

/-- WF6: `2^CW - 1 >= N_x` for every x. -/
def Config.wf6 (c : Config) : Bool :=
  Delay.all.all fun d => decide (c.cycles d ≤ 2 ^ c.cntWidth - 1)

/-- WF7: `NIB_RESET` and `NIB_4BIT` are in 0..15 and every `OP_*` is in 0..255.  The fields' types say
so already; the check stands for the reader. -/
def Config.wf7 (c : Config) : Bool :=
  ([c.nibReset, c.nib4Bit].all fun n => decide (n.toNat ≤ 15)) &&
  ([c.opFuncSet, c.opDispOff, c.opClear, c.opEntry, c.opDispOn, c.opHome].all
    fun b => decide (b.toNat ≤ 255))

/-- The ranges of the remaining parameters: `F_CLK_HZ > 0` (spec 00_scope R11) and
`HOST_UINT_BITS >= 1` (spec 92_eei_decisions, open parameters). -/
def Config.wfRange (c : Config) : Bool := decide (0 < c.clkHz) && decide (1 ≤ c.hostUintBits)

/-- A configuration is well formed when it passes every check of spec 00_scope R16. -/
def Config.wellFormed (c : Config) : Bool :=
  c.wf1 && c.wf2 && c.wf3 && c.wf4 && c.wf5 && c.wf6 && c.wf7 && c.wfRange

/-- `c.wellFormed` as a proposition. -/
abbrev Config.WellFormed (c : Config) : Prop := c.wellFormed = true

/-- Every operand of an instruction has exactly its field's width by its type, so every term of `Instr`
is well formed (spec 30_encoding R60, R69: every word decodes, every payload is encodable). -/
def Instr.wellFormed : Instr → Bool
  | .init _ => true
  | .sendInstr _ => true
  | .sendData _ => true
  | .reserved _ => true
  | .clearDisplay => true
  | .homeCursor _ => true
  | .entryModeSet _ _ => true
  | .displayOnOff _ _ _ => true
  | .functionReset _ _ _ => true
  | .functionSet4Bit _ _ _ => true
  | .setCursorPosition _ => true
  | .nibReset => true
  | .nib4Bit => true

/-- The operand checks of a host line: `SETPOS a` needs `a` in 0..127 (spec 42_host_pseudo R114), and the
operands of PRINTNUM and TICK are values of the host's counter (spec 42_host_pseudo R116, R118, R121). -/
def HostLine.wellFormed (c : Config) : HostLine → Bool
  | .init => true
  | .instr _ => true
  | .data _ => true
  | .clear => true
  | .home => true
  | .dispOn => true
  | .dispOff => true
  | .entry => true
  | .setPos a => decide (a ≤ 127)
  | .print _ => true
  | .printNum v => decide (v < 2 ^ c.hostUintBits)
  | .tick t => decide (t < 2 ^ c.hostUintBits)

end Sys2Proof
end

