-- ==== Sys2Proof/Decode.lean ====
section
/-! DEFINITION. The encodings of spec 30_encoding: the byte and nibble helpers, the decoder (total, it
rejects by name), the opcode table as rows, and the encoder. -/

namespace Sys2Proof

/-- `hi(b) = b[7:4]` (spec 00_scope R17). -/
def hi (b : Byte) : Nibble := b.extractLsb' 4 4

/-- `lo(b) = b[3:0]` (spec 00_scope R17). -/
def lo (b : Byte) : Nibble := b.extractLsb' 0 4

/-- The byte whose high nibble is `h` and whose low nibble is `l`: `{h, l}` (spec 41_protocol_driver R108). -/
def byteOf (h l : Nibble) : Byte := h ++ l

/-- The `op` field of a command word, bits 9:8 (spec 30_encoding R58). -/
def opField (w : CmdWord) : BitVec 2 := w.extractLsb' 8 2

/-- The `payload` field of a command word, bits 7:0 (spec 30_encoding R58). -/
def payloadField (w : CmdWord) : Byte := w.extractLsb' 0 8

/-- Why a word of one of the two LCD formats is not an instruction of the table. -/
inductive DecodeError where
  /-- A byte outside the closed set of spec 30_encoding R64 (R67). -/
  | unlistedByte
  /-- A nibble that is neither NIB_RESET nor NIB_4BIT (spec 30_encoding R62). -/
  | unlistedNibble
  /-- A number with a bit set above its format's width. -/
  | wordTooWide
deriving DecidableEq, Repr

/-- The host command decoder: by `op` alone, total (spec 30_encoding R59, R69). -/
def decodeHostCmd (w : CmdWord) : Instr :=
  if opField w = 0#2 then .init (payloadField w)
  else if opField w = 1#2 then .sendInstr (payloadField w)
  else if opField w = 2#2 then .sendData (payloadField w)
  else .reserved (payloadField w)

/-- The closed set of LCD instruction bytes (spec 30_encoding R64).  LCDNB itself never decodes them
(R73); the controller observer and the opcode table's rows do. -/
def decodeLcdInstr (b : Byte) : Except DecodeError Instr :=
  if b = 0x01#8 then .ok .clearDisplay
  else if b &&& 0xFE#8 = 0x02#8 then .ok (.homeCursor (b.getLsbD 0))
  else if b &&& 0xFC#8 = 0x04#8 then .ok (.entryModeSet (b.getLsbD 1) (b.getLsbD 0))
  else if b &&& 0xF8#8 = 0x08#8 then
    .ok (.displayOnOff (b.getLsbD 2) (b.getLsbD 1) (b.getLsbD 0))
  else if b &&& 0xF0#8 = 0x30#8 then
    .ok (.functionReset (b.getLsbD 3) (b.getLsbD 2) (b.extractLsb' 0 2))
  else if b &&& 0xF0#8 = 0x20#8 then
    .ok (.functionSet4Bit (b.getLsbD 3) (b.getLsbD 2) (b.extractLsb' 0 2))
  else if b &&& 0x80#8 = 0x80#8 then .ok (.setCursorPosition (b.extractLsb' 0 7))
  else .error .unlistedByte

/-- The single-nibble forms (spec 30_encoding R62), with the table's default values. -/
def decodeLcdNibble (n : Nibble) : Except DecodeError Instr :=
  if n = 0x3#4 then .ok .nibReset
  else if n = 0x2#4 then .ok .nib4Bit
  else .error .unlistedNibble

/-- The width in bits of a format's words (spec 30_encoding R73). -/
def Format.width : Format → Nat
  | .hostCmd => 10
  | .lcdInstr => 8
  | .lcdNibble => 4

/-- The decoder: the instruction of format `f` whose bits are the number `w`. -/
def decode (f : Format) (w : Nat) : Except DecodeError Instr :=
  if 2 ^ f.width ≤ w then .error .wordTooWide
  else match f with
    | .hostCmd => .ok (decodeHostCmd (BitVec.ofNat 10 w))
    | .lcdInstr => decodeLcdInstr (BitVec.ofNat 8 w)
    | .lcdNibble => decodeLcdNibble (BitVec.ofNat 4 w)

/-- The format whose rows have `nbits` bits, counted as the opcode table's rows are or in whole bytes:
10 or 16 is a host command, 8 an LCD instruction byte, 4 a single nibble (log 6). -/
def formatOfWidth (nbits : Nat) : Format :=
  if nbits ≤ 4 then .lcdNibble else if nbits ≤ 8 then .lcdInstr else .hostCmd

/-- The instruction this decoder reads from the `nbits` bits of `w`, `none` where it refuses. -/
def decodeTableWord (nbits w : Nat) : Option Instr :=
  (decode (formatOfWidth nbits) w).toOption

/-! ### The encoder -/

/-- A one-bit field. -/
def bitField (b : Bool) : BitVec 1 := BitVec.ofBool b

/-- A host command word `{op, payload}` (spec 30_encoding R58). -/
def hostWord (op : BitVec 2) (payload : Byte) : CmdWord := op ++ payload

/-- The command word of SEND_INSTR(b): `0x100 | b` (spec 30_encoding R71). -/
def sendInstrWord (b : Byte) : CmdWord := hostWord 1#2 b

/-- The command word of SEND_DATA(b): `0x200 | b` (spec 30_encoding R71). -/
def sendDataWord (b : Byte) : CmdWord := hostWord 2#2 b

/-- The command word of INIT: `0x000` (spec 30_encoding R71; software writes 0 as payload, R60). -/
def initWord : CmdWord := hostWord 0#2 0#8

/-- HOME_CURSOR `0000001x` (spec 30_encoding R64). -/
def homeCursorByte (x : Bool) : Byte := (0b0000001#7 : BitVec 7) ++ bitField x

/-- ENTRY_MODE_SET `000001IS` (spec 30_encoding R64). -/
def entryModeByte (i s : Bool) : Byte := (0b000001#6 : BitVec 6) ++ bitField i ++ bitField s

/-- DISPLAY_ON_OFF `00001DCB` (spec 30_encoding R64). -/
def displayOnOffByte (d c b : Bool) : Byte :=
  (0b00001#5 : BitVec 5) ++ bitField d ++ bitField c ++ bitField b

/-- FUNCTION_RESET `0011NFxx` (spec 30_encoding R64). -/
def functionResetByte (n f : Bool) (x : BitVec 2) : Byte :=
  (0b0011#4 : BitVec 4) ++ bitField n ++ bitField f ++ x

/-- FUNCTION_SET_4BIT `0010NFxx` (spec 30_encoding R64). -/
def functionSet4BitByte (n f : Bool) (x : BitVec 2) : Byte :=
  (0b0010#4 : BitVec 4) ++ bitField n ++ bitField f ++ x

/-- SET_CURSOR_POSITION `1AAAAAAA` (spec 30_encoding R64). -/
def setCursorByte (a : BitVec 7) : Byte := (1#1 : BitVec 1) ++ a

/-- The format of an instruction's row (spec 30_encoding R73). -/
def Instr.format : Instr → Format
  | .init _ => .hostCmd
  | .sendInstr _ => .hostCmd
  | .sendData _ => .hostCmd
  | .reserved _ => .hostCmd
  | .clearDisplay => .lcdInstr
  | .homeCursor _ => .lcdInstr
  | .entryModeSet _ _ => .lcdInstr
  | .displayOnOff _ _ _ => .lcdInstr
  | .functionReset _ _ _ => .lcdInstr
  | .functionSet4Bit _ _ _ => .lcdInstr
  | .setCursorPosition _ => .lcdInstr
  | .nibReset => .lcdNibble
  | .nib4Bit => .lcdNibble

/-- The encoder: the bits of an instruction, as a number of its format's width. -/
def encode : Instr → Nat
  | .init p => (hostWord 0#2 p).toNat
  | .sendInstr b => (hostWord 1#2 b).toNat
  | .sendData b => (hostWord 2#2 b).toNat
  | .reserved p => (hostWord 3#2 p).toNat
  | .clearDisplay => 0x01
  | .homeCursor x => (homeCursorByte x).toNat
  | .entryModeSet i s => (entryModeByte i s).toNat
  | .displayOnOff d c b => (displayOnOffByte d c b).toNat
  | .functionReset n f x => (functionResetByte n f x).toNat
  | .functionSet4Bit n f x => (functionSet4BitByte n f x).toNat
  | .setCursorPosition a => (setCursorByte a).toNat
  | .nibReset => 0x3
  | .nib4Bit => 0x2

/-! ### The opcode table as rows -/

/-- One row of spec/opcode_table.json: a word of the format is the row's when `word & mask = pattern`. -/
structure OpcodeRow where
  name : String
  format : Format
  pattern : Nat
  mask : Nat
deriving DecidableEq, Repr

/-- The row selects the word (spec 30_encoding R73). -/
def OpcodeRow.selects (r : OpcodeRow) (f : Format) (w : Nat) : Bool :=
  decide (r.format = f) && decide (w &&& r.mask = r.pattern)

/-- The `host_cmd` rows of the table. -/
def hostCmdRows : List OpcodeRow :=
  [⟨"INIT", .hostCmd, 0x000, 0x300⟩, ⟨"SEND_INSTR", .hostCmd, 0x100, 0x300⟩,
   ⟨"SEND_DATA", .hostCmd, 0x200, 0x300⟩, ⟨"RESERVED", .hostCmd, 0x300, 0x300⟩]

/-- The `lcd_instr` rows of the table. -/
def lcdInstrRows : List OpcodeRow :=
  [⟨"CLEAR_DISPLAY", .lcdInstr, 0x01, 0xFF⟩, ⟨"HOME_CURSOR", .lcdInstr, 0x02, 0xFE⟩,
   ⟨"ENTRY_MODE_SET", .lcdInstr, 0x04, 0xFC⟩, ⟨"DISPLAY_ON_OFF", .lcdInstr, 0x08, 0xF8⟩,
   ⟨"FUNCTION_RESET", .lcdInstr, 0x30, 0xF0⟩, ⟨"FUNCTION_SET_4BIT", .lcdInstr, 0x20, 0xF0⟩,
   ⟨"SET_CURSOR_POSITION", .lcdInstr, 0x80, 0x80⟩]

/-- The `lcd_nibble` rows of the table. -/
def lcdNibbleRows : List OpcodeRow :=
  [⟨"NIB_RESET", .lcdNibble, 0x3, 0xF⟩, ⟨"NIB_4BIT", .lcdNibble, 0x2, 0xF⟩]

/-- The opcode table. -/
def opcodeRows : List OpcodeRow := hostCmdRows ++ lcdInstrRows ++ lcdNibbleRows

/-- The mnemonic of an instruction's row. -/
def Instr.mnemonic : Instr → String
  | .init _ => "INIT"
  | .sendInstr _ => "SEND_INSTR"
  | .sendData _ => "SEND_DATA"
  | .reserved _ => "RESERVED"
  | .clearDisplay => "CLEAR_DISPLAY"
  | .homeCursor _ => "HOME_CURSOR"
  | .entryModeSet _ _ => "ENTRY_MODE_SET"
  | .displayOnOff _ _ _ => "DISPLAY_ON_OFF"
  | .functionReset _ _ _ => "FUNCTION_RESET"
  | .functionSet4Bit _ _ _ => "FUNCTION_SET_4BIT"
  | .setCursorPosition _ => "SET_CURSOR_POSITION"
  | .nibReset => "NIB_RESET"
  | .nib4Bit => "NIB_4BIT"

/-- A byte of the closed set of spec 30_encoding R64. -/
def inClosedSet (b : Byte) : Bool := (decodeLcdInstr b).toBool

end Sys2Proof
end

