-- ==== Sys2Proof/Machine/State.lean ====
section
/-! DEFINITION. The state of the machine: every element of spec 10_state R21, and the model's own record of
what stands around LCDNB (the host's words, the other port users' writes, the reset line, the bus event
history and the controller observer).  The reset state, the faults and the refusals. -/

namespace Sys2Proof.Machine

/-- MODE (spec 10_state R21, R22). -/
inductive Mode where
  | idle | run
deriving DecidableEq, Repr

/-- PROG (spec 10_state R21, R23): the INIT script or the SEND program. -/
inductive Program where
  | init | send
deriving DecidableEq, Repr

/-- POST_CLASS (spec 10_state R21, 41_protocol_driver R100). -/
inductive PostClass where
  | data | std | home | clear
deriving DecidableEq, Repr

/-- INIT_STATE (spec 10_state R21, R26).  The code 3 "never occurs". -/
inductive InitState where
  | uninit | initializing | ready
deriving DecidableEq, Repr

/-- CTRL_PHASE (spec 10_state R21, R27). -/
inductive CtrlPhase where
  | uninitialized | eightBitAssumed | fourBitConfirmed | operational
deriving DecidableEq, Repr

/-- ERR_CAUSE (spec 10_state R21, 60_exceptions R125). -/
inductive ErrCause where
  | none | notInit | reinit | reservedOp
deriving DecidableEq, Repr

/-- One event of the LCD bus, with its edge number (spec 40_bus_signal_driver R82). -/
structure Commit where
  edge : Nat
  rs : Bool
  nibble : Nibble
deriving DecidableEq, Repr

/-- What the other port users write at one edge (spec 20_memory R49): under each mask, the value. -/
structure OtherWrite (w : Nat) where
  portMask : BitVec w
  portValue : BitVec w
  ddrMask : BitVec w
  ddrValue : BitVec w
deriving DecidableEq, Repr

/-- The outside signals at one clock edge: `rst` (spec 41_protocol_driver R89) and the other port users'
writes.  The command inputs come from `hostWords` and `hostPauses`. -/
structure EdgeInput (w : Nat) where
  rst : Bool
  others : OtherWrite w
deriving DecidableEq, Repr

/-- One LCDNB with configuration `c`, and what stands around it.  The first thirteen fields are the
complete state of LCDNB (spec 10_state R21); the rest is the model's record of the other agents
(spec 00_scope R9). -/
structure Block (c : Config) where
  mode : Mode
  prog : Program
  upc : BitVec 6
  cnt : BitVec c.cntWidth
  latchRs : Bool
  latchByte : Byte
  postClass : PostClass
  initState : InitState
  ctrlPhase : CtrlPhase
  err : Bool
  errCause : ErrCause
  port : BitVec c.portWidth
  ddr : BitVec c.portWidth
  /-- The words the host still has to issue, in order (spec 42_host_pseudo R111). -/
  hostWords : List CmdWord
  /-- Beside `hostWords`, from the first word on: the edges at which the host still keeps `cmd_valid` at 0
  before it offers that word; from then on it holds the word until it is accepted (spec 42_host_pseudo
  R111).  Past the end of the list there is no pause (log 7). -/
  hostPauses : List Nat
  /-- The outside signals at the coming edges, the next edge first; when the list has run out the
  outside is quiet. -/
  edgeInputs : List (EdgeInput c.portWidth)
  /-- The number of the coming edge. -/
  edge : Nat
  /-- The bus event history, oldest first (spec 40_bus_signal_driver R82). -/
  commits : List Commit
  /-- The LCD controller observer (spec 10_state R35). -/
  controller : Controller
  /-- The MODEL's own counter of free values drawn so far (log 12). -/
  draws : Nat
deriving DecidableEq, Repr

/-- The machine: a configuration, which no step changes (spec 00_scope R10), and its block. -/
structure State where
  cfg : Config
  block : Block cfg
deriving DecidableEq, Repr

/-- A step stops with a fault. -/
inductive Fault where
  /-- Raised by the sequencer's start of a micro-op (`start`) when UPC names no micro-op of PROG.
  Spec 93_implementation_defined I11 gives "UPC values above the last index of PROG" the treatment
  `stuck`.  Safe: the machine stops, and no state reachable from reset does so. -/
  | noSuchMicroOp
deriving DecidableEq, Repr

/-- A step that the model refuses. -/
inductive Refusal where
  /-- Raised by `exec`'s arm of an instruction that has no meaning yet (none is left).  Safe. -/
  | notModelled (mnemonic : String)
  /-- Raised by `step` on a configuration that fails a check of spec 00_scope R16 ("A model should
  refuse a configuration that fails any check").  Safe. -/
  | illFormedConfiguration
  /-- Raised by the meanings of the two single-nibble forms at an edge that does not belong to that
  form of the INIT script (spec 30_encoding R62: "It occurs exactly four times, all inside the INIT
  script").  Safe. -/
  | singleNibbleOutsideInit
deriving DecidableEq, Repr

/-- The outcome of one edge on a block of configuration `c`. -/
abbrev BlockOutcome (c : Config) := Host.Outcome (Block c) Fault Refusal

/-- The block after reset (spec 70_reset_and_hazards R140), with no command and no signal pending.
The values of `hostWords`, `hostPauses`, `edgeInputs`, `edge`, `commits`, `controller` and `draws` are
the model's (log 7, 8, 10, 12); the controller at power-on is a draw (spec 93_implementation_defined I8). -/
def Block.reset (c : Config) : Block c where
  mode := .idle
  prog := .init
  upc := 0#6
  cnt := 0#c.cntWidth
  latchRs := false
  latchByte := 0#8
  postClass := .data
  initState := .uninit
  ctrlPhase := .uninitialized
  err := false
  errCause := .none
  port := 0#c.portWidth
  ddr := 0#c.portWidth
  hostWords := []
  hostPauses := []
  edgeInputs := []
  edge := 0
  commits := []
  controller := Config.controllerDraw 0
  draws := 1

/-- The machine right after reset, in the spec's example configuration (log 1). -/
def State.reset : State := ⟨Config.cfgEx, Block.reset Config.cfgEx⟩

end Sys2Proof.Machine
end

