-- ==== Sys2Proof/Machine/Ops.lean ====
section
/-! DEFINITION. The named operations: the owned bits, the masked port writes (spec 20_memory R47, R48), the
lines, the commit, the controller observer, recording an error (spec 60_exceptions R127), reset (spec
70_reset_and_hazards R139) and the other port users' writes (spec 20_memory R49). -/

namespace Sys2Proof.Machine

variable {c : Config}

/-! ### The owned bits -/

/-- `1 << p` in the W bits of the port. -/
def pinMask (c : Config) (p : Nat) : BitVec c.portWidth := 1#c.portWidth <<< p

/-- The mask of one line. -/
def lineMask (c : Config) (l : Line) : BitVec c.portWidth := pinMask c (c.pin l)

/-- The mask of the four data lines (spec 40_bus_signal_driver R80). -/
def dataMask (c : Config) : BitVec c.portWidth :=
  lineMask c .db7 ||| lineMask c .db6 ||| lineMask c .db5 ||| lineMask c .db4

/-- `OWN`, the six owned bits (spec 00_scope R19). -/
def ownMask (c : Config) : BitVec c.portWidth :=
  lineMask c .rs ||| lineMask c .e ||| lineMask c .db4 ||| lineMask c .db5 |||
    lineMask c .db6 ||| lineMask c .db7

/-- `v << p` for a one-bit `v`. -/
def lineValue (c : Config) (l : Line) (v : Bool) : BitVec c.portWidth :=
  if v then lineMask c l else 0#c.portWidth

/-- The value PUTNIB places: `n[3]` on DB7 down to `n[0]` on DB4 (spec 20_memory R41,
40_bus_signal_driver R80). -/
def nibbleValue (c : Config) (n : Nibble) : BitVec c.portWidth :=
  lineValue c .db7 (n.getLsbD 3) ||| lineValue c .db6 (n.getLsbD 2) |||
    lineValue c .db5 (n.getLsbD 1) ||| lineValue c .db4 (n.getLsbD 0)

/-! ### Reading the port -/

/-- Bit `p` of PORT. -/
def Block.portBit (b : Block c) (p : Nat) : Bool := b.port.getLsbD p

/-- Bit `p` of DDR. -/
def Block.ddrBit (b : Block c) (p : Nat) : Bool := b.ddr.getLsbD p

/-- The register bit of a line, `PORT[PIN_x]` (spec 10_state R33). -/
def Block.line (b : Block c) (l : Line) : Bool := b.portBit (c.pin l)

/-- `{PORT[PIN_DB7], PORT[PIN_DB6], PORT[PIN_DB5], PORT[PIN_DB4]}` (spec 40_bus_signal_driver R82). -/
def Block.nibbleOnLines (b : Block c) : Nibble :=
  BitVec.ofBool (b.line .db7) ++ BitVec.ofBool (b.line .db6) ++
    BitVec.ofBool (b.line .db5) ++ BitVec.ofBool (b.line .db4)

/-- The level a line drives, `none` while its DDR bit is 0 (spec 10_state R33: "A line is driven only
while its DDR bit is 1"; the level on the wire is then the board's, spec 93_implementation_defined I3). -/
def Block.drivenLevel (b : Block c) (l : Line) : Option Bool :=
  if b.ddrBit (c.pin l) then some (b.line l) else none

/-- `port_out` (spec 41_protocol_driver R89). -/
def Block.portOut (b : Block c) : BitVec c.portWidth := b.port

/-- `port_dir` (spec 41_protocol_driver R89). -/
def Block.portDir (b : Block c) : BitVec c.portWidth := b.ddr

/-! ### Writing the port -/

/-- `PortWrite(mask, val)` (spec 20_memory R47).  The other users' writes at the same edge stand in
`b.port` already (`othersWrite`), so `b.port` is `PORT_other_next`. -/
def Block.portWrite (b : Block c) (mask val : BitVec c.portWidth) : Block c :=
  { b with port := (val &&& mask) ||| (b.port &&& ~~~mask) }

/-- `DirSet(mask)` (spec 20_memory R48). -/
def Block.dirSet (b : Block c) (mask : BitVec c.portWidth) : Block c :=
  { b with ddr := b.ddr ||| mask }

/-- One other-user masked write, kept off the bits of OWN (spec 20_memory R49: "A model gives other port
users no move that writes a bit in OWN"). -/
def foreignWrite (c : Config) (old mask val : BitVec c.portWidth) : BitVec c.portWidth :=
  (val &&& (mask &&& ~~~ownMask c)) ||| (old &&& ~~~(mask &&& ~~~ownMask c))

/-- The other port users' writes of one edge, to PORT and to DDR (spec 20_memory R49). -/
def Block.othersWrite (b : Block c) (o : OtherWrite c.portWidth) : Block c :=
  { b with
    port := foreignWrite c b.port o.portMask o.portValue
    ddr := foreignWrite c b.ddr o.ddrMask o.ddrValue }

/-! ### The bus event and the controller observer -/

/-- `Commit(rs, n)`: append the event, with the edge number, to the bus history
(spec 40_bus_signal_driver R82). -/
def Block.commit (b : Block c) (rs : Bool) (n : Nibble) : Block c :=
  { b with commits := b.commits ++ [{ edge := b.edge, rs := rs, nibble := n }] }

/-- The controller becomes a free value (log 11, 12; spec 93_implementation_defined I1, I8, I12, I16, I17). -/
def Block.drawController (b : Block c) : Block c :=
  { b with controller := Config.controllerDraw b.draws, draws := b.draws + 1 }

/-- A controller in 4-bit mode, at the high-nibble phase (spec 41_protocol_driver R109, CA3).  The nibble it
holds stays; it is overwritten before it is read. -/
def Controller.aligned (k : Controller) : Controller := { k with mode := .fourBit, phase := 0#1 }

/-- The controller is in 8-bit mode, and everything else of it is a free value: CA2 gives the mode alone
(spec 41_protocol_driver R109, 91_not_in_source N10, 93_implementation_defined I17; log 11, 12). -/
def Block.enterEightBit (b : Block c) : Block c :=
  { b with
    controller := { Config.controllerDraw b.draws with mode := .eightBit }
    draws := b.draws + 1 }

/-- An instruction byte after which a 4-bit controller stays in 4-bit mode: one of the closed set, less
the 8-bit function set (spec 70_reset_and_hazards R150, 93_implementation_defined I12, I16). -/
def keepsFourBit (b : Byte) : Bool := inClosedSet b && !decide (b &&& 0xF0#8 = 0x30#8)

/-- A 4-bit controller takes a commit (spec 41_protocol_driver R109, CA4): the first is held as the
high nibble, the second completes the byte. -/
def Block.fourBitCommit (b : Block c) (rs : Bool) (n : Nibble) : Block c :=
  if b.controller.phase = 0#1 then
    { b with controller := { b.controller with phase := 1#1, heldRs := rs, heldNibble := n } }
  else if b.controller.heldRs = rs ∧ (rs = true ∨ keepsFourBit (byteOf b.controller.heldNibble n) = true) then
    { b with controller := { b.controller with phase := 0#1 } }
  else b.drawController

/-- What a commit does to the controller observer.  The third reset nibble of the INIT script (micro-op
13) puts it in 8-bit mode, its phase free, and the second nibble of the script's function set (micro-op
25) in 4-bit mode at the high-nibble phase, whatever it was before (spec 41_protocol_driver R109, CA2
and CA3); a 4-bit controller pairs commits (CA4); every other commit leaves it undetermined (log 11). -/
def Block.observe (b : Block c) (p : Program) (i : Nat) (rs : Bool) (n : Nibble) : Block c :=
  if p = .init ∧ i = 13 then b.enterEightBit
  else if p = .init ∧ i = 25 then { b with controller := Controller.aligned b.controller }
  else match b.controller.mode with
    | .fourBit => b.fourBitCommit rs n
    | .eightBit => b.drawController
    | .unknown => b.drawController

/-! ### Errors and reset -/

/-- `raise Error(cause)` (spec 60_exceptions R127): the machine's only exception.  The first cause is
kept; nothing else changes. -/
def Block.raiseError (b : Block c) (cause : ErrCause) : Block c :=
  if b.err then b else { b with err := true, errCause := cause }

/-- The state elements of spec 10_state R21 at their reset values (spec 70_reset_and_hazards R140).
The bus history, the edge number, the host's words and the coming signals are not LCDNB's. -/
def Block.clear (b : Block c) : Block c :=
  { b with
    mode := .idle, prog := .init, upc := 0#6, cnt := 0#c.cntWidth
    latchRs := false, latchByte := 0#8, postClass := .data
    initState := .uninit, ctrlPhase := .uninitialized
    err := false, errCause := .none
    port := 0#c.portWidth, ddr := 0#c.portWidth }

/-- A reset edge (spec 70_reset_and_hazards R139, R149): every state element takes its reset value and no
commit is recorded.  When a micro-program is cut short the controller is left undetermined
(spec 93_implementation_defined I1, I4). -/
def Block.resetEdge (b : Block c) : Block c :=
  match b.mode with
  | .idle => b.clear
  | .run => b.clear.drawController

end Sys2Proof.Machine
end

