-- ==== Sys2Proof/Machine/Flags.lean ====
section
/-! DEFINITION. The codes of the state elements (spec 10_state R21), STATUS (R31), `cmd_ready` (R32) and the
CTRL_PHASE transitions (R27). -/

namespace Sys2Proof.Machine

variable {c : Config}

/-- The code of MODE: 0 IDLE, 1 RUN. -/
def Mode.code : Mode → BitVec 1
  | .idle => 0#1
  | .run => 1#1

/-- The code of PROG: 0 INIT script, 1 SEND program. -/
def Program.code : Program → BitVec 1
  | .init => 0#1
  | .send => 1#1

/-- The code of POST_CLASS: 0 DATA, 1 STD, 2 HOME, 3 CLEAR. -/
def PostClass.code : PostClass → BitVec 2
  | .data => 0#2
  | .std => 1#2
  | .home => 2#2
  | .clear => 3#2

/-- The code of INIT_STATE: 0 UNINIT, 1 INITIALIZING, 2 READY. -/
def InitState.code : InitState → BitVec 2
  | .uninit => 0#2
  | .initializing => 1#2
  | .ready => 2#2

/-- The code of CTRL_PHASE. -/
def CtrlPhase.code : CtrlPhase → BitVec 2
  | .uninitialized => 0#2
  | .eightBitAssumed => 1#2
  | .fourBitConfirmed => 2#2
  | .operational => 3#2

/-- The code of ERR_CAUSE (spec 60_exceptions R125). -/
def ErrCause.code : ErrCause → BitVec 2
  | .none => 0#2
  | .notInit => 1#2
  | .reinit => 2#2
  | .reservedOp => 3#2

/-- STATUS: bit 0 BUSY, 2:1 INIT_STATE, 3 ERR, 5:4 ERR_CAUSE, 7:6 CTRL_PHASE (spec 10_state R31). -/
def Block.status (b : Block c) : StatusWord :=
  b.ctrlPhase.code ++ b.errCause.code ++ BitVec.ofBool b.err ++ b.initState.code ++ b.mode.code

/-- `cmd_ready`: 1 exactly when MODE = IDLE (spec 10_state R32). -/
def Block.cmdReady (b : Block c) : Bool := decide (b.mode = .idle)

/-- CTRL_PHASE at the start of micro-op `i` of `p` (spec 10_state R27, 40_bus_signal_driver R74). -/
def Block.markPhase (b : Block c) (p : Program) (i : Nat) : Block c :=
  if p = .init ∧ i = 13 then { b with ctrlPhase := .eightBitAssumed }
  else if p = .init ∧ i = 27 then { b with ctrlPhase := .fourBitConfirmed }
  else b

/-- Where CTRL_PHASE stands while the INIT script runs its micro-op `i` (spec 10_state R27). -/
def phaseAt (i : Nat) : CtrlPhase :=
  if i < 13 then .uninitialized else if i < 27 then .eightBitAssumed else .fourBitConfirmed

end Sys2Proof.Machine
end

