-- ==== Sys2Proof/Machine/Operands.lean ====
section
/-! DEFINITION. Operand assembly (spec 30_encoding R63) and the post-delay classification
(spec 41_protocol_driver R100). -/

namespace Sys2Proof.Machine

variable {c : Config}

/-- `post_class(b)` (spec 41_protocol_driver R100), for SEND_INSTR only. -/
def postClassOf (c : Config) (b : Byte) : PostClass :=
  if b = c.opClear then .clear
  else if b &&& 0xFE#8 = c.opHome &&& 0xFE#8 then .home
  else .std

/-- `post(cls)` as a delay name (spec 41_protocol_driver R100). -/
def PostClass.delay : PostClass → Delay
  | .data => .data
  | .std => .cmd
  | .home => .home
  | .clear => .clear

/-- The operands of an accepted SEND command (spec 30_encoding R63): Mode-Select, the byte, the class. -/
def Block.latch (b : Block c) (rs : Bool) (byte : Byte) (cls : PostClass) : Block c :=
  { b with latchRs := rs, latchByte := byte, postClass := cls }

/-- An accepted INIT is in progress (spec 41_protocol_driver R90): INIT_STATE leaves UNINIT. -/
def Block.enterInit (b : Block c) : Block c := { b with initState := .initializing }

end Sys2Proof.Machine
end

