-- ==== Sys2Proof/Machine/Sequencer.lean ====
section
/-! DEFINITION. The Bus Signal Driver (spec 40_bus_signal_driver): the micro-ops, the macros NIBBLE and BYTE,
the two micro-programs (spec 41_protocol_driver R94, R99) and the sequencer's step (R74). -/

namespace Sys2Proof.Machine

variable {c : Config}

/-! ### Micro-ops -/

/-- The duration in cycles of a micro-op (spec 40_bus_signal_driver R75). -/
def duration (c : Config) : MicroOp → Nat
  | .setDir => 1
  | .wait d => c.cycles d
  | .zero => 1
  | .setRs _ => c.nSetup
  | .putNib _ => c.nSetup
  | .strobeHi => c.nEh
  | .strobeLo => c.nEl

/-- The entry action of a micro-op (spec 40_bus_signal_driver R76 to R82). -/
def Block.entry (b : Block c) : MicroOp → Block c
  | .setDir => b.dirSet (ownMask c)
  | .wait _ => b
  | .zero => b.portWrite (BitVec.allOnes c.portWidth) 0#c.portWidth
  | .setRs v => b.portWrite (lineMask c .rs ||| lineMask c .e) (lineValue c .rs v)
  | .putNib n => b.portWrite (dataMask c) (nibbleValue c n)
  | .strobeHi => b.portWrite (lineMask c .e) (lineMask c .e)
  | .strobeLo =>
    (b.commit (b.line .rs) b.nibbleOnLines).portWrite (lineMask c .e) 0#c.portWidth

/-- What the controller observer takes from a micro-op's start: only STROBE_LO makes a commit
(spec 20_memory R51). -/
def Block.sense (b : Block c) (p : Program) (i : Nat) : MicroOp → Block c
  | .setDir => b
  | .wait _ => b
  | .zero => b
  | .setRs _ => b
  | .putNib _ => b
  | .strobeHi => b
  | .strobeLo => b.observe p i (b.line .rs) b.nibbleOnLines

/-! ### Macros and micro-programs -/

/-- `NIBBLE(n)` (spec 40_bus_signal_driver R83). -/
def nibbleOps (n : Nibble) : List MicroOp := [.putNib n, .strobeHi, .strobeLo]

/-- `BYTE(v, b)` (spec 40_bus_signal_driver R84): high nibble first (spec 20_memory R40). -/
def byteOps (v : Bool) (b : Byte) : List MicroOp :=
  [.setRs v] ++ nibbleOps (hi b) ++ nibbleOps (lo b)

/-- The INIT script, micro-ops 0 to 58 (spec 41_protocol_driver R94, in its macro form). -/
def initScript (c : Config) : List MicroOp :=
  List.flatten
    [[.setDir, .wait .powerOn, .zero],
     nibbleOps c.nibReset, [.wait .reset1],
     nibbleOps c.nibReset, [.wait .reset2],
     nibbleOps c.nibReset, [.wait .reset3],
     nibbleOps c.nib4Bit, [.wait .nib4],
     byteOps false c.opFuncSet, [.wait .funcSet],
     byteOps false c.opDispOff, [.wait .dispOff],
     byteOps false c.opClear, [.wait .clear],
     byteOps false c.opEntry, [.wait .entry],
     byteOps false c.opDispOn, [.wait .dispOn]]

/-- The SEND program, micro-ops 0 to 7 (spec 41_protocol_driver R99). -/
def sendProgram (rs : Bool) (byte : Byte) (cls : PostClass) : List MicroOp :=
  byteOps rs byte ++ [.wait cls.delay]

/-- The micro-program PROG names, with its operands (spec 41_protocol_driver R94, R99). -/
def Block.microProgram (b : Block c) : Program → List MicroOp
  | .init => initScript c
  | .send => sendProgram b.latchRs b.latchByte b.postClass

/-- `uop(p, i)`, `none` above the last index (spec 41_protocol_driver R94, R99). -/
def Block.uop (b : Block c) (p : Program) (i : Nat) : Option MicroOp := (b.microProgram p)[i]?

/-- `last(PROG)`: 58 for INIT, 7 for SEND (spec 40_bus_signal_driver R74). -/
def Program.lastIndex : Program → Nat
  | .init => 58
  | .send => 7

/-! ### The sequencer's step -/

/-- The sequencer registers while micro-op `i` of `p`, of duration `n`, begins: MODE, PROG, UPC, CNT. -/
def Block.occupy (b : Block c) (p : Program) (i n : Nat) : Block c :=
  { b with mode := .run, prog := p, upc := BitVec.ofNat 6 i, cnt := BitVec.ofNat c.cntWidth n }

/-- Micro-op `u`, number `i` of `p`, begins at this edge (spec 40_bus_signal_driver R74 `start`). -/
def Block.beginOp (b : Block c) (p : Program) (i : Nat) (u : MicroOp) : Block c :=
  (((b.sense p i u).entry u).occupy p i (duration c u)).markPhase p i

/-- `start(p, i)` (spec 40_bus_signal_driver R74), stuck where `p` has no micro-op `i`
(spec 93_implementation_defined I11). -/
def Block.start (b : Block c) (p : Program) (i : Nat) : BlockOutcome c :=
  match b.uop p i with
  | some u => .next (b.beginOp p i u)
  | none => .fault .noSuchMicroOp

/-- The program in progress ends (spec 40_bus_signal_driver R74). -/
def Block.finish (b : Block c) : Block c :=
  match b.prog with
  | .init =>
    { b with mode := .idle, upc := 0#6, cnt := 0#c.cntWidth
             initState := .ready, ctrlPhase := .operational }
  | .send => { b with mode := .idle, upc := 0#6, cnt := 0#c.cntWidth }

/-- The running micro-op continues for one more cycle (spec 40_bus_signal_driver R74). -/
def Block.countDown (b : Block c) : Block c := { b with cnt := b.cnt - 1#c.cntWidth }

/-- One edge of a running micro-program (spec 40_bus_signal_driver R74, the branch MODE = RUN). -/
def Block.tick (b : Block c) : BlockOutcome c :=
  if 1 < b.cnt.toNat then .next b.countDown
  else if b.upc.toNat = b.prog.lastIndex then .next b.finish
  else b.start b.prog (b.upc.toNat + 1)

/-- One edge with no command offered: the running program steps, or nothing changes
(spec 40_bus_signal_driver R74). -/
def Block.plainEdge (b : Block c) : BlockOutcome c :=
  match b.mode with
  | .run => b.tick
  | .idle => .next b

/-- One edge with a command offered whose acceptance is `accept`: it is accepted only when MODE = IDLE,
and otherwise waits while the running program steps (spec 41_protocol_driver R90, 60_exceptions R128). -/
def Block.offered (b : Block c) (accept : Block c → BlockOutcome c) : BlockOutcome c :=
  match b.mode with
  | .run => b.tick
  | .idle => accept b

/-- An outcome of a block as an outcome of the machine: the configuration stays. -/
def onState : BlockOutcome c → Host.Outcome State Fault Refusal
  | .next b => .next ⟨c, b⟩
  | .fault f => .fault f
  | .refused r => .refused r

/-! ### Durations -/

/-- `P`, the cycles of NIBBLE (spec 40_bus_signal_driver R83). -/
def nibbleCycles (c : Config) : Nat := c.nSetup + c.nEh + c.nEl

/-- `B`, the cycles of BYTE (spec 40_bus_signal_driver R84). -/
def byteCycles (c : Config) : Nat := c.nSetup + 2 * nibbleCycles c

/-- `T_INIT`, the cycles of the INIT script (spec 41_protocol_driver R96). -/
def initCycles (c : Config) : Nat :=
  2 + 4 * nibbleCycles c + 5 * byteCycles c +
    c.nPowerOn + c.nReset1 + c.nReset2 + c.nReset3 + c.nNib4 +
    c.nFuncSet + c.nDispOff + c.nClear + c.nEntry + c.nDispOn

/-- `B + post(cls)`, the cycles of a SEND program (spec 41_protocol_driver R99). -/
def sendCycles (c : Config) (cls : PostClass) : Nat := byteCycles c + c.cycles cls.delay

end Sys2Proof.Machine
end

