-- ==== Sys2Proof/Machine/HostCommands.lean ====
section
/-! DEFINITION. The host commands INIT, SEND_INSTR, SEND_DATA and RESERVED: acceptance
(spec 41_protocol_driver R90) and the four meanings. -/

namespace Sys2Proof.Machine

variable {c : Config}

/-- `accept` of INIT (spec 41_protocol_driver R90, R91): refused with REINIT when READY. -/
def Block.acceptInit (b : Block c) : BlockOutcome c :=
  if b.initState = .ready then .next (b.raiseError .reinit)
  else b.enterInit.start .init 0

/-- `accept` of a SEND command (spec 41_protocol_driver R90): refused with NOT_INIT unless READY. -/
def Block.acceptSend (b : Block c) (rs : Bool) (byte : Byte) (cls : PostClass) : BlockOutcome c :=
  if b.initState = .ready then (b.latch rs byte cls).start .send 0
  else .next (b.raiseError .notInit)

/-- `accept` of SEND_INSTR(byte) (spec 41_protocol_driver R92): RS = 0, class by `post_class`. -/
def Block.acceptSendInstr (b : Block c) (byte : Byte) : BlockOutcome c :=
  b.acceptSend false byte (postClassOf c byte)

/-- `accept` of SEND_DATA(byte) (spec 41_protocol_driver R93): RS = 1, class DATA. -/
def Block.acceptSendData (b : Block c) (byte : Byte) : BlockOutcome c :=
  b.acceptSend true byte .data

/-- `accept` of the reserved op (spec 30_encoding R66): RESERVED_OP in every INIT_STATE. -/
def Block.acceptReserved (b : Block c) : BlockOutcome c := .next (b.raiseError .reservedOp)

/-- INIT (spec 41_protocol_driver R91): one edge at which it is offered; the payload is ignored (R60). -/
def execInit (_payload : Byte) (s : State) : Host.Outcome State Fault Refusal :=
  onState (s.block.offered Block.acceptInit)

/-- SEND_INSTR(b) (spec 41_protocol_driver R92): one edge at which it is offered. -/
def execSendInstr (b : Byte) (s : State) : Host.Outcome State Fault Refusal :=
  onState (s.block.offered fun k => k.acceptSendInstr b)

/-- SEND_DATA(b) (spec 41_protocol_driver R93): one edge at which it is offered. -/
def execSendData (b : Byte) (s : State) : Host.Outcome State Fault Refusal :=
  onState (s.block.offered fun k => k.acceptSendData b)

/-- The reserved op 0b11 (spec 30_encoding R66): one edge at which it is offered. -/
def execReserved (_payload : Byte) (s : State) : Host.Outcome State Fault Refusal :=
  onState (s.block.offered Block.acceptReserved)

end Sys2Proof.Machine
end

