-- ==== Sys2Proof/Machine/LcdInstructions.lean ====
section
/-! DEFINITION. The LCD closed set (spec 41_protocol_driver R101 to R107).  A host makes LCDNB send one of these
instructions by SEND_INSTR of its byte; each meaning is one edge at which that byte is offered: a byte
frame with RS = 0, then the byte's post-delay (log 4). -/

namespace Sys2Proof.Machine

/-- One edge at which the LCD instruction byte `b` is offered for sending. -/
def sendClosed (b : Byte) (s : State) : Host.Outcome State Fault Refusal :=
  onState (s.block.offered fun k => k.acceptSendInstr b)

/-- CLEAR_DISPLAY (spec 41_protocol_driver R101). -/
def execClearDisplay (s : State) : Host.Outcome State Fault Refusal := sendClosed 0x01#8 s

/-- HOME_CURSOR (spec 41_protocol_driver R102). -/
def execHomeCursor (x : Bool) (s : State) : Host.Outcome State Fault Refusal :=
  sendClosed (homeCursorByte x) s

/-- ENTRY_MODE_SET (spec 41_protocol_driver R103). -/
def execEntryModeSet (i sh : Bool) (s : State) : Host.Outcome State Fault Refusal :=
  sendClosed (entryModeByte i sh) s

/-- DISPLAY_ON_OFF (spec 41_protocol_driver R104). -/
def execDisplayOnOff (d cu b : Bool) (s : State) : Host.Outcome State Fault Refusal :=
  sendClosed (displayOnOffByte d cu b) s

/-- FUNCTION_RESET as a byte (spec 41_protocol_driver R105, 70_reset_and_hazards R150): LCDNB does not
refuse it. -/
def execFunctionReset (n f : Bool) (x : BitVec 2) (s : State) : Host.Outcome State Fault Refusal :=
  sendClosed (functionResetByte n f x) s

/-- FUNCTION_SET_4BIT (spec 41_protocol_driver R106, 70_reset_and_hazards R150). -/
def execFunctionSet4Bit (n f : Bool) (x : BitVec 2) (s : State) : Host.Outcome State Fault Refusal :=
  sendClosed (functionSet4BitByte n f x) s

/-- SET_CURSOR_POSITION (spec 41_protocol_driver R107). -/
def execSetCursorPosition (a : BitVec 7) (s : State) : Host.Outcome State Fault Refusal :=
  sendClosed (setCursorByte a) s

end Sys2Proof.Machine
end

