-- ==== Sys2Proof/Machine/LcdNibbles.lean ====
section
/-! DEFINITION. The single-nibble forms (spec 30_encoding R62): only the INIT script sends them.  Each meaning is
one edge of the script that belongs to that form, its nibble write and the wait after it (log 5). -/

namespace Sys2Proof.Machine

variable {c : Config}

/-- The micro-op the coming edge of a running program is about: the one in progress while its count has
cycles left, else the one that starts (spec 40_bus_signal_driver R74). -/
def Block.opAtEdge (b : Block c) : Nat :=
  if 1 < b.cnt.toNat then b.upc.toNat else b.upc.toNat + 1

/-- The coming edge belongs to micro-ops `first` to `last` of the INIT script. -/
def Block.inInitOps (b : Block c) (first last : Nat) : Bool :=
  decide (b.mode = .run) && decide (b.prog = .init) &&
    decide (first ≤ b.opAtEdge) && decide (b.opAtEdge ≤ last)

/-- One edge of the INIT script within micro-ops `first` to `last`; no other edge runs that form. -/
def Block.nibbleFormEdge (b : Block c) (first last : Nat) : BlockOutcome c :=
  if b.inInitOps first last then b.tick else .refused .singleNibbleOutsideInit

/-- NIB_RESET (spec 41_protocol_driver R105): INIT micro-ops 3 to 14, the three function-reset nibbles
with the waits N_RESET1, N_RESET2 and N_RESET3 after them. -/
def execNibReset (s : State) : Host.Outcome State Fault Refusal :=
  onState (s.block.nibbleFormEdge 3 14)

/-- NIB_4BIT (spec 41_protocol_driver R106): INIT micro-ops 15 to 18, the 4-bit-mode nibble with the wait
N_NIB4 after it. -/
def execNib4Bit (s : State) : Host.Outcome State Fault Refusal :=
  onState (s.block.nibbleFormEdge 15 18)

end Sys2Proof.Machine
end

