-- ==== Sys2Proof/Machine/Dispatch.lean ====
section
/-! DEFINITION. The dispatch: one arm per constructor of Instr. -/

namespace Sys2Proof.Machine

def exec (i : Instr) (s : State) : Host.Outcome State Fault Refusal :=
  match i with
  | .init p => Sys2Proof.Machine.execInit p s
  | .sendInstr b => Sys2Proof.Machine.execSendInstr b s
  | .sendData b => Sys2Proof.Machine.execSendData b s
  | .reserved p => Sys2Proof.Machine.execReserved p s
  | .clearDisplay => Sys2Proof.Machine.execClearDisplay s
  | .homeCursor x => Sys2Proof.Machine.execHomeCursor x s
  | .entryModeSet d sh => Sys2Proof.Machine.execEntryModeSet d sh s
  | .displayOnOff d cu bl => Sys2Proof.Machine.execDisplayOnOff d cu bl s
  | .functionReset n f x => Sys2Proof.Machine.execFunctionReset n f x s
  | .functionSet4Bit n f x => Sys2Proof.Machine.execFunctionSet4Bit n f x s
  | .setCursorPosition a => Sys2Proof.Machine.execSetCursorPosition a s
  | .nibReset => Sys2Proof.Machine.execNibReset s
  | .nib4Bit => Sys2Proof.Machine.execNib4Bit s

end Sys2Proof.Machine
end

