-- ==== Sys2Proof/Machine/Edge.lean ====
section
/-! DEFINITION. One clock edge around the execution of a command: the outside signals of the edge, the word the
host offers, the priority of reset (spec 60_exceptions R128), and where an instruction's word is placed
so that the next edge runs it. -/

namespace Sys2Proof.Machine

variable {c : Config}

/-- No other port user writes. -/
def OtherWrite.none (w : Nat) : OtherWrite w := ⟨0#w, 0#w, 0#w, 0#w⟩

/-- A quiet edge: no reset, no other port user writes. -/
def EdgeInput.quiet (w : Nat) : EdgeInput w := ⟨false, OtherWrite.none w⟩

/-- The outside signals at the coming edge; past the end of the list the outside is quiet (log 8). -/
def Block.nextInput (b : Block c) : EdgeInput c.portWidth :=
  b.edgeInputs.headD (EdgeInput.quiet c.portWidth)

/-- `cmd_word` when `cmd_valid` = 1 at the coming edge, `none` when `cmd_valid` = 0: the host offers its
words one at a time, in order, each after its pause (spec 42_host_pseudo R111). -/
def Block.offeredWord (b : Block c) : Option CmdWord :=
  if b.hostPauses.headD 0 = 0 then b.hostWords.head? else none

/-- The handshake completes at the coming edge: `cmd_valid` = 1, `cmd_ready` = 1 and no reset (spec
41_protocol_driver R90, 70_reset_and_hazards R139). -/
def Block.handshake (b : Block c) : Bool :=
  !b.nextInput.rst && b.cmdReady && b.offeredWord.isSome

/-- The words left to the host: the offered one is consumed exactly where the handshake completes. -/
def Block.wordsAfter (b : Block c) : List CmdWord :=
  if b.handshake then b.hostWords.tail else b.hostWords

/-- The host's pauses after an edge: a pause in progress gets shorter by one, and one that is over stays so,
so that the word is held, until the handshake of its word completes (`done`, spec 42_host_pseudo R111). -/
def pausesAfter (done : Bool) : List Nat → List Nat
  | [] => []
  | 0 :: rest => if done then rest else 0 :: rest
  | (n + 1) :: rest => n :: rest

/-- The block as the sequencer meets it at the edge: the edge's signals are taken from the list, the
consumed word from the host, and the other users' writes of this edge stand in PORT and DDR
(spec 20_memory R47: they are `PORT_other_next`; the masks are disjoint, so the order does not show). -/
def Block.openEdge (b : Block c) : Block c :=
  { b with
    hostWords := b.wordsAfter
    hostPauses := pausesAfter b.handshake b.hostPauses
    edgeInputs := b.edgeInputs.tail }.othersWrite b.nextInput.others

/-- The edge is over: the next one has the next number. -/
def Block.closeEdge (b : Block c) : Block c := { b with edge := b.edge + 1 }

/-- `closeEdge` on the machine. -/
def State.closeEdge (s : State) : State := ⟨s.cfg, s.block.closeEdge⟩

/-- The machine as the sequencer meets it at the edge. -/
def State.openEdge (s : State) : State := ⟨s.cfg, s.block.openEdge⟩

/-- A next state gets its edge closed. -/
def closing : Host.Outcome State Fault Refusal → Host.Outcome State Fault Refusal
  | .next s => .next s.closeEdge
  | .fault f => .fault f
  | .refused r => .refused r

/-- What happens at the edge, in the order of spec 60_exceptions R128: reset first; else the offered
command is executed by `execute` (it waits while MODE = RUN); else the sequencer alone steps. -/
def edgeAction (execute : Instr → State → Host.Outcome State Fault Refusal) (s : State) :
    Host.Outcome State Fault Refusal :=
  if s.block.nextInput.rst then .next ⟨s.cfg, s.block.openEdge.resetEdge⟩
  else match s.block.offeredWord with
    | some w => execute (decodeHostCmd w) s.openEdge
    | none => onState s.block.openEdge.plainEdge

/-- One clock edge of the machine; a configuration that fails a check is refused (spec 00_scope R16). -/
def edgeStep (execute : Instr → State → Host.Outcome State Fault Refusal) (s : State) :
    Host.Outcome State Fault Refusal :=
  if s.cfg.wellFormed then closing (edgeAction execute s)
  else .refused .illFormedConfiguration

/-! ### Placing an instruction -/

/-- The coming edge without reset; its other signals stay. -/
def Block.withoutReset (b : Block c) : Block c :=
  { b with edgeInputs := { b.nextInput with rst := false } :: b.edgeInputs.tail }

/-- The sequencer at rest (spec 10_state R37(a)). -/
def Block.atRest (b : Block c) : Block c :=
  { b with mode := .idle, upc := 0#6, cnt := 0#c.cntWidth }

/-- The command word `w` as the host's next word, offered at the coming edge to a sequencer at rest. -/
def Block.withOffer (b : Block c) (w : CmdWord) : Block c :=
  { b.atRest.withoutReset with hostWords := w :: b.hostWords, hostPauses := 0 :: b.hostPauses }

/-- The INIT script in the last cycle of its micro-op `i`, so that the coming edge starts `i + 1`. -/
def Block.beforeInitOp (b : Block c) (i : Nat) : Block c :=
  { b.withoutReset with
    mode := .run, prog := .init, upc := BitVec.ofNat 6 i, cnt := 1#c.cntWidth
    initState := .initializing, ctrlPhase := phaseAt i }

/-- An instruction's word placed where the coming edge takes its instruction from (log 6, 26): a host
command word is offered; an LCD instruction byte is offered in a SEND_INSTR; a single-nibble form is
run by the INIT script alone, so the script stands just before it. -/
def Block.withTableWord (b : Block c) (nbits w : Nat) : Block c :=
  match formatOfWidth nbits with
  | .hostCmd => b.withOffer (BitVec.ofNat 10 w)
  | .lcdInstr => b.withOffer (sendInstrWord (BitVec.ofNat 8 w))
  | .lcdNibble =>
    match decodeLcdNibble (BitVec.ofNat 4 w) with
    | .ok .nibReset => b.beforeInitOp 2
    | .ok .nib4Bit => b.beforeInitOp 14
    | _ => b

end Sys2Proof.Machine
end

