-- ==== Sys2Proof/Machine/Step.lean ====
section
/-! DEFINITION. The step function: one rising edge of `clk` (spec 40_bus_signal_driver R74). -/

namespace Sys2Proof.Machine

/-- One step of the machine is one clock edge. -/
def step (s : State) : Host.Outcome State Fault Refusal := edgeStep exec s

/-- The machine with an instruction's word placed so that the very next step runs it. -/
def State.withFetchWord (s : State) (nbits w : Nat) : State := ⟨s.cfg, s.block.withTableWord nbits w⟩

end Sys2Proof.Machine
end

