-- ==== Sys2Proof/Machine/HostProgram.lean ====
section
/-! DEFINITION. The host side: the expansion of program lines into commands (spec 30_encoding R71, R72,
42_host_pseudo R111 to R123) and the assembler's text (spec 30_encoding R71).  No part of LCDNB's state:
it gives the words that `Block.hostWords` holds. -/

namespace Sys2Proof.Machine

/-! ### Expansion -/

/-- `code(d)` for a digit: `0x30 + d` (spec 42_host_pseudo R117). -/
def digitCode (d : Nat) : Byte := 0x30#8 + BitVec.ofNat 8 d

/-- The digits of `v`, least significant first, by repeated `v % 10` and `v / 10` (spec 42_host_pseudo
R116); `fuel` bounds the number of digits. -/
def digitsReversed : Nat → Nat → List Nat
  | 0, _ => []
  | fuel + 1, v => if v / 10 = 0 then [v % 10] else (v % 10) :: digitsReversed fuel (v / 10)

/-- `digits(v)` as numbers, most significant first (spec 42_host_pseudo R116). -/
def decimalDigits (v : Nat) : List Nat := (digitsReversed (v + 1) v).reverse

/-- `digits(v)` as character codes (spec 42_host_pseudo R116, R117). -/
def digitCodes (v : Nat) : List Byte := (decimalDigits v).map digitCode

/-- `PRINT s` (spec 42_host_pseudo R115): one SEND_DATA per character, in order. -/
def printCommands (codes : List Byte) : List Instr := codes.map Instr.sendData

/-- The commands a host line expands to, without the operand check. -/
def expansion (c : Config) : HostLine → List Instr
  | .init => [.init 0#8]
  | .instr b => [.sendInstr b]
  | .data b => [.sendData b]
  | .clear => [.sendInstr c.opClear]
  | .home => [.sendInstr c.opHome]
  | .dispOn => [.sendInstr c.opDispOn]
  | .dispOff => [.sendInstr c.opDispOff]
  | .entry => [.sendInstr c.opEntry]
  | .setPos a => [.sendInstr (0x80#8 ||| BitVec.ofNat 8 a)]
  | .print codes => printCommands codes
  | .printNum v => printCommands (digitCodes v)
  | .tick t => .sendInstr c.opHome :: printCommands (digitCodes (t / 1000))

/-- The expansion of a host line, `none` where an operand is out of range (spec 42_host_pseudo R114: "is
refused by the assembler"). -/
def expandLine (c : Config) (l : HostLine) : Option (List Instr) :=
  if l.wellFormed c then some (expansion c l) else none

/-- The command word of a host command. -/
def commandWord (i : Instr) : CmdWord := BitVec.ofNat 10 (encode i)

/-- The words of a host program, in order; `none` when a line is refused. -/
def programWords (c : Config) : List HostLine → Option (List CmdWord)
  | [] => some []
  | l :: rest =>
    match expandLine c l, programWords c rest with
    | some is, some ws => some (is.map commandWord ++ ws)
    | _, _ => none

/-- The machine with a host program's words waiting behind those the host already has. -/
def State.withHostWords (s : State) (ws : List CmdWord) : State :=
  ⟨s.cfg, { s.block with hostWords := s.block.hostWords ++ ws }⟩

/-- The cycles one TICK with `d` digits keeps LCDNB busy, commands back to back, idle edges counted
(spec 42_host_pseudo R123). -/
def tickCycles (c : Config) (d : Nat) : Nat :=
  (byteCycles c + c.nHome + 1) + d * (byteCycles c + c.nData + 1)

/-! ### The assembler's text (log 18) -/

/-- A digit's value in base 16, `none` for another character.  DESIGN CHOICE (log 18): the grammar does not
define `hex`; the letters are taken in both cases. -/
def hexValue (ch : Char) : Option Nat :=
  if '0'.toNat ≤ ch.toNat ∧ ch.toNat ≤ '9'.toNat then some (ch.toNat - '0'.toNat)
  else if 'a'.toNat ≤ ch.toNat ∧ ch.toNat ≤ 'f'.toNat then some (ch.toNat - 'a'.toNat + 10)
  else if 'A'.toNat ≤ ch.toNat ∧ ch.toNat ≤ 'F'.toNat then some (ch.toNat - 'A'.toNat + 10)
  else none

/-- The number the digits spell in a base, from the value read so far. -/
def readDigits (base : Nat) (acc : Nat) : List Char → Option Nat
  | [] => some acc
  | ch :: rest =>
    match hexValue ch with
    | some v => if v < base then readDigits base (acc * base + v) rest else none
    | none => none

/-- A number: `0x` and hex digits, or decimal digits.  DESIGN CHOICE (log 18): the grammar does not say
whether a decimal may have leading zeros; any number of them is taken. -/
def readNumber : List Char → Option Nat
  | [] => none
  | '0' :: 'x' :: [] => none
  | '0' :: 'x' :: rest => readDigits 16 0 rest
  | digits => readDigits 10 0 digits

/-- `byte := '0x' hex{1,2} | decimal 0..255` (spec 30_encoding R71). -/
def readByte (t : List Char) : Option Byte :=
  match t with
  | '0' :: 'x' :: rest => if rest.length ≤ 2 then (readNumber t).map (BitVec.ofNat 8) else none
  | _ =>
    match readNumber t with
    | some v => if v ≤ 255 then some (BitVec.ofNat 8 v) else none
    | none => none

/-- `code(c)`, the ASCII code of a character (spec 30_encoding R71); `none` outside ASCII. -/
def charCode (ch : Char) : Option Byte :=
  if ch.toNat ≤ 127 then some (BitVec.ofNat 8 ch.toNat) else none

/-- The codes of the characters, `none` if one is outside ASCII. -/
def charCodes : List Char → Option (List Byte)
  | [] => some []
  | ch :: rest =>
    match charCode ch, charCodes rest with
    | some b, some bs => some (b :: bs)
    | _, _ => none

/-- A space or a tab. -/
def isBlank (ch : Char) : Bool := ch == ' ' || ch == '\t'

/-- The text without the blanks at its start. -/
def skipBlanks (t : List Char) : List Char := t.dropWhile isBlank

/-- What may follow a command: nothing, or a comment (spec 30_encoding R71). -/
def endsLine (t : List Char) : Bool :=
  match skipBlanks t with
  | [] => true
  | ch :: _ => ch == ';'

/-- A word of the text: everything up to a blank or a `;`. -/
def wordOf (t : List Char) : List Char := t.takeWhile fun ch => !isBlank ch && ch != ';'

/-- The text behind its first word. -/
def afterWord (t : List Char) : List Char := t.dropWhile fun ch => !isBlank ch && ch != ';'

/-- A command with one operand word, read by `read`. -/
def withOperand {α : Type} (read : List Char → Option α) (make : α → HostLine) (rest : List Char) :
    Option HostLine :=
  if endsLine (afterWord (skipBlanks rest)) then (read (wordOf (skipBlanks rest))).map make else none

/-- A command without operand. -/
def withoutOperand (l : HostLine) (rest : List Char) : Option HostLine :=
  if endsLine rest then some l else none

/-- The operand of DATA: a quoted character, or a byte (spec 30_encoding R71). -/
def dataOperand (rest : List Char) : Option HostLine :=
  match skipBlanks rest with
  | '\'' :: ch :: '\'' :: tail => if endsLine tail then (charCode ch).map HostLine.data else none
  | _ => withOperand readByte HostLine.data rest

/-- The operand of PRINT: the characters between two double quotes (spec 30_encoding R72). -/
def printOperand (rest : List Char) : Option HostLine :=
  match skipBlanks rest with
  | '"' :: text =>
    match text.dropWhile (fun ch => ch != '"') with
    | '"' :: tail =>
      if endsLine tail then (charCodes (text.takeWhile fun ch => ch != '"')).map HostLine.print else none
    | _ => none
  | _ => none

/-- The grammar's commands and pseudo-instructions by their keyword (spec 30_encoding R71, R72). -/
def readCommand (keyword rest : List Char) : Option HostLine :=
  if keyword = ['I', 'N', 'I', 'T'] then withoutOperand .init rest
  else if keyword = ['I', 'N', 'S', 'T', 'R'] then withOperand readByte HostLine.instr rest
  else if keyword = ['D', 'A', 'T', 'A'] then dataOperand rest
  else if keyword = ['C', 'L', 'E', 'A', 'R'] then withoutOperand .clear rest
  else if keyword = ['H', 'O', 'M', 'E'] then withoutOperand .home rest
  else if keyword = ['D', 'I', 'S', 'P', 'O', 'N'] then withoutOperand .dispOn rest
  else if keyword = ['D', 'I', 'S', 'P', 'O', 'F', 'F'] then withoutOperand .dispOff rest
  else if keyword = ['E', 'N', 'T', 'R', 'Y'] then withoutOperand .entry rest
  else if keyword = ['S', 'E', 'T', 'P', 'O', 'S'] then withOperand readNumber HostLine.setPos rest
  else if keyword = ['P', 'R', 'I', 'N', 'T'] then printOperand rest
  else if keyword = ['P', 'R', 'I', 'N', 'T', 'N', 'U', 'M'] then
    withOperand readNumber HostLine.printNum rest
  else if keyword = ['T', 'I', 'C', 'K'] then withOperand readNumber HostLine.tick rest
  else none

/-- One line of assembler text (spec 30_encoding R71, R72). -/
def readLine (t : List Char) : Option HostLine :=
  readCommand (wordOf (skipBlanks t)) (afterWord (skipBlanks t))

end Sys2Proof.Machine
end

