-- ==== Sys2Proof/Safety.lean ====
section
/-! DEFINITION. The terms claims use: the invariant of the machine (spec 10_state R37), what an instruction
leaves unchanged, a quiet outside, completion (spec 41_protocol_driver R110) and the byte stream a
controller decodes (R108). -/

namespace Sys2Proof.Machine

variable {c : Config}

/-! ### The invariant -/

/-- A STROBE_HI micro-op is in progress. -/
def Block.strobing (b : Block c) : Prop := b.mode = .run ∧ b.uop b.prog b.upc.toNat = some .strobeHi

/-- The invariants (a) to (h) of spec 10_state R37, with what makes them inductive: UPC names a micro-op,
CTRL_PHASE stands where the script's position puts it, and Mode-Select is low until READY. -/
structure Block.Inv (b : Block c) : Prop where
  /-- (a) -/
  idle_rest : b.mode = .idle → b.cnt = 0#c.cntWidth ∧ b.upc = 0#6
  /-- (b) -/
  run_count : b.mode = .run → 1 ≤ b.cnt.toNat
  /-- (c) -/
  initializing_iff : b.initState = .initializing ↔ b.mode = .run ∧ b.prog = .init
  /-- (d) -/
  ready_iff : b.initState = .ready ↔ b.ctrlPhase = .operational
  /-- (e) -/
  send_ready : b.prog = .send → b.mode = .run → b.initState = .ready
  /-- (f) -/
  err_iff : b.err = false ↔ b.errCause = .none
  /-- (g), and its converse: E is 1 exactly while a STROBE_HI micro-op is in progress. -/
  strobe_iff : b.line .e = true ↔ b.strobing
  /-- (h) -/
  lines_driven : b.initState ≠ .uninit → b.ddr &&& ownMask c = ownMask c
  /-- UPC names a micro-op of PROG (spec 10_state R23). -/
  upc_in_program : b.mode = .run → b.upc.toNat ≤ b.prog.lastIndex
  /-- CTRL_PHASE follows the script's position (spec 10_state R27). -/
  phase_in_script : b.initState = .initializing → b.ctrlPhase = phaseAt b.upc.toNat
  /-- CTRL_PHASE before INIT (spec 10_state R27). -/
  phase_before_init : b.initState = .uninit → b.ctrlPhase = .uninitialized
  /-- Mode-Select is low until READY (spec 41_protocol_driver R97(c)). -/
  select_low : b.initState ≠ .ready → b.line .rs = false

/-- The invariant of the machine. -/
def State.Inv (s : State) : Prop := s.block.Inv

/-! ### What stays -/

/-- The record of what stands around LCDNB is unchanged: the host's words, the coming signals, the edge
number, the bus history and the controller observer. -/
structure Block.SameOutside (b t : Block c) : Prop where
  hostWords : t.hostWords = b.hostWords
  hostPauses : t.hostPauses = b.hostPauses
  edgeInputs : t.edgeInputs = b.edgeInputs
  edge : t.edge = b.edge
  commits : t.commits = b.commits
  controller : t.controller = b.controller
  draws : t.draws = b.draws

/-- MODE, PROG, UPC and CNT are unchanged. -/
structure Block.SameSequencer (b t : Block c) : Prop where
  mode : t.mode = b.mode
  prog : t.prog = b.prog
  upc : t.upc = b.upc
  cnt : t.cnt = b.cnt

/-- LATCH_RS, LATCH_BYTE and POST_CLASS are unchanged. -/
structure Block.SameLatches (b t : Block c) : Prop where
  latchRs : t.latchRs = b.latchRs
  latchByte : t.latchByte = b.latchByte
  postClass : t.postClass = b.postClass

/-- ERR and ERR_CAUSE are unchanged. -/
structure Block.SameErrors (b t : Block c) : Prop where
  err : t.err = b.err
  errCause : t.errCause = b.errCause

/-- INIT_STATE and CTRL_PHASE are unchanged. -/
structure Block.SameProgress (b t : Block c) : Prop where
  initState : t.initState = b.initState
  ctrlPhase : t.ctrlPhase = b.ctrlPhase

/-- PORT and DDR are unchanged. -/
structure Block.SamePorts (b t : Block c) : Prop where
  port : t.port = b.port
  ddr : t.ddr = b.ddr

/-- Every PORT bit but those of the listed lines is unchanged. -/
def Block.SamePortExcept (b t : Block c) (ls : List Line) : Prop :=
  ∀ p, p ∉ ls.map c.pin → t.portBit p = b.portBit p

/-- The first error is recorded with its cause, a later one changes nothing (spec 60_exceptions R127). -/
def Block.RecordsError (b t : Block c) (cause : ErrCause) : Prop :=
  t.err = true ∧ t.errCause = if b.err then b.errCause else cause

/-- The state elements of spec 10_state R21 have their reset values (spec 70_reset_and_hazards R140). -/
structure Block.AtReset (b : Block c) : Prop where
  mode : b.mode = .idle
  prog : b.prog = .init
  upc : b.upc = 0#6
  cnt : b.cnt = 0#c.cntWidth
  latchRs : b.latchRs = false
  latchByte : b.latchByte = 0#8
  postClass : b.postClass = .data
  initState : b.initState = .uninit
  ctrlPhase : b.ctrlPhase = .uninitialized
  err : b.err = false
  errCause : b.errCause = .none
  port : b.port = 0#c.portWidth
  ddr : b.ddr = 0#c.portWidth

/-- Bit `p` is one of the six owned bits (spec 00_scope R19). -/
def Owned (c : Config) (p : Nat) : Prop := p ∈ Line.all.map c.pin

/-! ### Runs -/

/-- The outside is quiet from here on: no reset, no other port user writes, and the host offers its words
as soon as it may (spec 95_test_vectors, conventions). -/
structure Block.Quiet (b : Block c) : Prop where
  edgeInputs : b.edgeInputs = []
  hostPauses : b.hostPauses = []

/-- The outside signals at the edge `k` edges after the coming one. -/
def Block.inputAt (b : Block c) (k : Nat) : EdgeInput c.portWidth :=
  (b.edgeInputs.drop k).headD (EdgeInput.quiet c.portWidth)

/-- The host command stream that `b` holds has run to its end `n` edges later, at `t`: "every command in it
has been accepted, MODE = IDLE and `rst` has stayed 0 throughout" (spec 41_protocol_driver R110).  A word
leaves `hostWords` by its acceptance alone. -/
structure Block.Completed (b : Block c) (n : Nat) (t : Block c) : Prop where
  ran : Host.Core.run Sys2Proof.core n ⟨c, b⟩ = .next ⟨c, t⟩
  accepted : t.hostWords = []
  idle : t.mode = .idle
  no_reset : ∀ k, k < n → (b.inputAt k).rst = false

/-- No error is recorded (spec 60_exceptions R127: the premise of a claim that excludes errors). -/
def Block.NoError (b : Block c) : Prop := b.err = false

/-- The RS value and nibble of a commit, without its edge number. -/
def Commit.event (k : Commit) : Bool × Nibble := (k.rs, k.nibble)

/-- The two bus events of a byte frame, high nibble first (spec 30_encoding R61). -/
def frameEvents (rs : Bool) (b : Byte) : List (Bool × Nibble) := [(rs, hi b), (rs, lo b)]

/-- The fourteen bus events of the INIT script (spec 41_protocol_driver R94, R95). -/
def initEvents (c : Config) : List (Bool × Nibble) :=
  [(false, c.nibReset), (false, c.nibReset), (false, c.nibReset), (false, c.nib4Bit)] ++
  frameEvents false c.opFuncSet ++ frameEvents false c.opDispOff ++ frameEvents false c.opClear ++
  frameEvents false c.opEntry ++ frameEvents false c.opDispOn

/-- The bytes a controller assembles from events in pairs, high nibble first, each with its RS value
(spec 41_protocol_driver R108); a lone last event is no byte. -/
def assembled : List (Bool × Nibble) → List (Bool × Byte)
  | h :: l :: rest => (h.1, byteOf h.2 l.2) :: assembled rest
  | [_] => []
  | [] => []

/-- The bytes decoded from the events since the acceptance of an INIT: the first four events are the
single-nibble forms (spec 41_protocol_driver R108). -/
def decodedBytes (events : List (Bool × Nibble)) : List (Bool × Byte) := assembled (events.drop 4)

/-- The controller is in 4-bit mode and its next commit is a high nibble (spec 41_protocol_driver R109). -/
def Block.Aligned (b : Block c) : Prop := b.controller.mode = .fourBit ∧ b.controller.phase = 0#1

end Sys2Proof.Machine
end

