-- ==== Sys2Proof/Certificates/Slice0/Obligations.lean ====
section
/-! DEFINITION. The statements for the provers. -/

open Sys2Proof Sys2Proof.Machine

/-! ### Configuration -/

/-- Spec 00_scope R16: "A model should refuse a configuration that fails any check."  The checks are WF1 to
WF7 and the ranges of F_CLK_HZ and HOST_UINT_BITS (log 16). -/
def Obligations.IllFormedConfigurationIsRefused : Prop :=
  ∀ s : State,
    (step s = .refused .illFormedConfiguration ↔ s.cfg.wellFormed = false) ∧
    (s.cfg.wellFormed = true ↔
      6 ≤ s.cfg.portWidth ∧
      (∀ l m : Line, s.cfg.pin l = s.cfg.pin m → l = m) ∧ (∀ l : Line, s.cfg.pin l < s.cfg.portWidth) ∧
      (∀ d : Delay, 1 ≤ s.cfg.cycles d) ∧
      (∀ d : Delay, d.minMicros * s.cfg.clkHz ≤ s.cfg.cycles d * 1000000) ∧
      (∀ d ∈ Delay.belowClear, s.cfg.cycles d < s.cfg.nClear) ∧
      (∀ d : Delay, s.cfg.cycles d ≤ 2 ^ s.cfg.cntWidth - 1) ∧
      0 < s.cfg.clkHz ∧ 1 ≤ s.cfg.hostUintBits)

/-- Spec 00_scope R15: the example configuration passes every check; the machine right after reset has it
(log 1: the model's choice). -/
def Obligations.ExampleConfigurationIsWellFormed : Prop :=
  Config.cfgEx.WellFormed ∧ State.reset.cfg = Config.cfgEx

/-- Spec 00_scope R10: "It is not state, and no step changes it." -/
def Obligations.StepKeepsTheConfiguration : Prop :=
  ∀ s s' : State, step s = .next s' → s'.cfg = s.cfg

/-! ### Reset -/

/-- Spec 70_reset_and_hazards R140 of the reset state itself, in every configuration. -/
def Obligations.ResetBlockHasSpecValues : Prop :=
  ∀ c : Config,
    (Block.reset c).AtReset ∧ (Block.reset c).status = 0x00#8 ∧ (Block.reset c).cmdReady = true ∧
    ∀ l : Line, (Block.reset c).drivenLevel l = none

/-- Spec 70_reset_and_hazards R139, R140, R142: a reset edge in any state, whatever runs and whatever is
offered. -/
def Obligations.ResetEdgeRestoresEveryElement : Prop :=
  ∀ (c : Config) (b : Block c), c.WellFormed → b.nextInput.rst = true →
    ∃ t : Block c, step ⟨c, b⟩ = .next ⟨c, t⟩ ∧ t.AtReset ∧
      t.status = 0x00#8 ∧ t.cmdReady = true ∧ (∀ l : Line, t.drivenLevel l = none) ∧
      t.commits = b.commits ∧ t.hostWords = b.hostWords

/-! ### The step and the decoded command -/

/-- A step at which the host offers a word executes the decoded command on the machine as the edge meets
it, then closes the edge.  `openEdge` takes the edge's signals, the consumed word and the other port
users' writes; nothing else.  That a step EXECUTES the offered word at every such edge, at MODE = RUN too
(where the execution is a wait, since spec 41_protocol_driver R90 and 60_exceptions R128 accept no
command), is the model's reading (log 3); the host's words and the coming signals as lists are the
model's choice (log 7, 8).  The edge's order is spec 40_bus_signal_driver R74. -/
def Obligations.StepExecutesTheOfferedCommand : Prop :=
  ∀ (c : Config) (b : Block c) (w : CmdWord), c.WellFormed → b.nextInput.rst = false →
    b.offeredWord = some w →
    step ⟨c, b⟩ = closing (exec (decodeHostCmd w) ⟨c, b.openEdge⟩) ∧
    b.openEdge.hostWords = (if b.mode = .idle then b.hostWords.tail else b.hostWords) ∧
    b.openEdge.hostPauses = (if b.mode = .idle then b.hostPauses.tail else b.hostPauses) ∧
    b.openEdge.edgeInputs = b.edgeInputs.tail ∧
    b.SameSequencer b.openEdge ∧ b.SameLatches b.openEdge ∧ b.SameErrors b.openEdge ∧
    b.SameProgress b.openEdge ∧ (∀ l : Line, b.openEdge.line l = b.line l) ∧
    b.openEdge.commits = b.commits ∧ b.openEdge.edge = b.edge ∧
    b.openEdge.controller = b.controller ∧ b.openEdge.draws = b.draws

/-- Spec 41_protocol_driver R90 and 60_exceptions R128: while MODE = RUN no command is accepted and none is
lost; the running program steps. -/
def Obligations.RunningProgramMakesTheHostWait : Prop :=
  ∀ (c : Config) (b : Block c), c.WellFormed → b.nextInput.rst = false → b.mode = .run →
    step ⟨c, b⟩ = closing (onState b.openEdge.tick) ∧ b.openEdge.hostWords = b.hostWords ∧
    ∀ s' : State, step ⟨c, b⟩ = .next s' → s'.block.hostWords = b.hostWords

/-- Spec 40_bus_signal_driver R74, 70_reset_and_hazards R143: an idle edge with no command offered. -/
def Obligations.IdleEdgeWithoutCommandHolds : Prop :=
  ∀ (c : Config) (b : Block c), c.WellFormed → b.nextInput.rst = false → b.mode = .idle →
    b.offeredWord = none →
    ∃ t : Block c, step ⟨c, b⟩ = .next ⟨c, t⟩ ∧
      b.SameSequencer t ∧ b.SameLatches t ∧ b.SameErrors t ∧ b.SameProgress t ∧
      (∀ l : Line, t.line l = b.line l ∧ t.ddrBit (c.pin l) = b.ddrBit (c.pin l)) ∧
      t.commits = b.commits ∧ t.controller = b.controller ∧ t.hostWords = b.hostWords ∧
      t.edge = b.edge + 1

/-- Spec 42_host_pseudo R111: the host "holds `cmd_valid = 1` with each word until that word is accepted
(`41_protocol_driver.md` rule R90), and only then offers the next"; a word that is offered at an edge is
consumed where the handshake completes, and otherwise offered again at the next edge.  (The host's words
and pauses as lists: log 7.) -/
def Obligations.HostHoldsItsWordUntilAccepted : Prop :=
  ∀ (c : Config) (b t : Block c), step ⟨c, b⟩ = .next ⟨c, t⟩ →
    (∀ w, b.offeredWord = some w →
      (b.nextInput.rst = false ∧ b.mode = .idle → t.hostWords = b.hostWords.tail) ∧
      (¬ (b.nextInput.rst = false ∧ b.mode = .idle) →
        t.hostWords = b.hostWords ∧ t.offeredWord = some w)) ∧
    (b.offeredWord = none → t.hostWords = b.hostWords)

/-- While a micro-program runs, an offered command of either command format only waits: its execution is
the running program's step.  Spec 41_protocol_driver R90 and 60_exceptions R128 say that no command is
accepted then and that the program steps; that the command's execution at such an edge IS that step is
the model's reading (log 3), and that a row of the LCD format is a command that is offered at all is
log 4. -/
def Obligations.OfferedCommandWaitsWhileRunning : Prop :=
  ∀ (c : Config) (b : Block c) (i : Instr), i.format ≠ .lcdNibble → b.mode = .run →
    exec i ⟨c, b⟩ = onState b.tick

/-! ### Encoding -/

/-- Words written out from the encodings of spec 30_encoding R58, R59, R62 and R64 decode to what they
stand for. -/
def Obligations.WrittenWordsDecode : Prop :=
  decodeTableWord 10 0b0000000000 = some (.init 0x00#8) ∧
  decodeTableWord 10 0b0101000001 = some (.sendInstr 0x41#8) ∧
  decodeTableWord 10 0b1001000001 = some (.sendData 0x41#8) ∧
  decodeTableWord 10 0b1111111111 = some (.reserved 0xFF#8) ∧
  decodeTableWord 8 0b00000001 = some .clearDisplay ∧
  decodeTableWord 8 0b00000011 = some (.homeCursor true) ∧
  decodeTableWord 8 0b00000110 = some (.entryModeSet true false) ∧
  decodeTableWord 8 0b00001100 = some (.displayOnOff true false false) ∧
  decodeTableWord 8 0b00111001 = some (.functionReset true false 1#2) ∧
  decodeTableWord 8 0b00101000 = some (.functionSet4Bit true false 0#2) ∧
  decodeTableWord 8 0b11000000 = some (.setCursorPosition 0x40#7) ∧
  decodeTableWord 4 0b0011 = some .nibReset ∧
  decodeTableWord 4 0b0010 = some .nib4Bit ∧
  decodeTableWord 8 0b00000000 = none ∧ decodeTableWord 8 0b00010000 = none ∧
  decodeTableWord 4 0b0001 = none

/-- Decoding the encoding of a well-formed instruction gives it back, with every operand at every value. -/
def Obligations.DecodeOfEncodeIsTheInstruction : Prop :=
  ∀ i : Instr, i.wellFormed = true →
    encode i < 2 ^ i.format.width ∧ decode i.format (encode i) = .ok i

/-- Spec 30_encoding R69: every command word decodes, by `op` alone, and no bit of it is lost. -/
def Obligations.CommandWordsDecodeByOpAlone : Prop :=
  ∀ w : CmdWord, encode (decodeHostCmd w) = w.toNat ∧
    ((w.toNat / 256 = 0 ∧ decodeHostCmd w = .init (BitVec.ofNat 8 (w.toNat % 256))) ∨
     (w.toNat / 256 = 1 ∧ decodeHostCmd w = .sendInstr (BitVec.ofNat 8 (w.toNat % 256))) ∨
     (w.toNat / 256 = 2 ∧ decodeHostCmd w = .sendData (BitVec.ofNat 8 (w.toNat % 256))) ∨
     (w.toNat / 256 = 3 ∧ decodeHostCmd w = .reserved (BitVec.ofNat 8 (w.toNat % 256))))

/-- Spec 30_encoding R64, R67: a byte decodes to an instruction that encodes to it, or it is outside the
closed set and no `lcd_instr` row selects it. -/
def Obligations.LcdBytesDecodeOrAreUnlisted : Prop :=
  ∀ b : Byte,
    (∃ i : Instr, decodeLcdInstr b = .ok i ∧ i.format = .lcdInstr ∧ encode i = b.toNat ∧
      (opcodeRows.filter fun r => r.selects .lcdInstr b.toNat).map (·.name) = [i.mnemonic]) ∨
    (decodeLcdInstr b = .error .unlistedByte ∧
      (opcodeRows.filter fun r => r.selects .lcdInstr b.toNat) = [])

/-! ### The host commands -/

/-- Spec 41_protocol_driver R90, R91: an INIT offered to an idle block that is not READY is accepted, and
micro-op 0 (SETDIR) begins at that edge.  Everything the acceptance changes is named; the payload does
not matter. -/
def Obligations.InitStartsTheScript : Prop :=
  ∀ (c : Config) (b : Block c) (p : Byte), b.mode = .idle → b.initState ≠ .ready →
    ∃ t : Block c, exec (.init p) ⟨c, b⟩ = .next ⟨c, t⟩ ∧
      t.mode = .run ∧ t.prog = .init ∧ t.upc = 0#6 ∧ t.cnt = 1#c.cntWidth ∧
      t.initState = .initializing ∧ t.ctrlPhase = b.ctrlPhase ∧
      t.port = b.port ∧ t.ddr = b.ddr ||| ownMask c ∧
      b.SameLatches t ∧ b.SameErrors t ∧ b.SameOutside t

/-- Spec 60_exceptions R125, 70_reset_and_hazards R147: a second INIT before reset. -/
def Obligations.SecondInitIsRefused : Prop :=
  ∀ (c : Config) (b : Block c) (p : Byte), b.mode = .idle → b.initState = .ready →
    ∃ t : Block c, exec (.init p) ⟨c, b⟩ = .next ⟨c, t⟩ ∧ b.RecordsError t .reinit ∧
      b.SameSequencer t ∧ b.SameLatches t ∧ b.SameProgress t ∧ b.SamePorts t ∧ b.SameOutside t

/-- Spec 41_protocol_driver R90, R92, 30_encoding R63: SEND_INSTR(y) offered to an idle, READY block is
accepted and micro-op 0 (SETRS 0) begins.  Everything the acceptance changes is named. -/
def Obligations.SendInstrStartsTheFrame : Prop :=
  ∀ (c : Config) (b : Block c) (y : Byte), c.WellFormed → b.mode = .idle → b.initState = .ready →
    ∃ t : Block c, exec (.sendInstr y) ⟨c, b⟩ = .next ⟨c, t⟩ ∧
      t.mode = .run ∧ t.prog = .send ∧ t.upc = 0#6 ∧ t.cnt.toNat = c.nSetup ∧
      t.latchRs = false ∧ t.latchByte = y ∧ t.postClass = postClassOf c y ∧
      t.line .rs = false ∧ t.line .e = false ∧ b.SamePortExcept t [.rs, .e] ∧ t.ddr = b.ddr ∧
      b.SameErrors t ∧ b.SameProgress t ∧ b.SameOutside t

/-- Spec 41_protocol_driver R90, R93, 30_encoding R63: SEND_DATA(y) offered to an idle, READY block is
accepted and micro-op 0 (SETRS 1) begins.  Everything the acceptance changes is named. -/
def Obligations.SendDataStartsTheFrame : Prop :=
  ∀ (c : Config) (b : Block c) (y : Byte), c.WellFormed → b.mode = .idle → b.initState = .ready →
    ∃ t : Block c, exec (.sendData y) ⟨c, b⟩ = .next ⟨c, t⟩ ∧
      t.mode = .run ∧ t.prog = .send ∧ t.upc = 0#6 ∧ t.cnt.toNat = c.nSetup ∧
      t.latchRs = true ∧ t.latchByte = y ∧ t.postClass = .data ∧
      t.line .rs = true ∧ t.line .e = false ∧ b.SamePortExcept t [.rs, .e] ∧ t.ddr = b.ddr ∧
      b.SameErrors t ∧ b.SameProgress t ∧ b.SameOutside t

/-- Spec 60_exceptions R125, 70_reset_and_hazards R147: SEND_INSTR and SEND_DATA before READY; and every
instruction of the LCD closed set, a row of which stands for the SEND_INSTR of its byte by the model's
reading (log 4). -/
def Obligations.SendBeforeReadyIsRefused : Prop :=
  ∀ (c : Config) (b : Block c) (i : Instr),
    (∃ y, i = .sendInstr y ∨ i = .sendData y) ∨ i.format = .lcdInstr →
    b.mode = .idle → b.initState ≠ .ready →
    ∃ t : Block c, exec i ⟨c, b⟩ = .next ⟨c, t⟩ ∧ b.RecordsError t .notInit ∧
      b.SameSequencer t ∧ b.SameLatches t ∧ b.SameProgress t ∧ b.SamePorts t ∧ b.SameOutside t

/-- Spec 30_encoding R66: a command with op = 0b11 is consumed, writes no port, starts no micro-program and
raises RESERVED_OP, in every INIT_STATE and whatever its payload. -/
def Obligations.ReservedOpIsRefused : Prop :=
  (∀ (c : Config) (b : Block c) (p : Byte), b.mode = .idle →
    ∃ t : Block c, exec (.reserved p) ⟨c, b⟩ = .next ⟨c, t⟩ ∧ b.RecordsError t .reservedOp ∧
      b.SameSequencer t ∧ b.SameLatches t ∧ b.SameProgress t ∧ b.SamePorts t ∧ b.SameOutside t) ∧
  (∀ (c : Config) (b : Block c) (w : CmdWord), c.WellFormed → b.nextInput.rst = false →
    b.mode = .idle → b.offeredWord = some w → w.toNat / 256 = 3 →
    ∃ t : Block c, step ⟨c, b⟩ = .next ⟨c, t⟩ ∧ b.RecordsError t .reservedOp ∧
      t.hostWords = b.hostWords.tail ∧ b.SameSequencer t ∧ b.SameLatches t ∧ b.SameProgress t ∧
      (b.othersWrite b.nextInput.others).SamePorts t ∧ t.commits = b.commits)

/-! ### The LCD closed set and the single-nibble forms -/

/-- Spec 41_protocol_driver R101 to R107: each of CLEAR_DISPLAY, HOME_CURSOR, ENTRY_MODE_SET,
DISPLAY_ON_OFF, FUNCTION_RESET, FUNCTION_SET_4BIT and SET_CURSOR_POSITION, offered to an idle, READY
block, starts a byte frame with RS = 0 of its own byte, with that byte's post-delay class.  That the
row stands for the byte's SEND_INSTR is the model's reading (log 4). -/
def Obligations.LcdInstructionsStartTheirFrame : Prop :=
  ∀ (c : Config) (b : Block c) (i : Instr), c.WellFormed → i.format = .lcdInstr →
    b.mode = .idle → b.initState = .ready →
    ∃ t : Block c, exec i ⟨c, b⟩ = .next ⟨c, t⟩ ∧
      t.mode = .run ∧ t.prog = .send ∧ t.upc = 0#6 ∧ t.cnt.toNat = c.nSetup ∧
      t.latchRs = false ∧ t.latchByte.toNat = encode i ∧ t.postClass = postClassOf c t.latchByte ∧
      t.line .rs = false ∧ t.line .e = false ∧ b.SamePortExcept t [.rs, .e] ∧ t.ddr = b.ddr ∧
      b.SameErrors t ∧ b.SameProgress t ∧ b.SameOutside t

/-- Spec 41_protocol_driver R105, R94: NIB_RESET runs at the edges of INIT micro-ops 3 to 14.  While cycles
are left it only counts.  Where its nibble write begins (UPC 2, 6 or 10 in its last cycle) the data
lines take NIB_RESET; then the strobe rises and falls; a commit is made exactly where it falls (UPC 4,
8 or 12), with the lines' values before the edge; then the wait of that repetition begins.  Everything
else named stays.  That the row stands for these edges is the model's reading (log 5). -/
def Obligations.NibResetRunsInTheScript : Prop :=
  ∀ (c : Config) (b : Block c), c.WellFormed → b.inInitOps 3 14 = true →
    ∃ t : Block c, exec .nibReset ⟨c, b⟩ = .next ⟨c, t⟩ ∧
      t.mode = .run ∧ t.prog = .init ∧ t.upc.toNat = b.opAtEdge ∧
      (1 < b.cnt.toNat → t.cnt.toNat + 1 = b.cnt.toNat ∧ b.SamePorts t ∧ t.commits = b.commits ∧
        t.controller = b.controller) ∧
      (b.cnt.toNat ≤ 1 ∧ b.upc.toNat ∈ [2, 6, 10] →
        t.nibbleOnLines = c.nibReset ∧ t.cnt.toNat = c.nSetup ∧ t.line .e = b.line .e) ∧
      (b.cnt.toNat ≤ 1 ∧ b.upc.toNat ∈ [3, 7, 11] →
        t.line .e = true ∧ t.nibbleOnLines = b.nibbleOnLines ∧ t.cnt.toNat = c.nEh) ∧
      (b.cnt.toNat ≤ 1 ∧ b.upc.toNat ∈ [4, 8, 12] →
        t.line .e = false ∧ t.nibbleOnLines = b.nibbleOnLines ∧ t.cnt.toNat = c.nEl ∧
        t.commits = b.commits ++ [⟨b.edge, b.line .rs, b.nibbleOnLines⟩]) ∧
      (b.cnt.toNat ≤ 1 → b.upc.toNat = 5 → t.cnt.toNat = c.nReset1 ∧ b.SamePorts t) ∧
      (b.cnt.toNat ≤ 1 → b.upc.toNat = 9 → t.cnt.toNat = c.nReset2 ∧ b.SamePorts t) ∧
      (b.cnt.toNat ≤ 1 → b.upc.toNat = 13 → t.cnt.toNat = c.nReset3 ∧ b.SamePorts t) ∧
      (¬ (b.cnt.toNat ≤ 1 ∧ b.upc.toNat ∈ [4, 8, 12]) →
        t.commits = b.commits ∧ t.controller = b.controller ∧ t.draws = b.draws) ∧
      t.ctrlPhase = (if b.cnt.toNat ≤ 1 ∧ b.upc.toNat = 12 then .eightBitAssumed else b.ctrlPhase) ∧
      b.SamePortExcept t [.e, .db4, .db5, .db6, .db7] ∧ t.ddr = b.ddr ∧
      t.initState = b.initState ∧ b.SameLatches t ∧ b.SameErrors t ∧
      t.hostWords = b.hostWords ∧ t.hostPauses = b.hostPauses ∧ t.edgeInputs = b.edgeInputs ∧
      t.edge = b.edge

/-- Spec 41_protocol_driver R106, R94: NIB_4BIT runs at the edges of INIT micro-ops 15 to 18, with NIB_4BIT
on the data lines from micro-op 15 on, its commit where micro-op 17 begins, and the wait N_NIB4 after
it.  That the row stands for these edges is the model's reading (log 5). -/
def Obligations.Nib4BitRunsInTheScript : Prop :=
  ∀ (c : Config) (b : Block c), c.WellFormed → b.inInitOps 15 18 = true →
    ∃ t : Block c, exec .nib4Bit ⟨c, b⟩ = .next ⟨c, t⟩ ∧
      t.mode = .run ∧ t.prog = .init ∧ t.upc.toNat = b.opAtEdge ∧
      (1 < b.cnt.toNat → t.cnt.toNat + 1 = b.cnt.toNat ∧ b.SamePorts t ∧ t.commits = b.commits ∧
        t.controller = b.controller) ∧
      (b.cnt.toNat ≤ 1 ∧ b.upc.toNat = 14 →
        t.nibbleOnLines = c.nib4Bit ∧ t.cnt.toNat = c.nSetup ∧ t.line .e = b.line .e) ∧
      (b.cnt.toNat ≤ 1 ∧ b.upc.toNat = 15 →
        t.line .e = true ∧ t.nibbleOnLines = b.nibbleOnLines ∧ t.cnt.toNat = c.nEh) ∧
      (b.cnt.toNat ≤ 1 ∧ b.upc.toNat = 16 →
        t.line .e = false ∧ t.nibbleOnLines = b.nibbleOnLines ∧ t.cnt.toNat = c.nEl ∧
        t.commits = b.commits ++ [⟨b.edge, b.line .rs, b.nibbleOnLines⟩]) ∧
      (b.cnt.toNat ≤ 1 ∧ b.upc.toNat = 17 → t.cnt.toNat = c.nNib4 ∧ b.SamePorts t) ∧
      (¬ (b.cnt.toNat ≤ 1 ∧ b.upc.toNat = 16) →
        t.commits = b.commits ∧ t.controller = b.controller ∧ t.draws = b.draws) ∧
      b.SamePortExcept t [.e, .db4, .db5, .db6, .db7] ∧ t.ddr = b.ddr ∧
      b.SameProgress t ∧ b.SameLatches t ∧ b.SameErrors t ∧
      t.hostWords = b.hostWords ∧ t.hostPauses = b.hostPauses ∧ t.edgeInputs = b.edgeInputs ∧
      t.edge = b.edge

/-- Spec 30_encoding R62: at every other edge no single-nibble form is sent, and the model refuses its row
by name (log 5). -/
def Obligations.NibbleFormsRunOnlyInTheScript : Prop :=
  ∀ (c : Config) (b : Block c),
    (b.inInitOps 3 14 = false → exec .nibReset ⟨c, b⟩ = .refused .singleNibbleOutsideInit) ∧
    (b.inInitOps 15 18 = false → exec .nib4Bit ⟨c, b⟩ = .refused .singleNibbleOutsideInit) ∧
    (b.mode = .idle ∨ b.prog = .send → b.inInitOps 3 14 = false ∧ b.inInitOps 15 18 = false)

/-! ### Micro-ops and the port -/

/-- Spec 40_bus_signal_driver R76: SETDIR. -/
def Obligations.SetDirMakesTheLinesOutputs : Prop :=
  ∀ (c : Config) (b : Block c), c.WellFormed →
    (∀ l : Line, (b.entry .setDir).ddrBit (c.pin l) = true) ∧
    (∀ p, ¬ Owned c p → (b.entry .setDir).ddrBit p = b.ddrBit p) ∧
    (b.entry .setDir).port = b.port ∧ (b.entry .setDir).commits = b.commits ∧
    duration c .setDir = 1

/-- Spec 40_bus_signal_driver R78: ZERO writes every PORT bit, and not DDR. -/
def Obligations.ZeroClearsTheWholePort : Prop :=
  ∀ (c : Config) (b : Block c),
    (b.entry .zero).port = 0#c.portWidth ∧ (b.entry .zero).ddr = b.ddr ∧
    (b.entry .zero).commits = b.commits ∧ duration c .zero = 1

/-- Spec 40_bus_signal_driver R79: SETRS(v) writes Mode-Select and Strobe only. -/
def Obligations.SetRsWritesSelectAndStrobe : Prop :=
  ∀ (c : Config) (b : Block c) (v : Bool), c.WellFormed →
    (b.entry (.setRs v)).line .rs = v ∧ (b.entry (.setRs v)).line .e = false ∧
    b.SamePortExcept (b.entry (.setRs v)) [.rs, .e] ∧
    (b.entry (.setRs v)).ddr = b.ddr ∧ (b.entry (.setRs v)).commits = b.commits ∧
    duration c (.setRs v) = c.nSetup

/-- Spec 20_memory R41: "LCD_DB7 = n[3], LCD_DB6 = n[2], LCD_DB5 = n[1] and LCD_DB4 = n[0]", by PUTNIB
(spec 40_bus_signal_driver R80), which writes the four data lines only. -/
def Obligations.PutNibDrivesTheNibble : Prop :=
  ∀ (c : Config) (b : Block c) (n : Nibble), c.WellFormed →
    (b.entry (.putNib n)).line .db7 = n.getLsbD 3 ∧ (b.entry (.putNib n)).line .db6 = n.getLsbD 2 ∧
    (b.entry (.putNib n)).line .db5 = n.getLsbD 1 ∧ (b.entry (.putNib n)).line .db4 = n.getLsbD 0 ∧
    (b.entry (.putNib n)).nibbleOnLines = n ∧
    b.SamePortExcept (b.entry (.putNib n)) [.db4, .db5, .db6, .db7] ∧
    (b.entry (.putNib n)).ddr = b.ddr ∧ (b.entry (.putNib n)).commits = b.commits ∧
    duration c (.putNib n) = c.nSetup

/-- Spec 40_bus_signal_driver R81, R82: STROBE_HI and STROBE_LO write Strobe only; STROBE_LO records one
commit with the values before the edge. -/
def Obligations.StrobePairCommitsOnce : Prop :=
  ∀ (c : Config) (b : Block c), c.WellFormed →
    (b.entry .strobeHi).line .e = true ∧ b.SamePortExcept (b.entry .strobeHi) [.e] ∧
    (b.entry .strobeHi).ddr = b.ddr ∧ (b.entry .strobeHi).commits = b.commits ∧
    duration c .strobeHi = c.nEh ∧
    (b.entry .strobeLo).line .e = false ∧ b.SamePortExcept (b.entry .strobeLo) [.e] ∧
    (b.entry .strobeLo).ddr = b.ddr ∧
    (b.entry .strobeLo).commits = b.commits ++ [⟨b.edge, b.line .rs, b.nibbleOnLines⟩] ∧
    duration c .strobeLo = c.nEl

/-- Spec 40_bus_signal_driver R77: WAIT(k) writes nothing, and lasts N_k cycles. -/
def Obligations.WaitHoldsEveryOutput : Prop :=
  ∀ (c : Config) (b : Block c) (d : Delay),
    b.entry (.wait d) = b ∧ duration c (.wait d) = c.cycles d

/-- Spec 40_bus_signal_driver R87: "Outside the ZERO micro-op, no micro-op writes a PORT or DDR bit outside
OWN.  SETRS, PUTNIB, STROBE_HI and STROBE_LO each write only their named owned bits." -/
def Obligations.MicroOpsKeepForeignBits : Prop :=
  ∀ (c : Config) (b : Block c), c.WellFormed →
    (∀ (u : MicroOp) (p : Nat), ¬ Owned c p → u ≠ .zero →
      (b.entry u).portBit p = b.portBit p ∧ (b.entry u).ddrBit p = b.ddrBit p) ∧
    (∀ v, b.SamePortExcept (b.entry (.setRs v)) [.rs, .e] ∧ (b.entry (.setRs v)).ddr = b.ddr) ∧
    (∀ n, b.SamePortExcept (b.entry (.putNib n)) [.db4, .db5, .db6, .db7] ∧
      (b.entry (.putNib n)).ddr = b.ddr) ∧
    (b.SamePortExcept (b.entry .strobeHi) [.e] ∧ (b.entry .strobeHi).ddr = b.ddr) ∧
    (b.SamePortExcept (b.entry .strobeLo) [.e] ∧ (b.entry .strobeLo).ddr = b.ddr)

/-- Spec 20_memory R49: no move of the other port users writes a bit in OWN, and outside OWN each of their
masks is written as they ask. -/
def Obligations.OtherUsersWriteOutsideOwnOnly : Prop :=
  ∀ (c : Config) (b : Block c) (o : OtherWrite c.portWidth),
    (∀ l : Line, (b.othersWrite o).line l = b.line l ∧
      (b.othersWrite o).ddrBit (c.pin l) = b.ddrBit (c.pin l)) ∧
    (∀ p, ¬ Owned c p →
      (b.othersWrite o).portBit p = (if o.portMask.getLsbD p then o.portValue.getLsbD p else b.portBit p) ∧
      (b.othersWrite o).ddrBit p = (if o.ddrMask.getLsbD p then o.ddrValue.getLsbD p else b.ddrBit p))

/-- Spec 40_bus_signal_driver R83, R84, 41_protocol_driver R96, R99: the cycles of the macros and of the two
micro-programs. -/
def Obligations.MacroAndProgramDurations : Prop :=
  ∀ (c : Config) (n : Nibble) (v : Bool) (y : Byte) (k : PostClass),
    ((nibbleOps n).map (duration c)).sum = c.nSetup + c.nEh + c.nEl ∧
    ((byteOps v y).map (duration c)).sum = c.nSetup + 2 * (c.nSetup + c.nEh + c.nEl) ∧
    ((initScript c).map (duration c)).sum =
      2 + 4 * nibbleCycles c + 5 * byteCycles c + c.nPowerOn + c.nReset1 + c.nReset2 + c.nReset3 +
        c.nNib4 + c.nFuncSet + c.nDispOff + c.nClear + c.nEntry + c.nDispOn ∧
    ((sendProgram v y k).map (duration c)).sum = byteCycles c + c.cycles k.delay

/-- Spec 41_protocol_driver R99: the eight micro-ops of the SEND program. -/
def Obligations.SendProgramListing : Prop :=
  ∀ (rs : Bool) (y : Byte) (k : PostClass),
    sendProgram rs y k =
      [.setRs rs, .putNib (y.extractLsb' 4 4), .strobeHi, .strobeLo,
       .putNib (y.extractLsb' 0 4), .strobeHi, .strobeLo, .wait k.delay]

/-- Spec 41_protocol_driver R94: the INIT script, micro-op by micro-op. -/
def Obligations.InitScriptListing : Prop :=
  ∀ c : Config,
    initScript c = List.flatten
      [[.setDir, .wait .powerOn, .zero,
        .putNib c.nibReset, .strobeHi, .strobeLo, .wait .reset1,
        .putNib c.nibReset, .strobeHi, .strobeLo, .wait .reset2,
        .putNib c.nibReset, .strobeHi, .strobeLo, .wait .reset3,
        .putNib c.nib4Bit, .strobeHi, .strobeLo, .wait .nib4],
       [.setRs false, .putNib (hi c.opFuncSet), .strobeHi, .strobeLo,
        .putNib (lo c.opFuncSet), .strobeHi, .strobeLo, .wait .funcSet],
       [.setRs false, .putNib (hi c.opDispOff), .strobeHi, .strobeLo,
        .putNib (lo c.opDispOff), .strobeHi, .strobeLo, .wait .dispOff],
       [.setRs false, .putNib (hi c.opClear), .strobeHi, .strobeLo,
        .putNib (lo c.opClear), .strobeHi, .strobeLo, .wait .clear],
       [.setRs false, .putNib (hi c.opEntry), .strobeHi, .strobeLo,
        .putNib (lo c.opEntry), .strobeHi, .strobeLo, .wait .entry],
       [.setRs false, .putNib (hi c.opDispOn), .strobeHi, .strobeLo,
        .putNib (lo c.opDispOn), .strobeHi, .strobeLo, .wait .dispOn]]

/-- Spec 41_protocol_driver R100: the post-delay classification. -/
def Obligations.PostDelayClassification : Prop :=
  ∀ (c : Config) (y : Byte),
    (y = c.opClear → postClassOf c y = .clear) ∧
    (y ≠ c.opClear → y &&& 0xFE#8 = c.opHome &&& 0xFE#8 → postClassOf c y = .home) ∧
    (y ≠ c.opClear → y &&& 0xFE#8 ≠ c.opHome &&& 0xFE#8 → postClassOf c y = .std) ∧
    c.cycles PostClass.data.delay = c.nData ∧ c.cycles PostClass.std.delay = c.nCmd ∧
    c.cycles PostClass.home.delay = c.nHome ∧ c.cycles PostClass.clear.delay = c.nClear

/-! ### The sequencer -/

/-- Spec 40_bus_signal_driver R74: one edge of a running micro-program.  The current micro-op continues, or
the program ends, or the next micro-op begins. -/
def Obligations.SequencerStepRule : Prop :=
  ∀ (c : Config) (b : Block c), c.WellFormed → b.nextInput.rst = false → b.mode = .run →
    (1 < b.cnt.toNat →
      ∃ t : Block c, step ⟨c, b⟩ = .next ⟨c, t⟩ ∧ t.cnt.toNat + 1 = b.cnt.toNat ∧
        t.mode = .run ∧ t.prog = b.prog ∧ t.upc = b.upc ∧ b.SameLatches t ∧ b.SameErrors t ∧
        b.SameProgress t ∧ (∀ l : Line, t.line l = b.line l) ∧ t.commits = b.commits) ∧
    (b.cnt.toNat ≤ 1 → b.upc.toNat = b.prog.lastIndex →
      ∃ t : Block c, step ⟨c, b⟩ = .next ⟨c, t⟩ ∧ t.mode = .idle ∧ t.upc = 0#6 ∧
        t.cnt = 0#c.cntWidth ∧ t.prog = b.prog ∧
        t.initState = (if b.prog = .init then .ready else b.initState) ∧
        t.ctrlPhase = (if b.prog = .init then .operational else b.ctrlPhase) ∧
        b.SameLatches t ∧ b.SameErrors t ∧ (∀ l : Line, t.line l = b.line l) ∧
        t.commits = b.commits) ∧
    (b.cnt.toNat ≤ 1 → b.upc.toNat < b.prog.lastIndex →
      ∃ (u : MicroOp) (t : Block c), b.uop b.prog (b.upc.toNat + 1) = some u ∧
        step ⟨c, b⟩ = .next ⟨c, t⟩ ∧ t.mode = .run ∧ t.prog = b.prog ∧
        t.upc.toNat = b.upc.toNat + 1 ∧ t.cnt.toNat = duration c u ∧
        t.initState = b.initState ∧
        t.ctrlPhase = (if b.prog = .init ∧ b.upc.toNat = 12 then .eightBitAssumed
          else if b.prog = .init ∧ b.upc.toNat = 26 then .fourBitConfirmed else b.ctrlPhase) ∧
        b.SameLatches t ∧ b.SameErrors t ∧ (∀ l : Line, t.line l = (b.entry u).line l) ∧
        t.commits = (b.entry u).commits)

/-- Spec 93_implementation_defined I11: a UPC value above the last index of PROG is stuck where it would
begin a micro-op. -/
def Obligations.UpcAboveLastIndexIsStuck : Prop :=
  ∀ (c : Config) (b : Block c), c.WellFormed → b.nextInput.rst = false → b.mode = .run →
    b.cnt.toNat ≤ 1 → b.prog.lastIndex < b.upc.toNat →
    step ⟨c, b⟩ = .fault .noSuchMicroOp

/-! ### Invariants and whole-machine rules -/

/-- The invariant (spec 10_state R37, strengthened) holds at reset, in every configuration. -/
def Obligations.InvariantHoldsAtReset : Prop :=
  (∀ c : Config, (Block.reset c).Inv) ∧ State.reset.Inv

/-- Every step from a state with the invariant (spec 10_state R37 (a) to (h), strengthened) leads to a
state with it: whatever the host, the other port users and the reset line do. -/
def Obligations.StepKeepsTheInvariant : Prop :=
  ∀ s s' : State, s.Inv → step s = .next s' → s'.Inv

/-- A machine with a well-formed configuration and the invariant never faults and never refuses. -/
def Obligations.InvariantStatesNeverStop : Prop :=
  ∀ s : State, s.cfg.WellFormed → s.Inv → ∃ s' : State, step s = .next s'

/-- Spec 10_state R26: INIT_STATE goes from UNINIT to INITIALIZING to READY and back only by reset. -/
def Obligations.InitStateMovesForwardOnly : Prop :=
  ∀ (c : Config) (b t : Block c), b.Inv → step ⟨c, b⟩ = .next ⟨c, t⟩ →
    (b.nextInput.rst = true → t.initState = .uninit) ∧
    (b.nextInput.rst = false →
      (b.initState = .ready → t.initState = .ready) ∧
      (b.initState = .initializing → t.initState = .initializing ∨ t.initState = .ready) ∧
      (b.initState = .uninit → t.initState = .uninit ∨
        (t.initState = .initializing ∧ ∃ w, b.offeredWord = some w ∧ w.toNat / 256 = 0)))

/-- Spec 10_state R27: CTRL_PHASE "never moves backward except by reset". -/
def Obligations.CtrlPhaseMovesForwardOnly : Prop :=
  ∀ (c : Config) (b t : Block c), b.Inv → step ⟨c, b⟩ = .next ⟨c, t⟩ →
    b.nextInput.rst = false → b.ctrlPhase.code.toNat ≤ t.ctrlPhase.code.toNat

/-- Spec 10_state R28, 60_exceptions R125: "The first illegal command sets ERR to 1 and ERR_CAUSE to its
cause.  Later illegal commands change neither field.  Only reset clears them"; and nothing but an illegal
command sets them. -/
def Obligations.ErrorRecordIsSticky : Prop :=
  ∀ (c : Config) (b t : Block c), step ⟨c, b⟩ = .next ⟨c, t⟩ →
    (b.nextInput.rst = true → t.err = false ∧ t.errCause = .none) ∧
    (b.nextInput.rst = false → b.err = true → t.err = true ∧ t.errCause = b.errCause) ∧
    (b.nextInput.rst = false → b.err = false →
      (∀ w, b.mode = .idle → b.offeredWord = some w →
        (w.toNat / 256 = 3 → t.err = true ∧ t.errCause = .reservedOp) ∧
        (w.toNat / 256 = 0 → b.initState = .ready → t.err = true ∧ t.errCause = .reinit) ∧
        (w.toNat / 256 = 1 ∨ w.toNat / 256 = 2 → b.initState ≠ .ready →
          t.err = true ∧ t.errCause = .notInit)) ∧
      (t.err = true → b.mode = .idle ∧ ∃ w, b.offeredWord = some w ∧
        (w.toNat / 256 = 3 ∨ (w.toNat / 256 = 0 ∧ b.initState = .ready) ∨
          ((w.toNat / 256 = 1 ∨ w.toNat / 256 = 2) ∧ b.initState ≠ .ready))) ∧
      (t.err = false → t.errCause = b.errCause))

/-- Spec 40_bus_signal_driver R81, R88: "The data lines and RS do not change while E is 1." -/
def Obligations.LinesHoldWhileStrobeIsHigh : Prop :=
  ∀ (c : Config) (b t : Block c), b.Inv → step ⟨c, b⟩ = .next ⟨c, t⟩ → b.nextInput.rst = false →
    b.line .e = true → t.line .rs = b.line .rs ∧ t.nibbleOnLines = b.nibbleOnLines

/-- Spec 20_memory R51: "Only a change of E from 1 to 0 makes a commit"; and each such change, reset apart,
makes exactly one, of the values before the edge (spec 40_bus_signal_driver R82). -/
def Obligations.CommitsAreStrobeFalls : Prop :=
  ∀ (c : Config) (b t : Block c), b.Inv → step ⟨c, b⟩ = .next ⟨c, t⟩ →
    (b.nextInput.rst = false → b.line .e = true → t.line .e = false →
      t.commits = b.commits ++ [⟨b.edge, b.line .rs, b.nibbleOnLines⟩]) ∧
    (b.nextInput.rst = true ∨ ¬ (b.line .e = true ∧ t.line .e = false) → t.commits = b.commits)

/-- Spec 10_state R29, 70_reset_and_hazards R148: bits outside OWN belong to the other port users at every
edge but reset and the one that begins INIT micro-op 2. -/
def Obligations.ForeignBitsArePreserved : Prop :=
  ∀ (c : Config) (b t : Block c) (p : Nat), step ⟨c, b⟩ = .next ⟨c, t⟩ → b.nextInput.rst = false →
    ¬ Owned c p →
    t.ddrBit p = (if b.nextInput.others.ddrMask.getLsbD p then b.nextInput.others.ddrValue.getLsbD p
      else b.ddrBit p) ∧
    (¬ (b.mode = .run ∧ b.prog = .init ∧ b.upc = 1#6 ∧ b.cnt.toNat ≤ 1) →
      t.portBit p = (if b.nextInput.others.portMask.getLsbD p then b.nextInput.others.portValue.getLsbD p
        else b.portBit p))

/-- Spec 20_memory R50: at the edge of INIT micro-op 2 every PORT bit becomes 0, whatever the other users
write; DDR is not changed by ZERO. -/
def Obligations.ZeroOverridesTheOtherUsers : Prop :=
  ∀ (c : Config) (b : Block c), c.WellFormed → b.nextInput.rst = false → b.mode = .run →
    b.prog = .init → b.upc = 1#6 → b.cnt.toNat ≤ 1 →
    ∃ t : Block c, step ⟨c, b⟩ = .next ⟨c, t⟩ ∧ t.port = 0#c.portWidth ∧
      t.ddr = (b.othersWrite b.nextInput.others).ddr ∧ t.upc = 2#6 ∧ t.commits = b.commits

/-- Spec 10_state R30: LCDNB "never clears" the six owned DDR bits, and only INIT micro-op 0 sets them. -/
def Obligations.OwnedDirectionBitsStaySet : Prop :=
  ∀ (c : Config) (b t : Block c) (l : Line), b.Inv → step ⟨c, b⟩ = .next ⟨c, t⟩ →
    b.nextInput.rst = false →
    (b.ddrBit (c.pin l) = true → t.ddrBit (c.pin l) = true) ∧
    (b.ddrBit (c.pin l) = false → t.ddrBit (c.pin l) = true →
      t.prog = .init ∧ t.mode = .run ∧ t.upc = 0#6)

/-- Spec 41_protocol_driver R97(c): Mode-Select rises only at the acceptance of a SEND_DATA in READY. -/
def Obligations.SelectRisesOnlyForData : Prop :=
  ∀ (c : Config) (b t : Block c), b.Inv → step ⟨c, b⟩ = .next ⟨c, t⟩ →
    b.line .rs = false → t.line .rs = true →
    b.mode = .idle ∧ b.initState = .ready ∧ ∃ w, b.offeredWord = some w ∧ w.toNat / 256 = 2

/-- Spec 10_state R31, R32: the fields of STATUS, and `cmd_ready`. -/
def Obligations.StatusShowsTheState : Prop :=
  ∀ (c : Config) (b : Block c),
    (b.status.getLsbD 0 = true ↔ b.mode = .run) ∧
    b.status.extractLsb' 1 2 = b.initState.code ∧ b.status.getLsbD 3 = b.err ∧
    b.status.extractLsb' 4 2 = b.errCause.code ∧ b.status.extractLsb' 6 2 = b.ctrlPhase.code ∧
    (b.cmdReady = true ↔ b.mode = .idle)

/-! ### Runs in a quiet outside -/

/-- Spec 40_bus_signal_driver R83 and R85: the waveform of one NIBBLE(n) in a quiet outside, from the edge that
begins its PUTNIB on: the data lines are n and RS is stable for all P cycles, and E is 1 for exactly
the N_EH cycles that begin N_SETUP edges later. -/
def Obligations.NibbleWaveform : Prop :=
  ∀ (c : Config) (b : Block c) (n : Nibble), c.WellFormed → b.Inv → b.Quiet → b.mode = .run →
    b.cnt.toNat ≤ 1 → b.uop b.prog (b.upc.toNat + 1) = some (.putNib n) →
    ∀ k, k < c.nSetup + c.nEh + c.nEl →
      ∃ t : Block c, Host.Core.run Sys2Proof.core (k + 1) ⟨c, b⟩ = .next ⟨c, t⟩ ∧
        t.nibbleOnLines = n ∧ t.line .rs = b.line .rs ∧
        (t.line .e = true ↔ c.nSetup ≤ k ∧ k < c.nSetup + c.nEh)

/-- Spec 41_protocol_driver R92, R99, 70_reset_and_hazards R156, R157: SEND_INSTR(y) in a quiet outside, from
its acceptance to IDLE: its two commits with their edges, its post-delay, and what stays.  (The clause
on the controller is CA4 of R109 with log 11: a byte of the closed set that is no 8-bit function set
keeps an aligned controller aligned.) -/
def Obligations.SendInstrRunsToItsEnd : Prop :=
  ∀ (c : Config) (b : Block c) (y : Byte) (rest : List CmdWord), c.WellFormed → b.Quiet →
    b.mode = .idle → b.initState = .ready → b.hostWords = sendInstrWord y :: rest →
    ∃ t : Block c,
      Host.Core.run Sys2Proof.core (byteCycles c + c.cycles (postClassOf c y).delay + 1) ⟨c, b⟩ =
        .next ⟨c, t⟩ ∧
      t.mode = .idle ∧ t.Quiet ∧ t.hostWords = rest ∧
      t.edge = b.edge + (byteCycles c + c.cycles (postClassOf c y).delay) + 1 ∧
      t.commits = b.commits ++
        [⟨b.edge + (2 * c.nSetup + c.nEh), false, hi y⟩,
         ⟨b.edge + (byteCycles c - c.nEl), false, lo y⟩] ∧
      t.line .rs = false ∧ t.line .e = false ∧ t.nibbleOnLines = lo y ∧
      (∀ p, ¬ Owned c p → t.portBit p = b.portBit p) ∧ t.ddr = b.ddr ∧
      t.latchRs = false ∧ t.latchByte = y ∧ t.postClass = postClassOf c y ∧
      b.SameProgress t ∧ b.SameErrors t ∧
      (b.Aligned → keepsFourBit y = true → t.Aligned)

/-- Spec 41_protocol_driver R93, R99, 70_reset_and_hazards R156, R157: SEND_DATA(y) in a quiet outside, from
its acceptance to IDLE: its two commits with their edges, its post-delay, and what stays.  (The clause on
the controller is CA4 of R109 with log 11.) -/
def Obligations.SendDataRunsToItsEnd : Prop :=
  ∀ (c : Config) (b : Block c) (y : Byte) (rest : List CmdWord), c.WellFormed → b.Quiet →
    b.mode = .idle → b.initState = .ready → b.hostWords = sendDataWord y :: rest →
    ∃ t : Block c,
      Host.Core.run Sys2Proof.core (byteCycles c + c.nData + 1) ⟨c, b⟩ = .next ⟨c, t⟩ ∧
      t.mode = .idle ∧ t.Quiet ∧ t.hostWords = rest ∧
      t.edge = b.edge + (byteCycles c + c.nData) + 1 ∧
      t.commits = b.commits ++
        [⟨b.edge + (2 * c.nSetup + c.nEh), true, hi y⟩,
         ⟨b.edge + (byteCycles c - c.nEl), true, lo y⟩] ∧
      t.line .rs = true ∧ t.line .e = false ∧ t.nibbleOnLines = lo y ∧
      (∀ p, ¬ Owned c p → t.portBit p = b.portBit p) ∧ t.ddr = b.ddr ∧
      t.latchRs = true ∧ t.latchByte = y ∧ t.postClass = .data ∧
      b.SameProgress t ∧ b.SameErrors t ∧ (b.Aligned → t.Aligned)

/-- Spec 41_protocol_driver R91, R94 to R96, 70_reset_and_hazards R156, R157: INIT in a quiet outside, from
its acceptance to READY, T_INIT cycles later: exactly fourteen commits, all with RS = 0, with the edges
of the first and the last, and the state at the end.  (The clause on the controller is CA3 and CA4
of R109 with log 11: CA3 takes the script's function set by name, whatever byte OP_FUNCSET is, and the
four bytes after it must be closed-set bytes other than an 8-bit function set.) -/
def Obligations.InitRunsToReady : Prop :=
  ∀ (c : Config) (b : Block c) (w : CmdWord) (rest : List CmdWord), c.WellFormed → b.Quiet →
    b.mode = .idle → b.initState = .uninit → b.hostWords = w :: rest → w.toNat / 256 = 0 →
    ∃ (t : Block c) (new : List Commit),
      Host.Core.run Sys2Proof.core (initCycles c + 1) ⟨c, b⟩ = .next ⟨c, t⟩ ∧
      t.mode = .idle ∧ t.Quiet ∧ t.hostWords = rest ∧ t.initState = .ready ∧
      t.ctrlPhase = .operational ∧ t.edge = b.edge + initCycles c + 1 ∧
      t.commits = b.commits ++ new ∧
      new.map Commit.event =
        [(false, c.nibReset), (false, c.nibReset), (false, c.nibReset), (false, c.nib4Bit),
         (false, hi c.opFuncSet), (false, lo c.opFuncSet), (false, hi c.opDispOff),
         (false, lo c.opDispOff), (false, hi c.opClear), (false, lo c.opClear),
         (false, hi c.opEntry), (false, lo c.opEntry), (false, hi c.opDispOn),
         (false, lo c.opDispOn)] ∧
      new.head?.map (·.edge) = some (b.edge + (2 + c.nPowerOn + c.nSetup + c.nEh)) ∧
      new.getLast?.map (·.edge) = some (b.edge + (initCycles c - c.nDispOn - c.nEl)) ∧
      t.line .rs = false ∧ t.line .e = false ∧ t.nibbleOnLines = lo c.opDispOn ∧
      (∀ p, ¬ Owned c p → t.portBit p = false) ∧ t.ddr = b.ddr ||| ownMask c ∧
      b.SameLatches t ∧ b.SameErrors t ∧
      ([c.opDispOff, c.opClear, c.opEntry, c.opDispOn].all keepsFourBit = true → t.Aligned)

/-- Spec 41_protocol_driver R108, R110, 70_reset_and_hazards R153, R156: a host program of one INIT and any
SEND commands, in a quiet outside, runs to its end in the cycles R96 and R99 give, one idle edge after
each command; the bytes a controller decodes from its commits are the five of the script and then
those of the SEND commands, in order; the lines hold the last byte's RS and low nibble, with E low. -/
def Obligations.HostProgramIsDecodedInOrder : Prop :=
  ∀ (c : Config) (b : Block c) (sends : List (Bool × Byte)), c.WellFormed → b.Quiet →
    b.mode = .idle → b.initState = .uninit →
    b.hostWords =
      initWord :: sends.map (fun x => if x.1 then sendDataWord x.2 else sendInstrWord x.2) →
    ∃ (t : Block c) (new : List Commit),
      b.Completed
        (initCycles c + 1 +
          (sends.map fun x => sendCycles c (if x.1 then .data else postClassOf c x.2) + 1).sum) t ∧
      t.initState = .ready ∧ b.SameErrors t ∧ t.line .e = false ∧
      t.line .rs = (sends.getLast?.getD (false, c.opDispOn)).1 ∧
      t.nibbleOnLines = lo (sends.getLast?.getD (false, c.opDispOn)).2 ∧
      t.commits = b.commits ++ new ∧ new.length = 14 + 2 * sends.length ∧
      decodedBytes (new.map Commit.event) =
        [(false, c.opFuncSet), (false, c.opDispOff), (false, c.opClear), (false, c.opEntry),
         (false, c.opDispOn)] ++ sends

/-- Spec 42_host_pseudo R121, R123: one `TICK v` offered to a READY block at rest, in a quiet outside: the
cycles it keeps LCDNB busy, and its commits, two per byte of the stream: OP_HOME as an instruction, then the
decimal digits of `v / 1000` as data.  (Where OP_HOME and OP_CLEAR are the same byte, R100 gives the
clear delay instead.) -/
def Obligations.TickRunsToItsEnd : Prop :=
  ∀ (c : Config) (b : Block c) (v : Nat), c.WellFormed → c.opHome ≠ c.opClear → b.Quiet →
    b.mode = .idle → b.initState = .ready → b.line .e = false →
    programWords c [.tick v] = some b.hostWords →
    ∃ (t : Block c) (new : List Commit),
      b.Completed (tickCycles c (decimalDigits (v / 1000)).length) t ∧
      b.SameErrors t ∧ t.commits = b.commits ++ new ∧
      new.length = 2 * (1 + (decimalDigits (v / 1000)).length) ∧
      assembled (new.map Commit.event) =
        (false, c.opHome) :: (digitCodes (v / 1000)).map (fun d => (true, d))

/-! ### The host side -/

/-- Spec 42_host_pseudo R116, R118: the digits of v spell v in base 10, most significant first, without a
leading zero, and their number is within the bounds of R118. -/
def Obligations.DigitsSpellTheNumber : Prop :=
  ∀ v : Nat,
    (decimalDigits v).foldl (fun a d => 10 * a + d) 0 = v ∧
    (∀ d ∈ decimalDigits v, d ≤ 9) ∧ decimalDigits v ≠ [] ∧
    (v ≠ 0 → (decimalDigits v).head? ≠ some 0) ∧ (v = 0 → decimalDigits v = [0]) ∧
    (v < 2 ^ 16 → (decimalDigits v).length ≤ 5) ∧ (v < 2 ^ 32 → (decimalDigits v).length ≤ 10) ∧
    digitCodes v = (decimalDigits v).map (fun d => BitVec.ofNat 8 (0x30 + d))

/-- Spec 30_encoding R71, 42_host_pseudo R113 to R116, R121: what each host line expands to, the words of the
three assembler commands, and the refusal of a SETPOS operand outside 0..127. -/
def Obligations.HostLinesExpandToCommands : Prop :=
  ∀ (c : Config) (a v t : Nat) (s : List Byte) (y : Byte),
    (expandLine c .init = some [.init 0x00#8] ∧ programWords c [.init] = some [0x000#10]) ∧
    (expandLine c (.instr y) = some [.sendInstr y] ∧
      programWords c [.instr y] = some [0x100#10 ||| y.setWidth 10]) ∧
    (expandLine c (.data y) = some [.sendData y] ∧
      programWords c [.data y] = some [0x200#10 ||| y.setWidth 10]) ∧
    expandLine c .clear = some [.sendInstr c.opClear] ∧ expandLine c .home = some [.sendInstr c.opHome] ∧
    expandLine c .dispOn = some [.sendInstr c.opDispOn] ∧
    expandLine c .dispOff = some [.sendInstr c.opDispOff] ∧
    expandLine c .entry = some [.sendInstr c.opEntry] ∧
    (a ≤ 127 → expandLine c (.setPos a) = some [.sendInstr (BitVec.ofNat 8 (0x80 + a))]) ∧
    (127 < a → expandLine c (.setPos a) = none) ∧
    expandLine c (.print s) = some (s.map Instr.sendData) ∧
    (v < 2 ^ c.hostUintBits → expandLine c (.printNum v) = expandLine c (.print (digitCodes v))) ∧
    (t < 2 ^ c.hostUintBits →
      expandLine c (.tick t) = some (.sendInstr c.opHome :: (digitCodes (t / 1000)).map Instr.sendData))
end

