-- ==== Sys2Proof/Laws/State.lean ====
section
/-! SUPPORT. One lemma per field per update of the block, so that no later proof unfolds a record update. -/

namespace Sys2Proof.Machine.Block

variable {c : Config}

/-! ### portWrite, dirSet, othersWrite -/

@[simp] theorem portWrite_mode (b : Block c) (m v : BitVec c.portWidth) :
    (b.portWrite m v).mode = b.mode := rfl
@[simp] theorem portWrite_prog (b : Block c) (m v : BitVec c.portWidth) :
    (b.portWrite m v).prog = b.prog := rfl
@[simp] theorem portWrite_upc (b : Block c) (m v : BitVec c.portWidth) :
    (b.portWrite m v).upc = b.upc := rfl
@[simp] theorem portWrite_cnt (b : Block c) (m v : BitVec c.portWidth) :
    (b.portWrite m v).cnt = b.cnt := rfl
@[simp] theorem portWrite_latchRs (b : Block c) (m v : BitVec c.portWidth) :
    (b.portWrite m v).latchRs = b.latchRs := rfl
@[simp] theorem portWrite_latchByte (b : Block c) (m v : BitVec c.portWidth) :
    (b.portWrite m v).latchByte = b.latchByte := rfl
@[simp] theorem portWrite_postClass (b : Block c) (m v : BitVec c.portWidth) :
    (b.portWrite m v).postClass = b.postClass := rfl
@[simp] theorem portWrite_initState (b : Block c) (m v : BitVec c.portWidth) :
    (b.portWrite m v).initState = b.initState := rfl
@[simp] theorem portWrite_ctrlPhase (b : Block c) (m v : BitVec c.portWidth) :
    (b.portWrite m v).ctrlPhase = b.ctrlPhase := rfl
@[simp] theorem portWrite_err (b : Block c) (m v : BitVec c.portWidth) :
    (b.portWrite m v).err = b.err := rfl
@[simp] theorem portWrite_errCause (b : Block c) (m v : BitVec c.portWidth) :
    (b.portWrite m v).errCause = b.errCause := rfl
@[simp] theorem portWrite_ddr (b : Block c) (m v : BitVec c.portWidth) :
    (b.portWrite m v).ddr = b.ddr := rfl
@[simp] theorem portWrite_hostWords (b : Block c) (m v : BitVec c.portWidth) :
    (b.portWrite m v).hostWords = b.hostWords := rfl
@[simp] theorem portWrite_hostPauses (b : Block c) (m v : BitVec c.portWidth) :
    (b.portWrite m v).hostPauses = b.hostPauses := rfl
@[simp] theorem portWrite_edgeInputs (b : Block c) (m v : BitVec c.portWidth) :
    (b.portWrite m v).edgeInputs = b.edgeInputs := rfl
@[simp] theorem portWrite_edge (b : Block c) (m v : BitVec c.portWidth) :
    (b.portWrite m v).edge = b.edge := rfl
@[simp] theorem portWrite_commits (b : Block c) (m v : BitVec c.portWidth) :
    (b.portWrite m v).commits = b.commits := rfl
@[simp] theorem portWrite_controller (b : Block c) (m v : BitVec c.portWidth) :
    (b.portWrite m v).controller = b.controller := rfl
@[simp] theorem portWrite_draws (b : Block c) (m v : BitVec c.portWidth) :
    (b.portWrite m v).draws = b.draws := rfl
@[simp] theorem portWrite_port (b : Block c) (m v : BitVec c.portWidth) :
    (b.portWrite m v).port = (v &&& m) ||| (b.port &&& ~~~m) := rfl
@[simp] theorem dirSet_mode (b : Block c) (m : BitVec c.portWidth) :
    (b.dirSet m).mode = b.mode := rfl
@[simp] theorem dirSet_prog (b : Block c) (m : BitVec c.portWidth) :
    (b.dirSet m).prog = b.prog := rfl
@[simp] theorem dirSet_upc (b : Block c) (m : BitVec c.portWidth) :
    (b.dirSet m).upc = b.upc := rfl
@[simp] theorem dirSet_cnt (b : Block c) (m : BitVec c.portWidth) :
    (b.dirSet m).cnt = b.cnt := rfl
@[simp] theorem dirSet_latchRs (b : Block c) (m : BitVec c.portWidth) :
    (b.dirSet m).latchRs = b.latchRs := rfl
@[simp] theorem dirSet_latchByte (b : Block c) (m : BitVec c.portWidth) :
    (b.dirSet m).latchByte = b.latchByte := rfl
@[simp] theorem dirSet_postClass (b : Block c) (m : BitVec c.portWidth) :
    (b.dirSet m).postClass = b.postClass := rfl
@[simp] theorem dirSet_initState (b : Block c) (m : BitVec c.portWidth) :
    (b.dirSet m).initState = b.initState := rfl
@[simp] theorem dirSet_ctrlPhase (b : Block c) (m : BitVec c.portWidth) :
    (b.dirSet m).ctrlPhase = b.ctrlPhase := rfl
@[simp] theorem dirSet_err (b : Block c) (m : BitVec c.portWidth) :
    (b.dirSet m).err = b.err := rfl
@[simp] theorem dirSet_errCause (b : Block c) (m : BitVec c.portWidth) :
    (b.dirSet m).errCause = b.errCause := rfl
@[simp] theorem dirSet_port (b : Block c) (m : BitVec c.portWidth) :
    (b.dirSet m).port = b.port := rfl
@[simp] theorem dirSet_hostWords (b : Block c) (m : BitVec c.portWidth) :
    (b.dirSet m).hostWords = b.hostWords := rfl
@[simp] theorem dirSet_hostPauses (b : Block c) (m : BitVec c.portWidth) :
    (b.dirSet m).hostPauses = b.hostPauses := rfl
@[simp] theorem dirSet_edgeInputs (b : Block c) (m : BitVec c.portWidth) :
    (b.dirSet m).edgeInputs = b.edgeInputs := rfl
@[simp] theorem dirSet_edge (b : Block c) (m : BitVec c.portWidth) :
    (b.dirSet m).edge = b.edge := rfl
@[simp] theorem dirSet_commits (b : Block c) (m : BitVec c.portWidth) :
    (b.dirSet m).commits = b.commits := rfl
@[simp] theorem dirSet_controller (b : Block c) (m : BitVec c.portWidth) :
    (b.dirSet m).controller = b.controller := rfl
@[simp] theorem dirSet_draws (b : Block c) (m : BitVec c.portWidth) :
    (b.dirSet m).draws = b.draws := rfl
@[simp] theorem dirSet_ddr (b : Block c) (m : BitVec c.portWidth) :
    (b.dirSet m).ddr = b.ddr ||| m := rfl
@[simp] theorem othersWrite_mode (b : Block c) (o : OtherWrite c.portWidth) :
    (b.othersWrite o).mode = b.mode := rfl
@[simp] theorem othersWrite_prog (b : Block c) (o : OtherWrite c.portWidth) :
    (b.othersWrite o).prog = b.prog := rfl
@[simp] theorem othersWrite_upc (b : Block c) (o : OtherWrite c.portWidth) :
    (b.othersWrite o).upc = b.upc := rfl
@[simp] theorem othersWrite_cnt (b : Block c) (o : OtherWrite c.portWidth) :
    (b.othersWrite o).cnt = b.cnt := rfl
@[simp] theorem othersWrite_latchRs (b : Block c) (o : OtherWrite c.portWidth) :
    (b.othersWrite o).latchRs = b.latchRs := rfl
@[simp] theorem othersWrite_latchByte (b : Block c) (o : OtherWrite c.portWidth) :
    (b.othersWrite o).latchByte = b.latchByte := rfl
@[simp] theorem othersWrite_postClass (b : Block c) (o : OtherWrite c.portWidth) :
    (b.othersWrite o).postClass = b.postClass := rfl
@[simp] theorem othersWrite_initState (b : Block c) (o : OtherWrite c.portWidth) :
    (b.othersWrite o).initState = b.initState := rfl
@[simp] theorem othersWrite_ctrlPhase (b : Block c) (o : OtherWrite c.portWidth) :
    (b.othersWrite o).ctrlPhase = b.ctrlPhase := rfl
@[simp] theorem othersWrite_err (b : Block c) (o : OtherWrite c.portWidth) :
    (b.othersWrite o).err = b.err := rfl
@[simp] theorem othersWrite_errCause (b : Block c) (o : OtherWrite c.portWidth) :
    (b.othersWrite o).errCause = b.errCause := rfl
@[simp] theorem othersWrite_hostWords (b : Block c) (o : OtherWrite c.portWidth) :
    (b.othersWrite o).hostWords = b.hostWords := rfl
@[simp] theorem othersWrite_hostPauses (b : Block c) (o : OtherWrite c.portWidth) :
    (b.othersWrite o).hostPauses = b.hostPauses := rfl
@[simp] theorem othersWrite_edgeInputs (b : Block c) (o : OtherWrite c.portWidth) :
    (b.othersWrite o).edgeInputs = b.edgeInputs := rfl
@[simp] theorem othersWrite_edge (b : Block c) (o : OtherWrite c.portWidth) :
    (b.othersWrite o).edge = b.edge := rfl
@[simp] theorem othersWrite_commits (b : Block c) (o : OtherWrite c.portWidth) :
    (b.othersWrite o).commits = b.commits := rfl
@[simp] theorem othersWrite_controller (b : Block c) (o : OtherWrite c.portWidth) :
    (b.othersWrite o).controller = b.controller := rfl
@[simp] theorem othersWrite_draws (b : Block c) (o : OtherWrite c.portWidth) :
    (b.othersWrite o).draws = b.draws := rfl
@[simp] theorem othersWrite_port (b : Block c) (o : OtherWrite c.portWidth) :
    (b.othersWrite o).port = foreignWrite c b.port o.portMask o.portValue := rfl
@[simp] theorem othersWrite_ddr (b : Block c) (o : OtherWrite c.portWidth) :
    (b.othersWrite o).ddr = foreignWrite c b.ddr o.ddrMask o.ddrValue := rfl

/-! ### commit and the controller observer -/

@[simp] theorem commit_mode (b : Block c) (rs : Bool) (n : Nibble) :
    (b.commit rs n).mode = b.mode := rfl
@[simp] theorem commit_prog (b : Block c) (rs : Bool) (n : Nibble) :
    (b.commit rs n).prog = b.prog := rfl
@[simp] theorem commit_upc (b : Block c) (rs : Bool) (n : Nibble) :
    (b.commit rs n).upc = b.upc := rfl
@[simp] theorem commit_cnt (b : Block c) (rs : Bool) (n : Nibble) :
    (b.commit rs n).cnt = b.cnt := rfl
@[simp] theorem commit_latchRs (b : Block c) (rs : Bool) (n : Nibble) :
    (b.commit rs n).latchRs = b.latchRs := rfl
@[simp] theorem commit_latchByte (b : Block c) (rs : Bool) (n : Nibble) :
    (b.commit rs n).latchByte = b.latchByte := rfl
@[simp] theorem commit_postClass (b : Block c) (rs : Bool) (n : Nibble) :
    (b.commit rs n).postClass = b.postClass := rfl
@[simp] theorem commit_initState (b : Block c) (rs : Bool) (n : Nibble) :
    (b.commit rs n).initState = b.initState := rfl
@[simp] theorem commit_ctrlPhase (b : Block c) (rs : Bool) (n : Nibble) :
    (b.commit rs n).ctrlPhase = b.ctrlPhase := rfl
@[simp] theorem commit_err (b : Block c) (rs : Bool) (n : Nibble) :
    (b.commit rs n).err = b.err := rfl
@[simp] theorem commit_errCause (b : Block c) (rs : Bool) (n : Nibble) :
    (b.commit rs n).errCause = b.errCause := rfl
@[simp] theorem commit_port (b : Block c) (rs : Bool) (n : Nibble) :
    (b.commit rs n).port = b.port := rfl
@[simp] theorem commit_ddr (b : Block c) (rs : Bool) (n : Nibble) :
    (b.commit rs n).ddr = b.ddr := rfl
@[simp] theorem commit_hostWords (b : Block c) (rs : Bool) (n : Nibble) :
    (b.commit rs n).hostWords = b.hostWords := rfl
@[simp] theorem commit_hostPauses (b : Block c) (rs : Bool) (n : Nibble) :
    (b.commit rs n).hostPauses = b.hostPauses := rfl
@[simp] theorem commit_edgeInputs (b : Block c) (rs : Bool) (n : Nibble) :
    (b.commit rs n).edgeInputs = b.edgeInputs := rfl
@[simp] theorem commit_edge (b : Block c) (rs : Bool) (n : Nibble) :
    (b.commit rs n).edge = b.edge := rfl
@[simp] theorem commit_controller (b : Block c) (rs : Bool) (n : Nibble) :
    (b.commit rs n).controller = b.controller := rfl
@[simp] theorem commit_draws (b : Block c) (rs : Bool) (n : Nibble) :
    (b.commit rs n).draws = b.draws := rfl
@[simp] theorem commit_commits (b : Block c) (rs : Bool) (n : Nibble) :
    (b.commit rs n).commits = b.commits ++ [{ edge := b.edge, rs := rs, nibble := n }] := rfl
@[simp] theorem drawController_mode (b : Block c) : (b.drawController).mode = b.mode := rfl
@[simp] theorem drawController_prog (b : Block c) : (b.drawController).prog = b.prog := rfl
@[simp] theorem drawController_upc (b : Block c) : (b.drawController).upc = b.upc := rfl
@[simp] theorem drawController_cnt (b : Block c) : (b.drawController).cnt = b.cnt := rfl
@[simp] theorem drawController_latchRs (b : Block c) :
    (b.drawController).latchRs = b.latchRs := rfl
@[simp] theorem drawController_latchByte (b : Block c) :
    (b.drawController).latchByte = b.latchByte := rfl
@[simp] theorem drawController_postClass (b : Block c) :
    (b.drawController).postClass = b.postClass := rfl
@[simp] theorem drawController_initState (b : Block c) :
    (b.drawController).initState = b.initState := rfl
@[simp] theorem drawController_ctrlPhase (b : Block c) :
    (b.drawController).ctrlPhase = b.ctrlPhase := rfl
@[simp] theorem drawController_err (b : Block c) : (b.drawController).err = b.err := rfl
@[simp] theorem drawController_errCause (b : Block c) :
    (b.drawController).errCause = b.errCause := rfl
@[simp] theorem drawController_port (b : Block c) : (b.drawController).port = b.port := rfl
@[simp] theorem drawController_ddr (b : Block c) : (b.drawController).ddr = b.ddr := rfl
@[simp] theorem drawController_hostWords (b : Block c) :
    (b.drawController).hostWords = b.hostWords := rfl
@[simp] theorem drawController_hostPauses (b : Block c) :
    (b.drawController).hostPauses = b.hostPauses := rfl
@[simp] theorem drawController_edgeInputs (b : Block c) :
    (b.drawController).edgeInputs = b.edgeInputs := rfl
@[simp] theorem drawController_edge (b : Block c) : (b.drawController).edge = b.edge := rfl
@[simp] theorem drawController_commits (b : Block c) :
    (b.drawController).commits = b.commits := rfl
@[simp] theorem drawController_controller (b : Block c) :
    (b.drawController).controller = Config.controllerDraw b.draws := rfl
@[simp] theorem drawController_draws (b : Block c) : (b.drawController).draws = b.draws + 1 := rfl
@[simp] theorem fourBitCommit_mode (b : Block c) (rs : Bool) (n : Nibble) :
    (b.fourBitCommit rs n).mode = b.mode := by
  unfold Block.fourBitCommit; split_ifs <;> rfl
@[simp] theorem fourBitCommit_prog (b : Block c) (rs : Bool) (n : Nibble) :
    (b.fourBitCommit rs n).prog = b.prog := by
  unfold Block.fourBitCommit; split_ifs <;> rfl
@[simp] theorem fourBitCommit_upc (b : Block c) (rs : Bool) (n : Nibble) :
    (b.fourBitCommit rs n).upc = b.upc := by
  unfold Block.fourBitCommit; split_ifs <;> rfl
@[simp] theorem fourBitCommit_cnt (b : Block c) (rs : Bool) (n : Nibble) :
    (b.fourBitCommit rs n).cnt = b.cnt := by
  unfold Block.fourBitCommit; split_ifs <;> rfl
@[simp] theorem fourBitCommit_latchRs (b : Block c) (rs : Bool) (n : Nibble) :
    (b.fourBitCommit rs n).latchRs = b.latchRs := by
  unfold Block.fourBitCommit; split_ifs <;> rfl
@[simp] theorem fourBitCommit_latchByte (b : Block c) (rs : Bool) (n : Nibble) :
    (b.fourBitCommit rs n).latchByte = b.latchByte := by
  unfold Block.fourBitCommit; split_ifs <;> rfl
@[simp] theorem fourBitCommit_postClass (b : Block c) (rs : Bool) (n : Nibble) :
    (b.fourBitCommit rs n).postClass = b.postClass := by
  unfold Block.fourBitCommit; split_ifs <;> rfl
@[simp] theorem fourBitCommit_initState (b : Block c) (rs : Bool) (n : Nibble) :
    (b.fourBitCommit rs n).initState = b.initState := by
  unfold Block.fourBitCommit; split_ifs <;> rfl
@[simp] theorem fourBitCommit_ctrlPhase (b : Block c) (rs : Bool) (n : Nibble) :
    (b.fourBitCommit rs n).ctrlPhase = b.ctrlPhase := by
  unfold Block.fourBitCommit; split_ifs <;> rfl
@[simp] theorem fourBitCommit_err (b : Block c) (rs : Bool) (n : Nibble) :
    (b.fourBitCommit rs n).err = b.err := by
  unfold Block.fourBitCommit; split_ifs <;> rfl
@[simp] theorem fourBitCommit_errCause (b : Block c) (rs : Bool) (n : Nibble) :
    (b.fourBitCommit rs n).errCause = b.errCause := by
  unfold Block.fourBitCommit; split_ifs <;> rfl
@[simp] theorem fourBitCommit_port (b : Block c) (rs : Bool) (n : Nibble) :
    (b.fourBitCommit rs n).port = b.port := by
  unfold Block.fourBitCommit; split_ifs <;> rfl
@[simp] theorem fourBitCommit_ddr (b : Block c) (rs : Bool) (n : Nibble) :
    (b.fourBitCommit rs n).ddr = b.ddr := by
  unfold Block.fourBitCommit; split_ifs <;> rfl
@[simp] theorem fourBitCommit_hostWords (b : Block c) (rs : Bool) (n : Nibble) :
    (b.fourBitCommit rs n).hostWords = b.hostWords := by
  unfold Block.fourBitCommit; split_ifs <;> rfl
@[simp] theorem fourBitCommit_hostPauses (b : Block c) (rs : Bool) (n : Nibble) :
    (b.fourBitCommit rs n).hostPauses = b.hostPauses := by
  unfold Block.fourBitCommit; split_ifs <;> rfl
@[simp] theorem fourBitCommit_edgeInputs (b : Block c) (rs : Bool) (n : Nibble) :
    (b.fourBitCommit rs n).edgeInputs = b.edgeInputs := by
  unfold Block.fourBitCommit; split_ifs <;> rfl
@[simp] theorem fourBitCommit_edge (b : Block c) (rs : Bool) (n : Nibble) :
    (b.fourBitCommit rs n).edge = b.edge := by
  unfold Block.fourBitCommit; split_ifs <;> rfl
@[simp] theorem fourBitCommit_commits (b : Block c) (rs : Bool) (n : Nibble) :
    (b.fourBitCommit rs n).commits = b.commits := by
  unfold Block.fourBitCommit; split_ifs <;> rfl
@[simp] theorem observe_mode (b : Block c) (p : Program) (i : Nat) (rs : Bool) (n : Nibble) :
    (b.observe p i rs n).mode = b.mode := by
  unfold Block.observe; split_ifs <;> first | rfl | (split <;> simp)
@[simp] theorem observe_prog (b : Block c) (p : Program) (i : Nat) (rs : Bool) (n : Nibble) :
    (b.observe p i rs n).prog = b.prog := by
  unfold Block.observe; split_ifs <;> first | rfl | (split <;> simp)
@[simp] theorem observe_upc (b : Block c) (p : Program) (i : Nat) (rs : Bool) (n : Nibble) :
    (b.observe p i rs n).upc = b.upc := by
  unfold Block.observe; split_ifs <;> first | rfl | (split <;> simp)
@[simp] theorem observe_cnt (b : Block c) (p : Program) (i : Nat) (rs : Bool) (n : Nibble) :
    (b.observe p i rs n).cnt = b.cnt := by
  unfold Block.observe; split_ifs <;> first | rfl | (split <;> simp)
@[simp] theorem observe_latchRs (b : Block c) (p : Program) (i : Nat) (rs : Bool) (n : Nibble) :
    (b.observe p i rs n).latchRs = b.latchRs := by
  unfold Block.observe; split_ifs <;> first | rfl | (split <;> simp)
@[simp] theorem observe_latchByte (b : Block c) (p : Program) (i : Nat) (rs : Bool) (n : Nibble) :
    (b.observe p i rs n).latchByte = b.latchByte := by
  unfold Block.observe; split_ifs <;> first | rfl | (split <;> simp)
@[simp] theorem observe_postClass (b : Block c) (p : Program) (i : Nat) (rs : Bool) (n : Nibble) :
    (b.observe p i rs n).postClass = b.postClass := by
  unfold Block.observe; split_ifs <;> first | rfl | (split <;> simp)
@[simp] theorem observe_initState (b : Block c) (p : Program) (i : Nat) (rs : Bool) (n : Nibble) :
    (b.observe p i rs n).initState = b.initState := by
  unfold Block.observe; split_ifs <;> first | rfl | (split <;> simp)
@[simp] theorem observe_ctrlPhase (b : Block c) (p : Program) (i : Nat) (rs : Bool) (n : Nibble) :
    (b.observe p i rs n).ctrlPhase = b.ctrlPhase := by
  unfold Block.observe; split_ifs <;> first | rfl | (split <;> simp)
@[simp] theorem observe_err (b : Block c) (p : Program) (i : Nat) (rs : Bool) (n : Nibble) :
    (b.observe p i rs n).err = b.err := by
  unfold Block.observe; split_ifs <;> first | rfl | (split <;> simp)
@[simp] theorem observe_errCause (b : Block c) (p : Program) (i : Nat) (rs : Bool) (n : Nibble) :
    (b.observe p i rs n).errCause = b.errCause := by
  unfold Block.observe; split_ifs <;> first | rfl | (split <;> simp)
@[simp] theorem observe_port (b : Block c) (p : Program) (i : Nat) (rs : Bool) (n : Nibble) :
    (b.observe p i rs n).port = b.port := by
  unfold Block.observe; split_ifs <;> first | rfl | (split <;> simp)
@[simp] theorem observe_ddr (b : Block c) (p : Program) (i : Nat) (rs : Bool) (n : Nibble) :
    (b.observe p i rs n).ddr = b.ddr := by
  unfold Block.observe; split_ifs <;> first | rfl | (split <;> simp)
@[simp] theorem observe_hostWords (b : Block c) (p : Program) (i : Nat) (rs : Bool) (n : Nibble) :
    (b.observe p i rs n).hostWords = b.hostWords := by
  unfold Block.observe; split_ifs <;> first | rfl | (split <;> simp)
@[simp] theorem observe_hostPauses (b : Block c) (p : Program) (i : Nat) (rs : Bool) (n : Nibble) :
    (b.observe p i rs n).hostPauses = b.hostPauses := by
  unfold Block.observe; split_ifs <;> first | rfl | (split <;> simp)
@[simp] theorem observe_edgeInputs (b : Block c) (p : Program) (i : Nat) (rs : Bool) (n : Nibble) :
    (b.observe p i rs n).edgeInputs = b.edgeInputs := by
  unfold Block.observe; split_ifs <;> first | rfl | (split <;> simp)
@[simp] theorem observe_edge (b : Block c) (p : Program) (i : Nat) (rs : Bool) (n : Nibble) :
    (b.observe p i rs n).edge = b.edge := by
  unfold Block.observe; split_ifs <;> first | rfl | (split <;> simp)
@[simp] theorem observe_commits (b : Block c) (p : Program) (i : Nat) (rs : Bool) (n : Nibble) :
    (b.observe p i rs n).commits = b.commits := by
  unfold Block.observe; split_ifs <;> first | rfl | (split <;> simp)
@[simp] theorem sense_mode (b : Block c) (p : Program) (i : Nat) (u : MicroOp) :
    (b.sense p i u).mode = b.mode := by
  cases u <;> simp [Block.sense]
@[simp] theorem sense_prog (b : Block c) (p : Program) (i : Nat) (u : MicroOp) :
    (b.sense p i u).prog = b.prog := by
  cases u <;> simp [Block.sense]
@[simp] theorem sense_upc (b : Block c) (p : Program) (i : Nat) (u : MicroOp) :
    (b.sense p i u).upc = b.upc := by
  cases u <;> simp [Block.sense]
@[simp] theorem sense_cnt (b : Block c) (p : Program) (i : Nat) (u : MicroOp) :
    (b.sense p i u).cnt = b.cnt := by
  cases u <;> simp [Block.sense]
@[simp] theorem sense_latchRs (b : Block c) (p : Program) (i : Nat) (u : MicroOp) :
    (b.sense p i u).latchRs = b.latchRs := by
  cases u <;> simp [Block.sense]
@[simp] theorem sense_latchByte (b : Block c) (p : Program) (i : Nat) (u : MicroOp) :
    (b.sense p i u).latchByte = b.latchByte := by
  cases u <;> simp [Block.sense]
@[simp] theorem sense_postClass (b : Block c) (p : Program) (i : Nat) (u : MicroOp) :
    (b.sense p i u).postClass = b.postClass := by
  cases u <;> simp [Block.sense]
@[simp] theorem sense_initState (b : Block c) (p : Program) (i : Nat) (u : MicroOp) :
    (b.sense p i u).initState = b.initState := by
  cases u <;> simp [Block.sense]
@[simp] theorem sense_ctrlPhase (b : Block c) (p : Program) (i : Nat) (u : MicroOp) :
    (b.sense p i u).ctrlPhase = b.ctrlPhase := by
  cases u <;> simp [Block.sense]
@[simp] theorem sense_err (b : Block c) (p : Program) (i : Nat) (u : MicroOp) :
    (b.sense p i u).err = b.err := by
  cases u <;> simp [Block.sense]
@[simp] theorem sense_errCause (b : Block c) (p : Program) (i : Nat) (u : MicroOp) :
    (b.sense p i u).errCause = b.errCause := by
  cases u <;> simp [Block.sense]
@[simp] theorem sense_port (b : Block c) (p : Program) (i : Nat) (u : MicroOp) :
    (b.sense p i u).port = b.port := by
  cases u <;> simp [Block.sense]
@[simp] theorem sense_ddr (b : Block c) (p : Program) (i : Nat) (u : MicroOp) :
    (b.sense p i u).ddr = b.ddr := by
  cases u <;> simp [Block.sense]
@[simp] theorem sense_hostWords (b : Block c) (p : Program) (i : Nat) (u : MicroOp) :
    (b.sense p i u).hostWords = b.hostWords := by
  cases u <;> simp [Block.sense]
@[simp] theorem sense_hostPauses (b : Block c) (p : Program) (i : Nat) (u : MicroOp) :
    (b.sense p i u).hostPauses = b.hostPauses := by
  cases u <;> simp [Block.sense]
@[simp] theorem sense_edgeInputs (b : Block c) (p : Program) (i : Nat) (u : MicroOp) :
    (b.sense p i u).edgeInputs = b.edgeInputs := by
  cases u <;> simp [Block.sense]
@[simp] theorem sense_edge (b : Block c) (p : Program) (i : Nat) (u : MicroOp) :
    (b.sense p i u).edge = b.edge := by
  cases u <;> simp [Block.sense]
@[simp] theorem sense_commits (b : Block c) (p : Program) (i : Nat) (u : MicroOp) :
    (b.sense p i u).commits = b.commits := by
  cases u <;> simp [Block.sense]

/-! ### errors and reset -/

@[simp] theorem raiseError_mode (b : Block c) (e : ErrCause) :
    (b.raiseError e).mode = b.mode := by
  unfold Block.raiseError; split <;> rfl
@[simp] theorem raiseError_prog (b : Block c) (e : ErrCause) :
    (b.raiseError e).prog = b.prog := by
  unfold Block.raiseError; split <;> rfl
@[simp] theorem raiseError_upc (b : Block c) (e : ErrCause) :
    (b.raiseError e).upc = b.upc := by
  unfold Block.raiseError; split <;> rfl
@[simp] theorem raiseError_cnt (b : Block c) (e : ErrCause) :
    (b.raiseError e).cnt = b.cnt := by
  unfold Block.raiseError; split <;> rfl
@[simp] theorem raiseError_latchRs (b : Block c) (e : ErrCause) :
    (b.raiseError e).latchRs = b.latchRs := by
  unfold Block.raiseError; split <;> rfl
@[simp] theorem raiseError_latchByte (b : Block c) (e : ErrCause) :
    (b.raiseError e).latchByte = b.latchByte := by
  unfold Block.raiseError; split <;> rfl
@[simp] theorem raiseError_postClass (b : Block c) (e : ErrCause) :
    (b.raiseError e).postClass = b.postClass := by
  unfold Block.raiseError; split <;> rfl
@[simp] theorem raiseError_initState (b : Block c) (e : ErrCause) :
    (b.raiseError e).initState = b.initState := by
  unfold Block.raiseError; split <;> rfl
@[simp] theorem raiseError_ctrlPhase (b : Block c) (e : ErrCause) :
    (b.raiseError e).ctrlPhase = b.ctrlPhase := by
  unfold Block.raiseError; split <;> rfl
@[simp] theorem raiseError_port (b : Block c) (e : ErrCause) :
    (b.raiseError e).port = b.port := by
  unfold Block.raiseError; split <;> rfl
@[simp] theorem raiseError_ddr (b : Block c) (e : ErrCause) :
    (b.raiseError e).ddr = b.ddr := by
  unfold Block.raiseError; split <;> rfl
@[simp] theorem raiseError_hostWords (b : Block c) (e : ErrCause) :
    (b.raiseError e).hostWords = b.hostWords := by
  unfold Block.raiseError; split <;> rfl
@[simp] theorem raiseError_hostPauses (b : Block c) (e : ErrCause) :
    (b.raiseError e).hostPauses = b.hostPauses := by
  unfold Block.raiseError; split <;> rfl
@[simp] theorem raiseError_edgeInputs (b : Block c) (e : ErrCause) :
    (b.raiseError e).edgeInputs = b.edgeInputs := by
  unfold Block.raiseError; split <;> rfl
@[simp] theorem raiseError_edge (b : Block c) (e : ErrCause) :
    (b.raiseError e).edge = b.edge := by
  unfold Block.raiseError; split <;> rfl
@[simp] theorem raiseError_commits (b : Block c) (e : ErrCause) :
    (b.raiseError e).commits = b.commits := by
  unfold Block.raiseError; split <;> rfl
@[simp] theorem raiseError_controller (b : Block c) (e : ErrCause) :
    (b.raiseError e).controller = b.controller := by
  unfold Block.raiseError; split <;> rfl
@[simp] theorem raiseError_draws (b : Block c) (e : ErrCause) :
    (b.raiseError e).draws = b.draws := by
  unfold Block.raiseError; split <;> rfl
@[simp] theorem raiseError_err (b : Block c) (e : ErrCause) : (b.raiseError e).err = true := by
  unfold Block.raiseError; split <;> simp_all
@[simp] theorem raiseError_errCause (b : Block c) (e : ErrCause) :
    (b.raiseError e).errCause = if b.err then b.errCause else e := by
  unfold Block.raiseError; split <;> simp_all
@[simp] theorem clear_hostWords (b : Block c) : (b.clear).hostWords = b.hostWords := rfl
@[simp] theorem clear_hostPauses (b : Block c) : (b.clear).hostPauses = b.hostPauses := rfl
@[simp] theorem clear_edgeInputs (b : Block c) : (b.clear).edgeInputs = b.edgeInputs := rfl
@[simp] theorem clear_edge (b : Block c) : (b.clear).edge = b.edge := rfl
@[simp] theorem clear_commits (b : Block c) : (b.clear).commits = b.commits := rfl
@[simp] theorem clear_controller (b : Block c) : (b.clear).controller = b.controller := rfl
@[simp] theorem clear_draws (b : Block c) : (b.clear).draws = b.draws := rfl
@[simp] theorem clear_mode (b : Block c) : (b.clear).mode = .idle := rfl
@[simp] theorem resetEdge_mode (b : Block c) : b.resetEdge.mode = .idle := by
  unfold Block.resetEdge; split <;> rfl
@[simp] theorem clear_prog (b : Block c) : (b.clear).prog = .init := rfl
@[simp] theorem resetEdge_prog (b : Block c) : b.resetEdge.prog = .init := by
  unfold Block.resetEdge; split <;> rfl
@[simp] theorem clear_upc (b : Block c) : (b.clear).upc = 0#6 := rfl
@[simp] theorem resetEdge_upc (b : Block c) : b.resetEdge.upc = 0#6 := by
  unfold Block.resetEdge; split <;> rfl
@[simp] theorem clear_cnt (b : Block c) : (b.clear).cnt = 0#c.cntWidth := rfl
@[simp] theorem resetEdge_cnt (b : Block c) : b.resetEdge.cnt = 0#c.cntWidth := by
  unfold Block.resetEdge; split <;> rfl
@[simp] theorem clear_latchRs (b : Block c) : (b.clear).latchRs = false := rfl
@[simp] theorem resetEdge_latchRs (b : Block c) : b.resetEdge.latchRs = false := by
  unfold Block.resetEdge; split <;> rfl
@[simp] theorem clear_latchByte (b : Block c) : (b.clear).latchByte = 0#8 := rfl
@[simp] theorem resetEdge_latchByte (b : Block c) : b.resetEdge.latchByte = 0#8 := by
  unfold Block.resetEdge; split <;> rfl
@[simp] theorem clear_postClass (b : Block c) : (b.clear).postClass = .data := rfl
@[simp] theorem resetEdge_postClass (b : Block c) : b.resetEdge.postClass = .data := by
  unfold Block.resetEdge; split <;> rfl
@[simp] theorem clear_initState (b : Block c) : (b.clear).initState = .uninit := rfl
@[simp] theorem resetEdge_initState (b : Block c) : b.resetEdge.initState = .uninit := by
  unfold Block.resetEdge; split <;> rfl
@[simp] theorem clear_ctrlPhase (b : Block c) : (b.clear).ctrlPhase = .uninitialized := rfl
@[simp] theorem resetEdge_ctrlPhase (b : Block c) : b.resetEdge.ctrlPhase = .uninitialized := by
  unfold Block.resetEdge; split <;> rfl
@[simp] theorem clear_err (b : Block c) : (b.clear).err = false := rfl
@[simp] theorem resetEdge_err (b : Block c) : b.resetEdge.err = false := by
  unfold Block.resetEdge; split <;> rfl
@[simp] theorem clear_errCause (b : Block c) : (b.clear).errCause = .none := rfl
@[simp] theorem resetEdge_errCause (b : Block c) : b.resetEdge.errCause = .none := by
  unfold Block.resetEdge; split <;> rfl
@[simp] theorem clear_port (b : Block c) : (b.clear).port = 0#c.portWidth := rfl
@[simp] theorem resetEdge_port (b : Block c) : b.resetEdge.port = 0#c.portWidth := by
  unfold Block.resetEdge; split <;> rfl
@[simp] theorem clear_ddr (b : Block c) : (b.clear).ddr = 0#c.portWidth := rfl
@[simp] theorem resetEdge_ddr (b : Block c) : b.resetEdge.ddr = 0#c.portWidth := by
  unfold Block.resetEdge; split <;> rfl
@[simp] theorem resetEdge_hostWords (b : Block c) :
    (b.resetEdge).hostWords = b.hostWords := by
  unfold Block.resetEdge; split <;> rfl
@[simp] theorem resetEdge_hostPauses (b : Block c) :
    (b.resetEdge).hostPauses = b.hostPauses := by
  unfold Block.resetEdge; split <;> rfl
@[simp] theorem resetEdge_edgeInputs (b : Block c) :
    (b.resetEdge).edgeInputs = b.edgeInputs := by
  unfold Block.resetEdge; split <;> rfl
@[simp] theorem resetEdge_edge (b : Block c) :
    (b.resetEdge).edge = b.edge := by
  unfold Block.resetEdge; split <;> rfl
@[simp] theorem resetEdge_commits (b : Block c) :
    (b.resetEdge).commits = b.commits := by
  unfold Block.resetEdge; split <;> rfl

/-! ### operands, sequencer registers, CTRL_PHASE -/

@[simp] theorem latch_mode (b : Block c) (rs : Bool) (byte : Byte) (cls : PostClass) :
    (b.latch rs byte cls).mode = b.mode := rfl
@[simp] theorem latch_prog (b : Block c) (rs : Bool) (byte : Byte) (cls : PostClass) :
    (b.latch rs byte cls).prog = b.prog := rfl
@[simp] theorem latch_upc (b : Block c) (rs : Bool) (byte : Byte) (cls : PostClass) :
    (b.latch rs byte cls).upc = b.upc := rfl
@[simp] theorem latch_cnt (b : Block c) (rs : Bool) (byte : Byte) (cls : PostClass) :
    (b.latch rs byte cls).cnt = b.cnt := rfl
@[simp] theorem latch_initState (b : Block c) (rs : Bool) (byte : Byte) (cls : PostClass) :
    (b.latch rs byte cls).initState = b.initState := rfl
@[simp] theorem latch_ctrlPhase (b : Block c) (rs : Bool) (byte : Byte) (cls : PostClass) :
    (b.latch rs byte cls).ctrlPhase = b.ctrlPhase := rfl
@[simp] theorem latch_err (b : Block c) (rs : Bool) (byte : Byte) (cls : PostClass) :
    (b.latch rs byte cls).err = b.err := rfl
@[simp] theorem latch_errCause (b : Block c) (rs : Bool) (byte : Byte) (cls : PostClass) :
    (b.latch rs byte cls).errCause = b.errCause := rfl
@[simp] theorem latch_port (b : Block c) (rs : Bool) (byte : Byte) (cls : PostClass) :
    (b.latch rs byte cls).port = b.port := rfl
@[simp] theorem latch_ddr (b : Block c) (rs : Bool) (byte : Byte) (cls : PostClass) :
    (b.latch rs byte cls).ddr = b.ddr := rfl
@[simp] theorem latch_hostWords (b : Block c) (rs : Bool) (byte : Byte) (cls : PostClass) :
    (b.latch rs byte cls).hostWords = b.hostWords := rfl
@[simp] theorem latch_hostPauses (b : Block c) (rs : Bool) (byte : Byte) (cls : PostClass) :
    (b.latch rs byte cls).hostPauses = b.hostPauses := rfl
@[simp] theorem latch_edgeInputs (b : Block c) (rs : Bool) (byte : Byte) (cls : PostClass) :
    (b.latch rs byte cls).edgeInputs = b.edgeInputs := rfl
@[simp] theorem latch_edge (b : Block c) (rs : Bool) (byte : Byte) (cls : PostClass) :
    (b.latch rs byte cls).edge = b.edge := rfl
@[simp] theorem latch_commits (b : Block c) (rs : Bool) (byte : Byte) (cls : PostClass) :
    (b.latch rs byte cls).commits = b.commits := rfl
@[simp] theorem latch_controller (b : Block c) (rs : Bool) (byte : Byte) (cls : PostClass) :
    (b.latch rs byte cls).controller = b.controller := rfl
@[simp] theorem latch_draws (b : Block c) (rs : Bool) (byte : Byte) (cls : PostClass) :
    (b.latch rs byte cls).draws = b.draws := rfl
@[simp] theorem latch_latchRs (b : Block c) (rs : Bool) (byte : Byte) (cls : PostClass) :
    (b.latch rs byte cls).latchRs = rs := rfl
@[simp] theorem latch_latchByte (b : Block c) (rs : Bool) (byte : Byte) (cls : PostClass) :
    (b.latch rs byte cls).latchByte = byte := rfl
@[simp] theorem latch_postClass (b : Block c) (rs : Bool) (byte : Byte) (cls : PostClass) :
    (b.latch rs byte cls).postClass = cls := rfl
@[simp] theorem enterInit_mode (b : Block c) : (b.enterInit).mode = b.mode := rfl
@[simp] theorem enterInit_prog (b : Block c) : (b.enterInit).prog = b.prog := rfl
@[simp] theorem enterInit_upc (b : Block c) : (b.enterInit).upc = b.upc := rfl
@[simp] theorem enterInit_cnt (b : Block c) : (b.enterInit).cnt = b.cnt := rfl
@[simp] theorem enterInit_latchRs (b : Block c) : (b.enterInit).latchRs = b.latchRs := rfl
@[simp] theorem enterInit_latchByte (b : Block c) : (b.enterInit).latchByte = b.latchByte := rfl
@[simp] theorem enterInit_postClass (b : Block c) : (b.enterInit).postClass = b.postClass := rfl
@[simp] theorem enterInit_ctrlPhase (b : Block c) : (b.enterInit).ctrlPhase = b.ctrlPhase := rfl
@[simp] theorem enterInit_err (b : Block c) : (b.enterInit).err = b.err := rfl
@[simp] theorem enterInit_errCause (b : Block c) : (b.enterInit).errCause = b.errCause := rfl
@[simp] theorem enterInit_port (b : Block c) : (b.enterInit).port = b.port := rfl
@[simp] theorem enterInit_ddr (b : Block c) : (b.enterInit).ddr = b.ddr := rfl
@[simp] theorem enterInit_hostWords (b : Block c) : (b.enterInit).hostWords = b.hostWords := rfl
@[simp] theorem enterInit_hostPauses (b : Block c) :
    (b.enterInit).hostPauses = b.hostPauses := rfl
@[simp] theorem enterInit_edgeInputs (b : Block c) :
    (b.enterInit).edgeInputs = b.edgeInputs := rfl
@[simp] theorem enterInit_edge (b : Block c) : (b.enterInit).edge = b.edge := rfl
@[simp] theorem enterInit_commits (b : Block c) : (b.enterInit).commits = b.commits := rfl
@[simp] theorem enterInit_controller (b : Block c) :
    (b.enterInit).controller = b.controller := rfl
@[simp] theorem enterInit_draws (b : Block c) : (b.enterInit).draws = b.draws := rfl
@[simp] theorem enterInit_initState (b : Block c) : (b.enterInit).initState = .initializing := rfl
@[simp] theorem occupy_latchRs (b : Block c) (p : Program) (i n : Nat) :
    (b.occupy p i n).latchRs = b.latchRs := rfl
@[simp] theorem occupy_latchByte (b : Block c) (p : Program) (i n : Nat) :
    (b.occupy p i n).latchByte = b.latchByte := rfl
@[simp] theorem occupy_postClass (b : Block c) (p : Program) (i n : Nat) :
    (b.occupy p i n).postClass = b.postClass := rfl
@[simp] theorem occupy_initState (b : Block c) (p : Program) (i n : Nat) :
    (b.occupy p i n).initState = b.initState := rfl
@[simp] theorem occupy_ctrlPhase (b : Block c) (p : Program) (i n : Nat) :
    (b.occupy p i n).ctrlPhase = b.ctrlPhase := rfl
@[simp] theorem occupy_err (b : Block c) (p : Program) (i n : Nat) :
    (b.occupy p i n).err = b.err := rfl
@[simp] theorem occupy_errCause (b : Block c) (p : Program) (i n : Nat) :
    (b.occupy p i n).errCause = b.errCause := rfl
@[simp] theorem occupy_port (b : Block c) (p : Program) (i n : Nat) :
    (b.occupy p i n).port = b.port := rfl
@[simp] theorem occupy_ddr (b : Block c) (p : Program) (i n : Nat) :
    (b.occupy p i n).ddr = b.ddr := rfl
@[simp] theorem occupy_hostWords (b : Block c) (p : Program) (i n : Nat) :
    (b.occupy p i n).hostWords = b.hostWords := rfl
@[simp] theorem occupy_hostPauses (b : Block c) (p : Program) (i n : Nat) :
    (b.occupy p i n).hostPauses = b.hostPauses := rfl
@[simp] theorem occupy_edgeInputs (b : Block c) (p : Program) (i n : Nat) :
    (b.occupy p i n).edgeInputs = b.edgeInputs := rfl
@[simp] theorem occupy_edge (b : Block c) (p : Program) (i n : Nat) :
    (b.occupy p i n).edge = b.edge := rfl
@[simp] theorem occupy_commits (b : Block c) (p : Program) (i n : Nat) :
    (b.occupy p i n).commits = b.commits := rfl
@[simp] theorem occupy_controller (b : Block c) (p : Program) (i n : Nat) :
    (b.occupy p i n).controller = b.controller := rfl
@[simp] theorem occupy_draws (b : Block c) (p : Program) (i n : Nat) :
    (b.occupy p i n).draws = b.draws := rfl
@[simp] theorem occupy_mode (b : Block c) (p : Program) (i n : Nat) :
    (b.occupy p i n).mode = .run := rfl
@[simp] theorem occupy_prog (b : Block c) (p : Program) (i n : Nat) :
    (b.occupy p i n).prog = p := rfl
@[simp] theorem occupy_upc (b : Block c) (p : Program) (i n : Nat) :
    (b.occupy p i n).upc = BitVec.ofNat 6 i := rfl
@[simp] theorem occupy_cnt (b : Block c) (p : Program) (i n : Nat) :
    (b.occupy p i n).cnt = BitVec.ofNat c.cntWidth n := rfl
@[simp] theorem markPhase_mode (b : Block c) (p : Program) (i : Nat) :
    (b.markPhase p i).mode = b.mode := by
  unfold Block.markPhase; split_ifs <;> rfl
@[simp] theorem markPhase_prog (b : Block c) (p : Program) (i : Nat) :
    (b.markPhase p i).prog = b.prog := by
  unfold Block.markPhase; split_ifs <;> rfl
@[simp] theorem markPhase_upc (b : Block c) (p : Program) (i : Nat) :
    (b.markPhase p i).upc = b.upc := by
  unfold Block.markPhase; split_ifs <;> rfl
@[simp] theorem markPhase_cnt (b : Block c) (p : Program) (i : Nat) :
    (b.markPhase p i).cnt = b.cnt := by
  unfold Block.markPhase; split_ifs <;> rfl
@[simp] theorem markPhase_latchRs (b : Block c) (p : Program) (i : Nat) :
    (b.markPhase p i).latchRs = b.latchRs := by
  unfold Block.markPhase; split_ifs <;> rfl
@[simp] theorem markPhase_latchByte (b : Block c) (p : Program) (i : Nat) :
    (b.markPhase p i).latchByte = b.latchByte := by
  unfold Block.markPhase; split_ifs <;> rfl
@[simp] theorem markPhase_postClass (b : Block c) (p : Program) (i : Nat) :
    (b.markPhase p i).postClass = b.postClass := by
  unfold Block.markPhase; split_ifs <;> rfl
@[simp] theorem markPhase_initState (b : Block c) (p : Program) (i : Nat) :
    (b.markPhase p i).initState = b.initState := by
  unfold Block.markPhase; split_ifs <;> rfl
@[simp] theorem markPhase_err (b : Block c) (p : Program) (i : Nat) :
    (b.markPhase p i).err = b.err := by
  unfold Block.markPhase; split_ifs <;> rfl
@[simp] theorem markPhase_errCause (b : Block c) (p : Program) (i : Nat) :
    (b.markPhase p i).errCause = b.errCause := by
  unfold Block.markPhase; split_ifs <;> rfl
@[simp] theorem markPhase_port (b : Block c) (p : Program) (i : Nat) :
    (b.markPhase p i).port = b.port := by
  unfold Block.markPhase; split_ifs <;> rfl
@[simp] theorem markPhase_ddr (b : Block c) (p : Program) (i : Nat) :
    (b.markPhase p i).ddr = b.ddr := by
  unfold Block.markPhase; split_ifs <;> rfl
@[simp] theorem markPhase_hostWords (b : Block c) (p : Program) (i : Nat) :
    (b.markPhase p i).hostWords = b.hostWords := by
  unfold Block.markPhase; split_ifs <;> rfl
@[simp] theorem markPhase_hostPauses (b : Block c) (p : Program) (i : Nat) :
    (b.markPhase p i).hostPauses = b.hostPauses := by
  unfold Block.markPhase; split_ifs <;> rfl
@[simp] theorem markPhase_edgeInputs (b : Block c) (p : Program) (i : Nat) :
    (b.markPhase p i).edgeInputs = b.edgeInputs := by
  unfold Block.markPhase; split_ifs <;> rfl
@[simp] theorem markPhase_edge (b : Block c) (p : Program) (i : Nat) :
    (b.markPhase p i).edge = b.edge := by
  unfold Block.markPhase; split_ifs <;> rfl
@[simp] theorem markPhase_commits (b : Block c) (p : Program) (i : Nat) :
    (b.markPhase p i).commits = b.commits := by
  unfold Block.markPhase; split_ifs <;> rfl
@[simp] theorem markPhase_controller (b : Block c) (p : Program) (i : Nat) :
    (b.markPhase p i).controller = b.controller := by
  unfold Block.markPhase; split_ifs <;> rfl
@[simp] theorem markPhase_draws (b : Block c) (p : Program) (i : Nat) :
    (b.markPhase p i).draws = b.draws := by
  unfold Block.markPhase; split_ifs <;> rfl
@[simp] theorem countDown_mode (b : Block c) : (b.countDown).mode = b.mode := rfl
@[simp] theorem countDown_prog (b : Block c) : (b.countDown).prog = b.prog := rfl
@[simp] theorem countDown_upc (b : Block c) : (b.countDown).upc = b.upc := rfl
@[simp] theorem countDown_latchRs (b : Block c) : (b.countDown).latchRs = b.latchRs := rfl
@[simp] theorem countDown_latchByte (b : Block c) : (b.countDown).latchByte = b.latchByte := rfl
@[simp] theorem countDown_postClass (b : Block c) : (b.countDown).postClass = b.postClass := rfl
@[simp] theorem countDown_initState (b : Block c) : (b.countDown).initState = b.initState := rfl
@[simp] theorem countDown_ctrlPhase (b : Block c) : (b.countDown).ctrlPhase = b.ctrlPhase := rfl
@[simp] theorem countDown_err (b : Block c) : (b.countDown).err = b.err := rfl
@[simp] theorem countDown_errCause (b : Block c) : (b.countDown).errCause = b.errCause := rfl
@[simp] theorem countDown_port (b : Block c) : (b.countDown).port = b.port := rfl
@[simp] theorem countDown_ddr (b : Block c) : (b.countDown).ddr = b.ddr := rfl
@[simp] theorem countDown_hostWords (b : Block c) : (b.countDown).hostWords = b.hostWords := rfl
@[simp] theorem countDown_hostPauses (b : Block c) :
    (b.countDown).hostPauses = b.hostPauses := rfl
@[simp] theorem countDown_edgeInputs (b : Block c) :
    (b.countDown).edgeInputs = b.edgeInputs := rfl
@[simp] theorem countDown_edge (b : Block c) : (b.countDown).edge = b.edge := rfl
@[simp] theorem countDown_commits (b : Block c) : (b.countDown).commits = b.commits := rfl
@[simp] theorem countDown_controller (b : Block c) :
    (b.countDown).controller = b.controller := rfl
@[simp] theorem countDown_draws (b : Block c) : (b.countDown).draws = b.draws := rfl
@[simp] theorem countDown_cnt (b : Block c) : (b.countDown).cnt = b.cnt - 1#c.cntWidth := rfl
@[simp] theorem finish_prog (b : Block c) :
    (b.finish).prog = b.prog := by
  unfold Block.finish; split <;> rfl
@[simp] theorem finish_latchRs (b : Block c) :
    (b.finish).latchRs = b.latchRs := by
  unfold Block.finish; split <;> rfl
@[simp] theorem finish_latchByte (b : Block c) :
    (b.finish).latchByte = b.latchByte := by
  unfold Block.finish; split <;> rfl
@[simp] theorem finish_postClass (b : Block c) :
    (b.finish).postClass = b.postClass := by
  unfold Block.finish; split <;> rfl
@[simp] theorem finish_err (b : Block c) :
    (b.finish).err = b.err := by
  unfold Block.finish; split <;> rfl
@[simp] theorem finish_errCause (b : Block c) :
    (b.finish).errCause = b.errCause := by
  unfold Block.finish; split <;> rfl
@[simp] theorem finish_port (b : Block c) :
    (b.finish).port = b.port := by
  unfold Block.finish; split <;> rfl
@[simp] theorem finish_ddr (b : Block c) :
    (b.finish).ddr = b.ddr := by
  unfold Block.finish; split <;> rfl
@[simp] theorem finish_hostWords (b : Block c) :
    (b.finish).hostWords = b.hostWords := by
  unfold Block.finish; split <;> rfl
@[simp] theorem finish_hostPauses (b : Block c) :
    (b.finish).hostPauses = b.hostPauses := by
  unfold Block.finish; split <;> rfl
@[simp] theorem finish_edgeInputs (b : Block c) :
    (b.finish).edgeInputs = b.edgeInputs := by
  unfold Block.finish; split <;> rfl
@[simp] theorem finish_edge (b : Block c) :
    (b.finish).edge = b.edge := by
  unfold Block.finish; split <;> rfl
@[simp] theorem finish_commits (b : Block c) :
    (b.finish).commits = b.commits := by
  unfold Block.finish; split <;> rfl
@[simp] theorem finish_controller (b : Block c) :
    (b.finish).controller = b.controller := by
  unfold Block.finish; split <;> rfl
@[simp] theorem finish_draws (b : Block c) :
    (b.finish).draws = b.draws := by
  unfold Block.finish; split <;> rfl
@[simp] theorem finish_mode (b : Block c) : b.finish.mode = .idle := by
  unfold Block.finish; split <;> rfl
@[simp] theorem finish_upc (b : Block c) : b.finish.upc = 0#6 := by
  unfold Block.finish; split <;> rfl
@[simp] theorem finish_cnt (b : Block c) : b.finish.cnt = 0#c.cntWidth := by
  unfold Block.finish; split <;> rfl

/-! ### micro-op entry and start -/

@[simp] theorem entry_mode (b : Block c) (u : MicroOp) :
    (b.entry u).mode = b.mode := by
  cases u <;> rfl
@[simp] theorem entry_prog (b : Block c) (u : MicroOp) :
    (b.entry u).prog = b.prog := by
  cases u <;> rfl
@[simp] theorem entry_upc (b : Block c) (u : MicroOp) :
    (b.entry u).upc = b.upc := by
  cases u <;> rfl
@[simp] theorem entry_cnt (b : Block c) (u : MicroOp) :
    (b.entry u).cnt = b.cnt := by
  cases u <;> rfl
@[simp] theorem entry_latchRs (b : Block c) (u : MicroOp) :
    (b.entry u).latchRs = b.latchRs := by
  cases u <;> rfl
@[simp] theorem entry_latchByte (b : Block c) (u : MicroOp) :
    (b.entry u).latchByte = b.latchByte := by
  cases u <;> rfl
@[simp] theorem entry_postClass (b : Block c) (u : MicroOp) :
    (b.entry u).postClass = b.postClass := by
  cases u <;> rfl
@[simp] theorem entry_initState (b : Block c) (u : MicroOp) :
    (b.entry u).initState = b.initState := by
  cases u <;> rfl
@[simp] theorem entry_ctrlPhase (b : Block c) (u : MicroOp) :
    (b.entry u).ctrlPhase = b.ctrlPhase := by
  cases u <;> rfl
@[simp] theorem entry_err (b : Block c) (u : MicroOp) :
    (b.entry u).err = b.err := by
  cases u <;> rfl
@[simp] theorem entry_errCause (b : Block c) (u : MicroOp) :
    (b.entry u).errCause = b.errCause := by
  cases u <;> rfl
@[simp] theorem entry_hostWords (b : Block c) (u : MicroOp) :
    (b.entry u).hostWords = b.hostWords := by
  cases u <;> rfl
@[simp] theorem entry_hostPauses (b : Block c) (u : MicroOp) :
    (b.entry u).hostPauses = b.hostPauses := by
  cases u <;> rfl
@[simp] theorem entry_edgeInputs (b : Block c) (u : MicroOp) :
    (b.entry u).edgeInputs = b.edgeInputs := by
  cases u <;> rfl
@[simp] theorem entry_edge (b : Block c) (u : MicroOp) :
    (b.entry u).edge = b.edge := by
  cases u <;> rfl
@[simp] theorem entry_controller (b : Block c) (u : MicroOp) :
    (b.entry u).controller = b.controller := by
  cases u <;> rfl
@[simp] theorem entry_draws (b : Block c) (u : MicroOp) :
    (b.entry u).draws = b.draws := by
  cases u <;> rfl
@[simp] theorem beginOp_latchRs (b : Block c) (p : Program) (i : Nat) (u : MicroOp) :
    (b.beginOp p i u).latchRs = b.latchRs := by
  simp [Block.beginOp]
@[simp] theorem beginOp_latchByte (b : Block c) (p : Program) (i : Nat) (u : MicroOp) :
    (b.beginOp p i u).latchByte = b.latchByte := by
  simp [Block.beginOp]
@[simp] theorem beginOp_postClass (b : Block c) (p : Program) (i : Nat) (u : MicroOp) :
    (b.beginOp p i u).postClass = b.postClass := by
  simp [Block.beginOp]
@[simp] theorem beginOp_initState (b : Block c) (p : Program) (i : Nat) (u : MicroOp) :
    (b.beginOp p i u).initState = b.initState := by
  simp [Block.beginOp]
@[simp] theorem beginOp_err (b : Block c) (p : Program) (i : Nat) (u : MicroOp) :
    (b.beginOp p i u).err = b.err := by
  simp [Block.beginOp]
@[simp] theorem beginOp_errCause (b : Block c) (p : Program) (i : Nat) (u : MicroOp) :
    (b.beginOp p i u).errCause = b.errCause := by
  simp [Block.beginOp]
@[simp] theorem beginOp_hostWords (b : Block c) (p : Program) (i : Nat) (u : MicroOp) :
    (b.beginOp p i u).hostWords = b.hostWords := by
  simp [Block.beginOp]
@[simp] theorem beginOp_hostPauses (b : Block c) (p : Program) (i : Nat) (u : MicroOp) :
    (b.beginOp p i u).hostPauses = b.hostPauses := by
  simp [Block.beginOp]
@[simp] theorem beginOp_edgeInputs (b : Block c) (p : Program) (i : Nat) (u : MicroOp) :
    (b.beginOp p i u).edgeInputs = b.edgeInputs := by
  simp [Block.beginOp]
@[simp] theorem beginOp_edge (b : Block c) (p : Program) (i : Nat) (u : MicroOp) :
    (b.beginOp p i u).edge = b.edge := by
  simp [Block.beginOp]
@[simp] theorem beginOp_mode (b : Block c) (p : Program) (i : Nat) (u : MicroOp) :
    (b.beginOp p i u).mode = .run := by simp [Block.beginOp]
@[simp] theorem beginOp_prog (b : Block c) (p : Program) (i : Nat) (u : MicroOp) :
    (b.beginOp p i u).prog = p := by simp [Block.beginOp]
@[simp] theorem beginOp_upc (b : Block c) (p : Program) (i : Nat) (u : MicroOp) :
    (b.beginOp p i u).upc = BitVec.ofNat 6 i := by simp [Block.beginOp]
@[simp] theorem beginOp_cnt (b : Block c) (p : Program) (i : Nat) (u : MicroOp) :
    (b.beginOp p i u).cnt = BitVec.ofNat c.cntWidth (duration c u) := by simp [Block.beginOp]

/-! ### the edge -/

@[simp] theorem closeEdge_mode (b : Block c) : (b.closeEdge).mode = b.mode := rfl
@[simp] theorem closeEdge_prog (b : Block c) : (b.closeEdge).prog = b.prog := rfl
@[simp] theorem closeEdge_upc (b : Block c) : (b.closeEdge).upc = b.upc := rfl
@[simp] theorem closeEdge_cnt (b : Block c) : (b.closeEdge).cnt = b.cnt := rfl
@[simp] theorem closeEdge_latchRs (b : Block c) : (b.closeEdge).latchRs = b.latchRs := rfl
@[simp] theorem closeEdge_latchByte (b : Block c) : (b.closeEdge).latchByte = b.latchByte := rfl
@[simp] theorem closeEdge_postClass (b : Block c) : (b.closeEdge).postClass = b.postClass := rfl
@[simp] theorem closeEdge_initState (b : Block c) : (b.closeEdge).initState = b.initState := rfl
@[simp] theorem closeEdge_ctrlPhase (b : Block c) : (b.closeEdge).ctrlPhase = b.ctrlPhase := rfl
@[simp] theorem closeEdge_err (b : Block c) : (b.closeEdge).err = b.err := rfl
@[simp] theorem closeEdge_errCause (b : Block c) : (b.closeEdge).errCause = b.errCause := rfl
@[simp] theorem closeEdge_port (b : Block c) : (b.closeEdge).port = b.port := rfl
@[simp] theorem closeEdge_ddr (b : Block c) : (b.closeEdge).ddr = b.ddr := rfl
@[simp] theorem closeEdge_hostWords (b : Block c) : (b.closeEdge).hostWords = b.hostWords := rfl
@[simp] theorem closeEdge_hostPauses (b : Block c) :
    (b.closeEdge).hostPauses = b.hostPauses := rfl
@[simp] theorem closeEdge_edgeInputs (b : Block c) :
    (b.closeEdge).edgeInputs = b.edgeInputs := rfl
@[simp] theorem closeEdge_commits (b : Block c) : (b.closeEdge).commits = b.commits := rfl
@[simp] theorem closeEdge_controller (b : Block c) :
    (b.closeEdge).controller = b.controller := rfl
@[simp] theorem closeEdge_draws (b : Block c) : (b.closeEdge).draws = b.draws := rfl
@[simp] theorem closeEdge_edge (b : Block c) : (b.closeEdge).edge = b.edge + 1 := rfl
@[simp] theorem openEdge_mode (b : Block c) : (b.openEdge).mode = b.mode := rfl
@[simp] theorem openEdge_prog (b : Block c) : (b.openEdge).prog = b.prog := rfl
@[simp] theorem openEdge_upc (b : Block c) : (b.openEdge).upc = b.upc := rfl
@[simp] theorem openEdge_cnt (b : Block c) : (b.openEdge).cnt = b.cnt := rfl
@[simp] theorem openEdge_latchRs (b : Block c) : (b.openEdge).latchRs = b.latchRs := rfl
@[simp] theorem openEdge_latchByte (b : Block c) : (b.openEdge).latchByte = b.latchByte := rfl
@[simp] theorem openEdge_postClass (b : Block c) : (b.openEdge).postClass = b.postClass := rfl
@[simp] theorem openEdge_initState (b : Block c) : (b.openEdge).initState = b.initState := rfl
@[simp] theorem openEdge_ctrlPhase (b : Block c) : (b.openEdge).ctrlPhase = b.ctrlPhase := rfl
@[simp] theorem openEdge_err (b : Block c) : (b.openEdge).err = b.err := rfl
@[simp] theorem openEdge_errCause (b : Block c) : (b.openEdge).errCause = b.errCause := rfl
@[simp] theorem openEdge_edge (b : Block c) : (b.openEdge).edge = b.edge := rfl
@[simp] theorem openEdge_commits (b : Block c) : (b.openEdge).commits = b.commits := rfl
@[simp] theorem openEdge_controller (b : Block c) : (b.openEdge).controller = b.controller := rfl
@[simp] theorem openEdge_draws (b : Block c) : (b.openEdge).draws = b.draws := rfl
@[simp] theorem openEdge_hostWords (b : Block c) : (b.openEdge).hostWords = b.wordsAfter := rfl
@[simp] theorem openEdge_hostPauses (b : Block c) :
    (b.openEdge).hostPauses = pausesAfter b.handshake b.hostPauses := rfl
@[simp] theorem openEdge_edgeInputs (b : Block c) :
    (b.openEdge).edgeInputs = b.edgeInputs.tail := rfl
@[simp] theorem openEdge_port (b : Block c) :
    (b.openEdge).port = foreignWrite c b.port b.nextInput.others.portMask b.nextInput.others.portValue := rfl
@[simp] theorem openEdge_ddr (b : Block c) :
    (b.openEdge).ddr = foreignWrite c b.ddr b.nextInput.others.ddrMask b.nextInput.others.ddrValue := rfl

end Sys2Proof.Machine.Block
end

