-- ==== Sys2Proof/Laws/WellFormed.lean ====
section
/-! SUPPORT. What a well-formed configuration gives (spec 00_scope R16): one lemma per check. -/

namespace Sys2Proof.Config.WellFormed

variable {c : Config}

/-- Every named check holds. -/
theorem checks (h : c.WellFormed) : c.wf1 = true ∧ c.wf2 = true ∧ c.wf3 = true ∧ c.wf4 = true ∧
    c.wf5 = true ∧ c.wf6 = true ∧ c.wf7 = true ∧ c.wfRange = true := by
  have h' : c.wellFormed = true := h
  simpa only [Config.wellFormed, Bool.and_eq_true, and_assoc] using h'

theorem delay_mem (d : Delay) : d ∈ Delay.all := by cases d <;> decide

theorem six_le (h : c.WellFormed) : 6 ≤ c.portWidth := by
  simpa [Config.wf1] using h.checks.1

theorem pin_lt (h : c.WellFormed) (l : Line) : c.pin l < c.portWidth := by
  have := h.checks.2.1
  simp only [Config.wf2, Bool.and_eq_true, List.all_eq_true, decide_eq_true_eq] at this
  exact this.2 l (by cases l <;> decide)

theorem pin_inj (h : c.WellFormed) {l m : Line} (e : c.pin l = c.pin m) : l = m := by
  have := h.checks.2.1
  simp only [Config.wf2, Bool.and_eq_true, decide_eq_true_eq] at this
  have nd := this.1
  simp only [Line.all, List.map_cons, List.map_nil, List.nodup_cons, List.mem_cons, List.not_mem_nil,
    or_false, not_or] at nd
  cases l <;> cases m <;> first | rfl | (exfalso; omega)

theorem pin_eq (h : c.WellFormed) (l m : Line) : c.pin l = c.pin m ↔ l = m :=
  ⟨h.pin_inj, fun e => e ▸ rfl⟩

theorem cycles_pos (h : c.WellFormed) (d : Delay) : 1 ≤ c.cycles d := by
  have := h.checks.2.2.1
  simp only [Config.wf3, List.all_eq_true, decide_eq_true_eq] at this
  exact this d (delay_mem d)

theorem minCycles_le (h : c.WellFormed) (d : Delay) : c.minCycles d ≤ c.cycles d := by
  have := h.checks.2.2.2.1
  simp only [Config.wf4, List.all_eq_true, decide_eq_true_eq] at this
  exact this d (delay_mem d)

theorem clear_exceeds (h : c.WellFormed) {d : Delay} (hd : d ∈ Delay.belowClear) :
    c.cycles d < c.nClear := by
  have := h.checks.2.2.2.2.1
  simp only [Config.wf5, List.all_eq_true, decide_eq_true_eq] at this
  exact this d hd

theorem cycles_lt (h : c.WellFormed) (d : Delay) : c.cycles d < 2 ^ c.cntWidth := by
  have := h.checks.2.2.2.2.2.1
  simp only [Config.wf6, List.all_eq_true, decide_eq_true_eq] at this
  have h1 := this d (delay_mem d)
  have h2 : 0 < 2 ^ c.cntWidth := Nat.two_pow_pos _
  omega

end Sys2Proof.Config.WellFormed
end

