-- ==== Sys2Proof/Laws/Port.lean ====
section
/-! SUPPORT. The port operations bit by bit: what each masked write does to every PORT and DDR bit. -/

namespace Sys2Proof.Machine

variable {c : Config}

theorem pinMask_bit (p q : Nat) : (pinMask c p).getLsbD q = decide (q < c.portWidth ∧ q = p) := by
  unfold pinMask
  rw [BitVec.getLsbD_shiftLeft, BitVec.getLsbD_one]
  rw [Bool.eq_iff_iff]
  simp only [Bool.and_eq_true, Bool.not_eq_true', decide_eq_true_eq, decide_eq_false_iff_not]
  omega

theorem lineMask_bit (l : Line) (q : Nat) :
    (lineMask c l).getLsbD q = decide (q < c.portWidth ∧ q = c.pin l) := pinMask_bit _ _

theorem lineValue_bit (l : Line) (v : Bool) (q : Nat) :
    (lineValue c l v).getLsbD q = (v && decide (q < c.portWidth ∧ q = c.pin l)) := by
  cases v <;> simp [lineValue, lineMask_bit]

/-- A bit of OWN, for a bit of the port. -/
theorem ownMask_bit (q : Nat) :
    (ownMask c).getLsbD q = true ↔ q < c.portWidth ∧ ∃ l : Line, q = c.pin l := by
  unfold ownMask
  simp only [BitVec.getLsbD_or, lineMask_bit, Bool.or_eq_true, decide_eq_true_eq]
  constructor
  · rintro (((((h | h) | h) | h) | h) | h) <;> exact ⟨h.1, _, h.2⟩
  · rintro ⟨h, l, rfl⟩
    cases l <;> simp [h]

/-- A bit of the data mask, for a bit of the port. -/
theorem dataMask_bit (q : Nat) : (dataMask c).getLsbD q =
    decide (q < c.portWidth ∧ (q = c.pin .db7 ∨ q = c.pin .db6 ∨ q = c.pin .db5 ∨ q = c.pin .db4)) := by
  unfold dataMask
  simp only [BitVec.getLsbD_or, lineMask_bit]
  rw [Bool.eq_iff_iff]
  simp only [Bool.or_eq_true, decide_eq_true_eq]
  tauto

theorem nibbleValue_bit (n : Nibble) (q : Nat) : (nibbleValue c n).getLsbD q =
    (((n.getLsbD 3 && decide (q < c.portWidth ∧ q = c.pin .db7)) ||
      (n.getLsbD 2 && decide (q < c.portWidth ∧ q = c.pin .db6))) ||
      (n.getLsbD 1 && decide (q < c.portWidth ∧ q = c.pin .db5)) ||
      (n.getLsbD 0 && decide (q < c.portWidth ∧ q = c.pin .db4))) := by
  simp only [nibbleValue, BitVec.getLsbD_or, lineValue_bit]

/-- `PortWrite` bit by bit (spec 20_memory R47). -/
theorem Block.portWrite_portBit (b : Block c) (m v : BitVec c.portWidth) (p : Nat) :
    (b.portWrite m v).portBit p = if m.getLsbD p then v.getLsbD p else b.portBit p := by
  simp only [Block.portBit, Block.portWrite_port, BitVec.getLsbD_or, BitVec.getLsbD_and, BitVec.getLsbD_not]
  by_cases hp : p < c.portWidth
  · cases m.getLsbD p <;> simp [hp]
  · simp [BitVec.getLsbD_of_ge _ _ (Nat.le_of_not_lt hp)]

/-- An other user's write bit by bit: no bit of OWN changes (spec 20_memory R49). -/
theorem foreignWrite_bit (old m v : BitVec c.portWidth) (p : Nat) :
    (foreignWrite c old m v).getLsbD p =
      if m.getLsbD p && !(ownMask c).getLsbD p then v.getLsbD p else old.getLsbD p := by
  simp only [foreignWrite, BitVec.getLsbD_or, BitVec.getLsbD_and, BitVec.getLsbD_not]
  by_cases hp : p < c.portWidth
  · cases m.getLsbD p <;> cases (ownMask c).getLsbD p <;> simp [hp]
  · simp [BitVec.getLsbD_of_ge _ _ (Nat.le_of_not_lt hp)]

theorem foreignWrite_pin (old m v : BitVec c.portWidth) (l : Line) :
    (foreignWrite c old m v).getLsbD (c.pin l) = old.getLsbD (c.pin l) := by
  rw [foreignWrite_bit]
  by_cases hp : c.pin l < c.portWidth
  · have : (ownMask c).getLsbD (c.pin l) = true := (ownMask_bit _).2 ⟨hp, l, rfl⟩
    simp [this]
  · simp [BitVec.getLsbD_of_ge _ _ (Nat.le_of_not_lt hp)]

@[simp] theorem Block.openEdge_line (b : Block c) (l : Line) : b.openEdge.line l = b.line l :=
  foreignWrite_pin _ _ _ _

@[simp] theorem Block.openEdge_nibbleOnLines (b : Block c) :
    b.openEdge.nibbleOnLines = b.nibbleOnLines := by
  simp [Block.nibbleOnLines]

/-! ### The micro-ops' entry actions on a line -/

theorem Block.entry_setRs_bit (h : c.WellFormed) (b : Block c) (v : Bool) (p : Nat) :
    (b.entry (.setRs v)).portBit p =
      if p = c.pin .rs then v else if p = c.pin .e then false else b.portBit p := by
  show (b.portWrite _ _).portBit p = _
  rw [Block.portWrite_portBit]
  have h1 := h.pin_lt .rs
  have h2 := h.pin_lt .e
  have h3 : c.pin .rs ≠ c.pin .e := fun e => by cases h.pin_inj e
  simp only [BitVec.getLsbD_or, lineMask_bit, lineValue_bit]
  by_cases e1 : p = c.pin .rs
  · subst e1; simp [h1]
  · by_cases e2 : p = c.pin .e
    · subst e2; simp [h2, h3.symm]
    · simp [e1, e2]

theorem Block.entry_putNib_bit (h : c.WellFormed) (b : Block c) (n : Nibble) (p : Nat) :
    (b.entry (.putNib n)).portBit p =
      if p = c.pin .db7 then n.getLsbD 3 else if p = c.pin .db6 then n.getLsbD 2
      else if p = c.pin .db5 then n.getLsbD 1 else if p = c.pin .db4 then n.getLsbD 0
      else b.portBit p := by
  show (b.portWrite _ _).portBit p = _
  rw [Block.portWrite_portBit, dataMask_bit, nibbleValue_bit]
  have l7 := h.pin_lt .db7
  have l6 := h.pin_lt .db6
  have l5 := h.pin_lt .db5
  have l4 := h.pin_lt .db4
  have h76 := h.pin_eq .db7 .db6
  have h75 := h.pin_eq .db7 .db5
  have h74 := h.pin_eq .db7 .db4
  have h65 := h.pin_eq .db6 .db5
  have h64 := h.pin_eq .db6 .db4
  have h54 := h.pin_eq .db5 .db4
  simp only [reduceCtorEq, iff_false] at h76 h75 h74 h65 h64 h54
  by_cases e7 : p = c.pin .db7
  · subst e7; simp [l7, h76, h75, h74]
  by_cases e6 : p = c.pin .db6
  · subst e6; simp [l6, h65, h64, Ne.symm h76]
  by_cases e5 : p = c.pin .db5
  · subst e5; simp [l5, h54, Ne.symm h65, Ne.symm h75]
  by_cases e4 : p = c.pin .db4
  · subst e4; simp [l4, Ne.symm h54, Ne.symm h64, Ne.symm h74]
  simp [e7, e6, e5, e4]

theorem Block.entry_strobeHi_bit (h : c.WellFormed) (b : Block c) (p : Nat) :
    (b.entry .strobeHi).portBit p = if p = c.pin .e then true else b.portBit p := by
  show (b.portWrite _ _).portBit p = _
  rw [Block.portWrite_portBit, lineMask_bit]
  have h1 := h.pin_lt .e
  by_cases e1 : p = c.pin .e
  · subst e1; simp [h1]
  · simp [e1]

theorem Block.entry_strobeLo_bit (b : Block c) (p : Nat) :
    (b.entry .strobeLo).portBit p = if p = c.pin .e then false else b.portBit p := by
  show ((b.commit _ _).portWrite _ _).portBit p = _
  rw [Block.portWrite_portBit, lineMask_bit]
  by_cases h1 : p < c.portWidth
  · by_cases e1 : p = c.pin .e
    · subst e1; simp [h1]
    · simp [e1, Block.portBit]
  · have : b.portBit p = false := BitVec.getLsbD_of_ge _ _ (Nat.le_of_not_lt h1)
    simp [Block.portBit] at this ⊢
    simp [this, h1]

theorem Block.entry_zero_bit (b : Block c) (p : Nat) : (b.entry .zero).portBit p = false := by
  show (b.portWrite _ _).portBit p = _
  rw [Block.portWrite_portBit]
  by_cases hp : p < c.portWidth
  · simp [hp]
  · simp [Block.portBit, BitVec.getLsbD_of_ge _ _ (Nat.le_of_not_lt hp)]

@[simp] theorem Block.entry_setDir_port (b : Block c) : (b.entry .setDir).port = b.port := rfl
@[simp] theorem Block.entry_setDir_ddr (b : Block c) :
    (b.entry .setDir).ddr = b.ddr ||| ownMask c := rfl
@[simp] theorem Block.entry_wait (b : Block c) (d : Delay) : b.entry (.wait d) = b := rfl
@[simp] theorem Block.entry_zero_port (b : Block c) : (b.entry .zero).port = 0#c.portWidth := by
  refine BitVec.eq_of_getLsbD_eq fun i _ => ?_
  rw [BitVec.getLsbD_zero]
  exact b.entry_zero_bit i

/-- Only SETDIR writes DDR. -/
theorem Block.entry_ddr (b : Block c) (u : MicroOp) :
    (b.entry u).ddr = if u = .setDir then b.ddr ||| ownMask c else b.ddr := by
  cases u <;> simp [Block.entry]

/-- Only STROBE_LO makes a commit. -/
theorem Block.entry_commits (b : Block c) (u : MicroOp) :
    (b.entry u).commits = b.commits ++
      if u = .strobeLo then [{ edge := b.edge, rs := b.line .rs, nibble := b.nibbleOnLines }] else [] := by
  cases u <;> simp [Block.entry]

/-- Lines of the same PORT are the same. -/
theorem Block.line_congr {b t : Block c} (h : t.port = b.port) (l : Line) : t.line l = b.line l := by
  simp [Block.line, Block.portBit, h]

theorem Block.nibbleOnLines_congr {b t : Block c} (h : t.port = b.port) :
    t.nibbleOnLines = b.nibbleOnLines := by
  simp [Block.nibbleOnLines, Block.line_congr h]

/-! ### Owned bits -/

/-- The bit of a line is a bit of OWN. -/
theorem ownMask_pin (h : c.WellFormed) (l : Line) : (ownMask c).getLsbD (c.pin l) = true :=
  (ownMask_bit _).2 ⟨h.pin_lt l, l, rfl⟩

/-- Once set, the six DDR bits stay set under another user's write. -/
theorem foreignWrite_own (old m v : BitVec c.portWidth) (h : old &&& ownMask c = ownMask c) :
    foreignWrite c old m v &&& ownMask c = ownMask c := by
  refine BitVec.eq_of_getLsbD_eq fun i hi => ?_
  have := congrArg (·.getLsbD i) h
  simp only [BitVec.getLsbD_and, foreignWrite_bit] at this ⊢
  cases ho : (ownMask c).getLsbD i <;> simp_all

theorem or_own_and_own (x : BitVec c.portWidth) : (x ||| ownMask c) &&& ownMask c = ownMask c := by
  refine BitVec.eq_of_getLsbD_eq fun i hi => ?_
  simp only [BitVec.getLsbD_and, BitVec.getLsbD_or]
  cases x.getLsbD i <;> cases (ownMask c).getLsbD i <;> rfl

/-! ### Strobe, Mode-Select and the data lines after an entry action -/

/-- E after a micro-op's entry action. -/
def strobeAfter (old : Bool) : MicroOp → Bool
  | .setDir => old
  | .wait _ => old
  | .zero => false
  | .setRs _ => false
  | .putNib _ => old
  | .strobeHi => true
  | .strobeLo => false

theorem Block.entry_line_e (h : c.WellFormed) (b : Block c) (u : MicroOp) :
    (b.entry u).line .e = strobeAfter (b.line .e) u := by
  have e := h.pin_eq .e
  cases u with
  | setDir => rfl
  | wait _ => rfl
  | zero => exact b.entry_zero_bit _
  | setRs v => simp [Block.line, Block.entry_setRs_bit h, e, strobeAfter]
  | putNib n => simp [Block.line, Block.entry_putNib_bit h, e, strobeAfter]
  | strobeHi => simp [Block.line, Block.entry_strobeHi_bit h, strobeAfter]
  | strobeLo => simp [Block.line, Block.entry_strobeLo_bit, strobeAfter]

/-- RS after a micro-op's entry action. -/
def selectAfter (old : Bool) : MicroOp → Bool
  | .setDir => old
  | .wait _ => old
  | .zero => false
  | .setRs v => v
  | .putNib _ => old
  | .strobeHi => old
  | .strobeLo => old

theorem Block.entry_line_rs (h : c.WellFormed) (b : Block c) (u : MicroOp) :
    (b.entry u).line .rs = selectAfter (b.line .rs) u := by
  have e := h.pin_eq .rs
  cases u with
  | setDir => rfl
  | wait _ => rfl
  | zero => exact b.entry_zero_bit _
  | setRs v => simp [Block.line, Block.entry_setRs_bit h, selectAfter]
  | putNib n => simp [Block.line, Block.entry_putNib_bit h, e, selectAfter]
  | strobeHi => simp [Block.line, Block.entry_strobeHi_bit h, e, selectAfter]
  | strobeLo => simp [Block.line, Block.entry_strobeLo_bit, e, selectAfter]

theorem Block.nibbleOnLines_of_lines {b t : Block c} (h : ∀ l, t.line l = b.line l) :
    t.nibbleOnLines = b.nibbleOnLines := by
  simp [Block.nibbleOnLines, h]

/-- Neither strobe changes the data lines. -/
theorem Block.entry_strobe_nibble (h : c.WellFormed) (b : Block c) :
    (b.entry .strobeHi).nibbleOnLines = b.nibbleOnLines ∧
    (b.entry .strobeLo).nibbleOnLines = b.nibbleOnLines := by
  have e := h.pin_eq
  constructor <;>
    simp [Block.nibbleOnLines, Block.line, Block.entry_strobeHi_bit h, Block.entry_strobeLo_bit, e]

/-- The lines after an entry action depend on the lines alone. -/
theorem Block.entry_line_congr (h : c.WellFormed) {b t : Block c} (hl : ∀ l, t.line l = b.line l)
    (u : MicroOp) (l : Line) : (t.entry u).line l = (b.entry u).line l := by
  have e := h.pin_eq
  have hl' : ∀ l, t.portBit (c.pin l) = b.portBit (c.pin l) := hl
  cases u with
  | setDir => exact hl l
  | wait _ => exact hl l
  | zero => exact (t.entry_zero_bit _).trans (b.entry_zero_bit _).symm
  | setRs v => simp [Block.line, Block.entry_setRs_bit h, e, hl']
  | putNib n => simp [Block.line, Block.entry_putNib_bit h, e, hl']
  | strobeHi => simp [Block.line, Block.entry_strobeHi_bit h, e, hl']
  | strobeLo => simp [Block.line, Block.entry_strobeLo_bit, e, hl']

/-- The data lines after PUTNIB. -/
theorem Block.entry_putNib_nibble (h : c.WellFormed) (b : Block c) (n : Nibble) :
    (b.entry (.putNib n)).nibbleOnLines = n := by
  have e := h.pin_eq
  have key : ∀ m : Nibble, BitVec.ofBool (m.getLsbD 3) ++ BitVec.ofBool (m.getLsbD 2) ++
      BitVec.ofBool (m.getLsbD 1) ++ BitVec.ofBool (m.getLsbD 0) = m := by decide
  simp only [Block.nibbleOnLines, Block.line, Block.entry_putNib_bit h, e, reduceCtorEq, if_false, if_true,
    key]

end Sys2Proof.Machine
end

