-- ==== Sys2Proof/Laws/Sequencer.lean ====
section
/-! SUPPORT. The sequencer: the micro-programs as data, and everything `start`, `tick`, `plainEdge` and
`offered` can answer. -/

namespace Sys2Proof.Machine

variable {c : Config}

theorem initScript_length (c : Config) : (initScript c).length = 59 := by
  simp [initScript, byteOps, nibbleOps]
theorem sendProgram_length (rs : Bool) (y : Byte) (k : PostClass) : (sendProgram rs y k).length = 8 := rfl

theorem microProgram_length (b : Block c) (p : Program) :
    (b.microProgram p).length = p.lastIndex + 1 := by
  cases p
  · exact initScript_length c
  · exact sendProgram_length _ _ _

/-- The programs depend on the latches alone. -/
theorem microProgram_congr {b t : Block c} (h1 : t.latchRs = b.latchRs) (h2 : t.latchByte = b.latchByte)
    (h3 : t.postClass = b.postClass) (p : Program) : t.microProgram p = b.microProgram p := by
  cases p <;> simp [Block.microProgram, h1, h2, h3]

theorem uop_congr {b t : Block c} (h1 : t.latchRs = b.latchRs) (h2 : t.latchByte = b.latchByte)
    (h3 : t.postClass = b.postClass) (p : Program) (i : Nat) : t.uop p i = b.uop p i := by
  simp [Block.uop, microProgram_congr h1 h2 h3]

theorem uop_isSome_iff (b : Block c) (p : Program) (i : Nat) :
    (b.uop p i).isSome ↔ i ≤ p.lastIndex := by
  simp [Block.uop, microProgram_length]

theorem uop_exists (b : Block c) {p : Program} {i : Nat} (h : i ≤ p.lastIndex) : ∃ u, b.uop p i = some u :=
  Option.isSome_iff_exists.1 ((uop_isSome_iff b p i).2 h)

theorem uop_le {b : Block c} {p : Program} {i : Nat} {u : MicroOp} (h : b.uop p i = some u) :
    i ≤ p.lastIndex := (uop_isSome_iff b p i).1 (by simp [h])

theorem lastIndex_le (p : Program) : p.lastIndex ≤ 58 := by cases p <;> decide

theorem uop_init_zero (b : Block c) : b.uop .init 0 = some .setDir := by
  simp [Block.uop, Block.microProgram, initScript]
theorem uop_send_zero (b : Block c) : b.uop .send 0 = some (.setRs b.latchRs) := rfl

theorem start_eq {b : Block c} {p : Program} {i : Nat} {u : MicroOp} (h : b.uop p i = some u) :
    b.start p i = .next (b.beginOp p i u) := by
  simp [Block.start, h]

theorem start_next {b t : Block c} {p : Program} {i : Nat} (h : b.start p i = .next t) :
    ∃ u, b.uop p i = some u ∧ t = b.beginOp p i u := by
  unfold Block.start at h
  split at h
  · next u e => exact ⟨u, e, by cases h; rfl⟩
  · cases h

/-- Everything one edge of a running program can do (spec 40_bus_signal_driver R74). -/
inductive Block.Tick (b : Block c) : Block c → Prop
  | counts (h : 1 < b.cnt.toNat) : Block.Tick b b.countDown
  | ends (h : ¬ 1 < b.cnt.toNat) (hl : b.upc.toNat = b.prog.lastIndex) : Block.Tick b b.finish
  | starts (h : ¬ 1 < b.cnt.toNat) (hl : b.upc.toNat ≠ b.prog.lastIndex) (u : MicroOp)
      (hu : b.uop b.prog (b.upc.toNat + 1) = some u) :
      Block.Tick b (b.beginOp b.prog (b.upc.toNat + 1) u)

theorem tick_next {b t : Block c} (h : b.tick = .next t) : b.Tick t := by
  unfold Block.tick at h
  split_ifs at h with h1 h2
  · cases h; exact .counts h1
  · cases h; exact .ends h1 h2
  · obtain ⟨u, hu, rfl⟩ := start_next h
    exact .starts h1 h2 u hu

/-- A running program whose UPC names a micro-op never stops. -/
theorem tick_exists {b : Block c} (h : b.upc.toNat ≤ b.prog.lastIndex) : ∃ t, b.tick = .next t := by
  unfold Block.tick
  split_ifs with h1 h2
  · exact ⟨_, rfl⟩
  · exact ⟨_, rfl⟩
  · obtain ⟨u, hu⟩ := uop_exists b (p := b.prog) (i := b.upc.toNat + 1) (by omega)
    exact ⟨_, start_eq hu⟩

theorem onState_next_iff {o : BlockOutcome c} {s : State} :
    onState o = .next s ↔ ∃ t, o = .next t ∧ s = ⟨c, t⟩ := by
  cases o <;> simp [onState, eq_comm]

/-! ### PORT at the start of a micro-op -/

@[simp] theorem beginOp_port (b : Block c) (p : Program) (i : Nat) (u : MicroOp) :
    (b.beginOp p i u).port = ((b.sense p i u).entry u).port := by simp [Block.beginOp]

@[simp] theorem beginOp_ddr (b : Block c) (p : Program) (i : Nat) (u : MicroOp) :
    (b.beginOp p i u).ddr = if u = .setDir then b.ddr ||| ownMask c else b.ddr := by
  simp [Block.beginOp, Block.entry_ddr]

@[simp] theorem beginOp_commits (b : Block c) (p : Program) (i : Nat) (u : MicroOp) :
    (b.beginOp p i u).commits = b.commits ++
      if u = .strobeLo then [{ edge := b.edge, rs := b.line .rs, nibble := b.nibbleOnLines }] else [] := by
  have h : (b.sense p i u).port = b.port := by simp
  simp only [Block.beginOp, Block.markPhase_commits, Block.occupy_commits, Block.entry_commits,
    Block.sense_commits, Block.sense_edge, Block.line_congr h, Block.nibbleOnLines_congr h]

/-- The entry action's PORT depends on PORT alone. -/
theorem entry_port_congr {b t : Block c} (h : t.port = b.port) (u : MicroOp) :
    (t.entry u).port = (b.entry u).port := by
  cases u <;> simp [Block.entry, h]

theorem beginOp_portBit (b : Block c) (p : Program) (i : Nat) (u : MicroOp) (q : Nat) :
    (b.beginOp p i u).portBit q = (b.entry u).portBit q := by
  simp only [Block.portBit, beginOp_port]
  rw [entry_port_congr (b := b) (t := b.sense p i u) (by simp)]

theorem beginOp_line (b : Block c) (p : Program) (i : Nat) (u : MicroOp) (l : Line) :
    (b.beginOp p i u).line l = (b.entry u).line l := beginOp_portBit _ _ _ _ _

theorem beginOp_ctrlPhase (b : Block c) (p : Program) (i : Nat) (u : MicroOp) :
    (b.beginOp p i u).ctrlPhase =
      if p = .init ∧ i = 13 then .eightBitAssumed
      else if p = .init ∧ i = 27 then .fourBitConfirmed else b.ctrlPhase := by
  simp only [Block.beginOp, Block.markPhase]
  split_ifs <;> simp

/-! ### The end of a micro-op and of a program -/

theorem countDown_toNat {b : Block c} (h : 1 < b.cnt.toNat) :
    b.countDown.cnt.toNat = b.cnt.toNat - 1 := by
  have hlt := b.cnt.isLt
  have h1 : 1 < 2 ^ c.cntWidth := by omega
  rw [Block.countDown_cnt, BitVec.toNat_sub, BitVec.toNat_ofNat, Nat.mod_eq_of_lt h1,
    show 2 ^ c.cntWidth - 1 + b.cnt.toNat = (b.cnt.toNat - 1) + 2 ^ c.cntWidth by omega,
    Nat.add_mod_right, Nat.mod_eq_of_lt (by omega)]

theorem finish_initState_eq (b : Block c) :
    b.finish.initState = if b.prog = .init then .ready else b.initState := by
  unfold Block.finish
  split <;> simp_all

theorem finish_ctrlPhase_eq (b : Block c) :
    b.finish.ctrlPhase = if b.prog = .init then .operational else b.ctrlPhase := by
  unfold Block.finish
  split <;> simp_all

/-! ### What stands where in the micro-programs -/

/-- A STROBE_HI is followed at once by a STROBE_LO. -/
theorem uop_after_strobeHi (b : Block c) (p : Program) (i : Nat) (hi : i < 58)
    (h : b.uop p i = some .strobeHi) : b.uop p (i + 1) = some .strobeLo := by
  revert h
  cases p with
  | init =>
    simp only [Block.uop, Block.microProgram, initScript, List.flatten_cons, List.flatten_nil,
      nibbleOps, byteOps, List.cons_append, List.nil_append]
    interval_cases i <;> simp
  | send =>
    simp only [Block.uop, Block.microProgram, sendProgram, nibbleOps, byteOps, List.cons_append,
      List.nil_append]
    interval_cases i <;> simp

/-- A STROBE_LO stands only behind a STROBE_HI. -/
theorem uop_before_strobeLo (b : Block c) (p : Program) (i : Nat) (hi : i < 58)
    (h : b.uop p (i + 1) = some .strobeLo) : b.uop p i = some .strobeHi := by
  revert h
  cases p with
  | init =>
    simp only [Block.uop, Block.microProgram, initScript, List.flatten_cons, List.flatten_nil,
      nibbleOps, byteOps, List.cons_append, List.nil_append]
    interval_cases i <;> simp
  | send =>
    simp only [Block.uop, Block.microProgram, sendProgram, nibbleOps, byteOps, List.cons_append,
      List.nil_append]
    interval_cases i <;> simp

/-- No program ends with a STROBE_HI. -/
theorem uop_last_ne_strobeHi (b : Block c) (p : Program) : b.uop p p.lastIndex ≠ some .strobeHi := by
  cases p <;>
    simp [Block.uop, Block.microProgram, initScript, sendProgram, nibbleOps, byteOps, Program.lastIndex]

/-- SETRS has operand 0 throughout the INIT script. -/
theorem uop_setRs_init (b : Block c) (i : Nat) (v : Bool) (h : b.uop .init i = some (.setRs v)) :
    v = false := by
  have := List.mem_of_getElem? (l := b.microProgram .init) h
  simpa [Block.microProgram, initScript, nibbleOps, byteOps] using this

/-- SETDIR is INIT micro-op 0 only. -/
theorem uop_setDir (b : Block c) (p : Program) (i : Nat) (h : b.uop p i = some .setDir) :
    p = .init ∧ i = 0 := by
  have hi := uop_le h
  revert h
  cases p with
  | init =>
    simp only [Program.lastIndex] at hi
    simp only [Block.uop, Block.microProgram, initScript, List.flatten_cons, List.flatten_nil,
      nibbleOps, byteOps, List.cons_append, List.nil_append]
    interval_cases i <;> simp
  | send =>
    intro h
    have := List.mem_of_getElem? (l := b.microProgram .send) h
    simp [Block.microProgram, sendProgram, nibbleOps, byteOps] at this

/-- ZERO is INIT micro-op 2 only. -/
theorem uop_zero (b : Block c) (p : Program) (i : Nat) (h : b.uop p i = some .zero) :
    p = .init ∧ i = 2 := by
  have hi := uop_le h
  revert h
  cases p with
  | init =>
    simp only [Program.lastIndex] at hi
    simp only [Block.uop, Block.microProgram, initScript, List.flatten_cons, List.flatten_nil,
      nibbleOps, byteOps, List.cons_append, List.nil_append]
    interval_cases i <;> simp
  | send =>
    intro h
    have := List.mem_of_getElem? (l := b.microProgram .send) h
    simp [Block.microProgram, sendProgram, nibbleOps, byteOps] at this

end Sys2Proof.Machine
end

