-- ==== Sys2Proof/Laws/Step.lean ====
section
/-! SUPPORT. Everything a step can do, said once: `step_next` is the inversion lemma that invariants cite, and
`step_exists` gives the next state where nothing stops it. -/

namespace Sys2Proof.Machine

variable {c : Config}

/-! ### The host's words at an edge -/

theorem wordsAfter_run {b : Block c} (hm : b.mode = .run) : b.wordsAfter = b.hostWords := by
  simp [Block.wordsAfter, Block.handshake, Block.cmdReady, hm]

theorem wordsAfter_reset {b : Block c} (h : b.nextInput.rst = true) : b.wordsAfter = b.hostWords := by
  simp [Block.wordsAfter, Block.handshake, h]

theorem wordsAfter_silent {b : Block c} (h : b.offeredWord = none) : b.wordsAfter = b.hostWords := by
  simp [Block.wordsAfter, Block.handshake, h]

/-- The handshake completes where an idle block is offered a word and there is no reset. -/
theorem handshake_iff (b : Block c) :
    b.handshake = true ↔ b.nextInput.rst = false ∧ b.mode = .idle ∧ ∃ w, b.offeredWord = some w := by
  simp [Block.handshake, Block.cmdReady, Option.isSome_iff_exists, and_assoc]

theorem wordsAfter_accepted {b : Block c} {w : CmdWord} (h : b.nextInput.rst = false) (hm : b.mode = .idle)
    (ho : b.offeredWord = some w) : b.wordsAfter = b.hostWords.tail := by
  rw [Block.wordsAfter, if_pos ((handshake_iff b).2 ⟨h, hm, w, ho⟩)]

/-- A word is offered where the host has one and its pause is over. -/
theorem offeredWord_eq_some {b : Block c} {w : CmdWord} :
    b.offeredWord = some w ↔ b.hostPauses.headD 0 = 0 ∧ b.hostWords.head? = some w := by
  simp [Block.offeredWord]

/-- Where a word is offered no pause is in progress, so only the handshake moves the pauses on. -/
theorem pausesAfter_offered {b : Block c} {w : CmdWord} (h : b.offeredWord = some w) (done : Bool) :
    pausesAfter done b.hostPauses = if done then b.hostPauses.tail else b.hostPauses := by
  have h1 := (offeredWord_eq_some.1 h).1
  cases hp : b.hostPauses with
  | nil => simp [pausesAfter]
  | cons n rest =>
    obtain rfl : n = 0 := by simpa [hp] using h1
    rfl

theorem offeredWord_congr {b t : Block c} (hw : t.hostWords = b.hostWords)
    (hp : t.hostPauses = b.hostPauses) : t.offeredWord = b.offeredWord := by
  simp only [Block.offeredWord, hw, hp]

/-- A word that is offered and not consumed is held. -/
theorem openEdge_holds {b : Block c} {w : CmdWord} (h : b.offeredWord = some w)
    (hh : b.handshake = false) : b.openEdge.offeredWord = some w := by
  refine (offeredWord_congr (by simp [Block.wordsAfter, hh]) ?_).trans h
  simp [pausesAfter_offered h, hh]

/-! ### One edge -/

/-- Everything the acceptance of an offered command can do (spec 41_protocol_driver R90). -/
inductive Block.Accept (b : Block c) : Block c → Prop
  | error (e : ErrCause) (he : e ≠ .none) : Block.Accept b (b.raiseError e)
  | init (h : b.initState ≠ .ready) :
      Block.Accept b (b.enterInit.beginOp .init 0 .setDir)
  | send (rs : Bool) (byte : Byte) (k : PostClass) (h : b.initState = .ready) :
      Block.Accept b ((b.latch rs byte k).beginOp .send 0 (.setRs rs))

theorem acceptInit_next {b t : Block c} (h : b.acceptInit = .next t) : b.Accept t := by
  unfold Block.acceptInit at h
  split_ifs at h with h1
  · cases h; exact .error _ (by decide)
  · obtain ⟨u, hu, rfl⟩ := start_next h
    rw [uop_init_zero] at hu
    cases hu
    exact .init h1

theorem acceptSend_next {b t : Block c} {rs : Bool} {y : Byte} {k : PostClass}
    (h : b.acceptSend rs y k = .next t) : b.Accept t := by
  unfold Block.acceptSend at h
  split_ifs at h with h1
  · obtain ⟨u, hu, rfl⟩ := start_next h
    rw [uop_send_zero] at hu
    cases hu
    exact .send rs y k h1
  · cases h; exact .error _ (by decide)

/-- Acceptance as a function of the command word. -/
def Block.acceptWord (b : Block c) (w : CmdWord) : BlockOutcome c :=
  match decodeHostCmd w with
  | .sendInstr y => b.acceptSendInstr y
  | .sendData y => b.acceptSendData y
  | .init _ => b.acceptInit
  | _ => b.acceptReserved

theorem acceptWord_next {b t : Block c} {w : CmdWord} (h : b.acceptWord w = .next t) : b.Accept t := by
  unfold Block.acceptWord at h
  split at h
  · exact acceptSend_next h
  · exact acceptSend_next h
  · exact acceptInit_next h
  · cases h; exact .error _ (by decide)

theorem acceptInit_exists (b : Block c) : ∃ t, b.acceptInit = .next t := by
  unfold Block.acceptInit
  split_ifs
  · exact ⟨_, rfl⟩
  · exact ⟨_, start_eq (uop_init_zero _)⟩

theorem acceptSend_exists (b : Block c) (rs : Bool) (y : Byte) (k : PostClass) :
    ∃ t, b.acceptSend rs y k = .next t := by
  unfold Block.acceptSend
  split_ifs
  · exact ⟨_, start_eq (uop_send_zero _)⟩
  · exact ⟨_, rfl⟩

theorem acceptWord_exists (b : Block c) (w : CmdWord) : ∃ t, b.acceptWord w = .next t := by
  unfold Block.acceptWord
  split
  · exact acceptSend_exists _ _ _ _
  · exact acceptSend_exists _ _ _ _
  · exact acceptInit_exists _
  · exact ⟨_, rfl⟩

/-- The execution of a decoded command word is its acceptance, offered at the edge. -/
theorem exec_decodeHostCmd (w : CmdWord) (b : Block c) :
    exec (decodeHostCmd w) ⟨c, b⟩ = onState (b.offered fun k => k.acceptWord w) := by
  have h : ∀ f g : Block c → BlockOutcome c, f b = g b → onState (b.offered f) = onState (b.offered g) := by
    intro f g e
    simp only [Block.offered, e]
  unfold Block.acceptWord decodeHostCmd
  split_ifs <;> exact h _ _ rfl

/-- Everything one clock edge can do, `o` being the block as the sequencer meets it (`openEdge`). -/
inductive Block.Edge (b : Block c) : Block c → Prop
  | reset (h : b.nextInput.rst = true) : Block.Edge b b.openEdge.resetEdge
  | runs (h : b.nextInput.rst = false) (hm : b.mode = .run) (t : Block c) (ht : b.openEdge.Tick t) :
      Block.Edge b t
  | rests (h : b.nextInput.rst = false) (hm : b.mode = .idle) (ho : b.offeredWord = none) :
      Block.Edge b b.openEdge
  | accepts (h : b.nextInput.rst = false) (hm : b.mode = .idle) (w : CmdWord)
      (ho : b.offeredWord = some w) (t : Block c) (hw : b.openEdge.acceptWord w = .next t)
      (ht : b.openEdge.Accept t) : Block.Edge b t

/-- No part of an edge but its opening moves the host's words and pauses. -/
theorem Block.Edge.host {b t : Block c} (h : b.Edge t) :
    t.hostWords = b.openEdge.hostWords ∧ t.hostPauses = b.openEdge.hostPauses := by
  cases h with
  | reset _ => exact ⟨by simp, by simp⟩
  | runs _ _ t ht => cases ht <;> exact ⟨by simp, by simp⟩
  | rests _ _ _ => exact ⟨rfl, rfl⟩
  | accepts _ _ w _ t _ ht => cases ht <;> exact ⟨by simp, by simp⟩

theorem edgeAction_next {b : Block c} {s : State} (h : edgeAction exec ⟨c, b⟩ = .next s) :
    ∃ t : Block c, s = ⟨c, t⟩ ∧ b.Edge t := by
  unfold edgeAction at h
  split_ifs at h with hr
  · cases h; exact ⟨_, rfl, .reset hr⟩
  have hr' : b.nextInput.rst = false := by simpa using hr
  split at h
  · next w ho =>
    change exec (decodeHostCmd w) ⟨c, b.openEdge⟩ = _ at h
    rw [exec_decodeHostCmd] at h
    obtain ⟨t, ht, rfl⟩ := onState_next_iff.1 h
    refine ⟨t, rfl, ?_⟩
    unfold Block.offered at ht
    split at ht
    · next hm => exact .runs hr' (by simpa using hm) t (tick_next ht)
    · next hm => exact .accepts hr' (by simpa using hm) w ho t ht (acceptWord_next ht)
  · next ho =>
    obtain ⟨t, ht, rfl⟩ := onState_next_iff.1 h
    refine ⟨t, rfl, ?_⟩
    unfold Block.plainEdge at ht
    split at ht
    · next hm => exact .runs hr' (by simpa using hm) t (tick_next ht)
    · next hm => cases ht; exact .rests hr' (by simpa using hm) ho

/-- The inversion lemma of `step`. -/
theorem step_next {b : Block c} {s : State} (h : step ⟨c, b⟩ = .next s) :
    c.WellFormed ∧ ∃ t : Block c, s = ⟨c, t.closeEdge⟩ ∧ b.Edge t := by
  unfold step edgeStep at h
  split_ifs at h with hc
  refine ⟨hc, ?_⟩
  cases ha : edgeAction exec ⟨c, b⟩ with
  | next u =>
    obtain ⟨t, rfl, ht⟩ := edgeAction_next ha
    rw [ha] at h
    cases h
    exact ⟨t, rfl, ht⟩
  | fault _ => rw [ha] at h; cases h
  | refused _ => rw [ha] at h; cases h

theorem step_of_edgeAction {b t : Block c} (hc : c.WellFormed)
    (h : edgeAction exec ⟨c, b⟩ = .next ⟨c, t⟩) : step ⟨c, b⟩ = .next ⟨c, t.closeEdge⟩ := by
  have hc' : (State.mk c b).cfg.wellFormed = true := hc
  simp only [step, edgeStep, hc', if_true, h]
  rfl

theorem step_reset {b : Block c} (hc : c.WellFormed) (h : b.nextInput.rst = true) :
    step ⟨c, b⟩ = .next ⟨c, b.openEdge.resetEdge.closeEdge⟩ :=
  step_of_edgeAction hc (by simp [edgeAction, h])

theorem step_running {b t : Block c} (hc : c.WellFormed) (h : b.nextInput.rst = false)
    (hm : b.mode = .run) (ht : b.openEdge.tick = .next t) : step ⟨c, b⟩ = .next ⟨c, t.closeEdge⟩ := by
  refine step_of_edgeAction hc ?_
  simp only [edgeAction, h]
  cases b.offeredWord with
  | none => simp [Block.plainEdge, hm, ht, onState]
  | some w =>
    change exec (decodeHostCmd w) ⟨c, b.openEdge⟩ = _
    simp [exec_decodeHostCmd, Block.offered, hm, ht, onState]

theorem step_accepting {b t : Block c} {w : CmdWord} (hc : c.WellFormed) (h : b.nextInput.rst = false)
    (hm : b.mode = .idle) (hw : b.offeredWord = some w) (ht : b.openEdge.acceptWord w = .next t) :
    step ⟨c, b⟩ = .next ⟨c, t.closeEdge⟩ := by
  refine step_of_edgeAction hc ?_
  simp only [edgeAction, h, hw]
  change exec (decodeHostCmd w) ⟨c, b.openEdge⟩ = _
  simp [exec_decodeHostCmd, Block.offered, hm, ht, onState]

theorem step_resting {b : Block c} (hc : c.WellFormed) (h : b.nextInput.rst = false)
    (hm : b.mode = .idle) (hw : b.offeredWord = none) :
    step ⟨c, b⟩ = .next ⟨c, b.openEdge.closeEdge⟩ := by
  refine step_of_edgeAction hc ?_
  simp [edgeAction, h, hw, Block.plainEdge, hm, onState]

/-- A step answers a next state wherever a running program's UPC names a micro-op. -/
theorem step_exists {b : Block c} (hc : c.WellFormed)
    (h : b.mode = .run → b.upc.toNat ≤ b.prog.lastIndex) : ∃ s, step ⟨c, b⟩ = .next s := by
  cases hr : b.nextInput.rst with
  | true => exact ⟨_, step_reset hc hr⟩
  | false =>
    cases hm : b.mode with
    | run =>
      obtain ⟨t, ht⟩ := tick_exists (b := b.openEdge) (by simpa using h hm)
      exact ⟨_, step_running hc hr hm ht⟩
    | idle =>
      cases hw : b.offeredWord with
      | none => exact ⟨_, step_resting hc hr hm hw⟩
      | some w =>
        obtain ⟨t, ht⟩ := acceptWord_exists b.openEdge w
        exact ⟨_, step_accepting hc hr hm hw ht⟩

end Sys2Proof.Machine
end

