-- ==== Sys2Proof/Laws/Invariant.lean ====
section
/-! SUPPORT. The invariant under each part of an edge: opening it, the running program's step, an acceptance, a
reset, closing it. -/

namespace Sys2Proof.Machine

variable {c : Config}

theorem Block.Inv.closeEdge {b : Block c} (h : b.Inv) : b.closeEdge.Inv :=
  ⟨h.1, h.2, h.3, h.4, h.5, h.6, h.7, h.8, h.9, h.10, h.11, h.12⟩

theorem Block.Inv.openEdge {b : Block c} (h : b.Inv) : b.openEdge.Inv where
  idle_rest := h.idle_rest
  run_count := h.run_count
  initializing_iff := h.initializing_iff
  ready_iff := h.ready_iff
  send_ready := h.send_ready
  err_iff := h.err_iff
  strobe_iff := by simpa [Block.strobing, Block.uop, Block.microProgram] using h.strobe_iff
  lines_driven := fun hu => by simpa using foreignWrite_own _ _ _ (h.lines_driven hu)
  upc_in_program := h.upc_in_program
  phase_in_script := h.phase_in_script
  phase_before_init := h.phase_before_init
  select_low := by simpa using h.select_low

theorem resetEdge_inv (b : Block c) : b.resetEdge.Inv := by
  have hl : ∀ l, b.resetEdge.line l = false := fun l => by simp [Block.line, Block.portBit]
  constructor <;> simp [hl, Block.strobing]

/-- A strobing block is followed by a STROBE_LO (spec 40_bus_signal_driver R81). -/
theorem Block.Inv.after_strobe {b : Block c} (h : b.Inv) (he : b.line .e = true) :
    b.mode = .run ∧ b.upc.toNat ≠ b.prog.lastIndex ∧
      b.uop b.prog (b.upc.toNat + 1) = some .strobeLo := by
  obtain ⟨hm, hu⟩ := h.strobe_iff.1 he
  have hle := h.upc_in_program hm
  have h58 := lastIndex_le b.prog
  have hne : b.upc.toNat ≠ b.prog.lastIndex := fun e => uop_last_ne_strobeHi b b.prog (e ▸ hu)
  exact ⟨hm, hne, uop_after_strobeHi b _ _ (by omega) hu⟩

theorem phase_step {b : Block c} (i : Nat) (u : MicroOp) (h : b.ctrlPhase = phaseAt i) :
    (b.beginOp .init (i + 1) u).ctrlPhase = phaseAt (i + 1) := by
  rw [beginOp_ctrlPhase]
  simp only [true_and]
  unfold phaseAt at *
  split_ifs at * <;> first | rfl | assumption | omega

/-- Ending a program keeps the invariant. -/
theorem finish_inv {b : Block c} (hm : b.mode = .run) (h : b.Inv)
    (hl : b.upc.toNat = b.prog.lastIndex) : b.finish.Inv := by
  have hs : b.line .e = false := by
    by_contra hcon
    exact (h.after_strobe (by simpa using hcon)).2.1 hl
  cases hp : b.prog with
  | init =>
    have hi : b.initState = .initializing := h.initializing_iff.2 ⟨hm, hp⟩
    have hf : b.finish = { b with
        mode := .idle, upc := 0#6, cnt := 0#c.cntWidth
        initState := .ready, ctrlPhase := .operational } := by
      simp [Block.finish, hp]
    rw [hf]
    constructor <;> simp [Block.strobing]
    · exact h.err_iff
    · simpa [Block.line, Block.portBit] using hs
    · exact h.lines_driven (by simp [hi])
  | send =>
    have hr := h.send_ready hp hm
    have hf : b.finish = { b with mode := .idle, upc := 0#6, cnt := 0#c.cntWidth } := by
      simp [Block.finish, hp]
    rw [hf]
    constructor <;> simp [Block.strobing, hr]
    · exact h.ready_iff.1 hr
    · exact h.err_iff
    · simpa [Block.line, Block.portBit] using hs
    · exact h.lines_driven (by simp [hr])

theorem duration_pos (hc : c.WellFormed) (u : MicroOp) : 1 ≤ duration c u := by
  cases u <;> first
    | exact le_refl 1
    | exact hc.cycles_pos .setup
    | exact hc.cycles_pos .eh
    | exact hc.cycles_pos .el
    | exact hc.cycles_pos _

theorem duration_lt (hc : c.WellFormed) (u : MicroOp) : duration c u < 2 ^ c.cntWidth := by
  have h1 : 1 < 2 ^ c.cntWidth := lt_of_le_of_lt (hc.cycles_pos .eh) (hc.cycles_lt .eh)
  cases u <;> first
    | exact h1
    | exact hc.cycles_lt .setup
    | exact hc.cycles_lt .eh
    | exact hc.cycles_lt .el
    | exact hc.cycles_lt _

/-- CNT holds every duration of a well-formed configuration (WF6). -/
theorem duration_toNat (hc : c.WellFormed) (u : MicroOp) :
    (BitVec.ofNat c.cntWidth (duration c u)).toNat = duration c u := by
  rw [BitVec.toNat_ofNat, Nat.mod_eq_of_lt (duration_lt hc u)]

/-- The running program's step keeps the invariant. -/
theorem tick_inv (hc : c.WellFormed) {b t : Block c} (hm : b.mode = .run) (h : b.Inv) (ht : b.Tick t) :
    t.Inv := by
  have hle := h.upc_in_program hm
  have h58 := lastIndex_le b.prog
  cases ht with
  | counts h1 =>
    exact { h with
      idle_rest := fun e => by simp [hm] at e
      run_count := fun _ => by rw [countDown_toNat h1]; omega }
  | ends h1 hl => exact finish_inv hm h hl
  | starts h1 hl u hu =>
    have hi1 := uop_le hu
    have hto : (BitVec.ofNat 6 (b.upc.toNat + 1)).toNat = b.upc.toNat + 1 := by
      rw [BitVec.toNat_ofNat, Nat.mod_eq_of_lt]; omega
    have hsd : u ≠ .setDir := by
      rintro rfl
      have := (uop_setDir _ _ _ hu).2
      omega
    have hE : (b.entry u).line .e = true ↔ u = .strobeHi := by
      rw [Block.entry_line_e hc]
      by_cases hb : b.line .e = true
      · have := (h.after_strobe hb).2.2
        rw [hu] at this; cases this
        simp [strobeAfter]
      · cases u <;> simp_all [strobeAfter]
    constructor
    · simp
    · intro _
      rw [Block.beginOp_cnt, duration_toNat hc]
      exact duration_pos hc u
    · simpa [hm] using h.initializing_iff
    · have key : b.initState ≠ .ready → b.ctrlPhase ≠ .operational := fun a b => a (h.ready_iff.2 b)
      rw [beginOp_ctrlPhase]
      simp only [Block.beginOp_initState]
      by_cases hp : b.prog = .init
      · have hi : b.initState = .initializing := h.initializing_iff.2 ⟨hm, hp⟩
        have := key (by simp [hi])
        split_ifs <;> simp [hi]
        exact this
      · simp [hp]; exact h.ready_iff
    · simpa [hm] using h.send_ready
    · simpa using h.err_iff
    · rw [beginOp_line, hE]
      simp only [Block.strobing, Block.beginOp_mode, Block.beginOp_prog, Block.beginOp_upc, hto, true_and]
      rw [uop_congr (b := b) (by simp) (by simp) (by simp), hu]; simp
    · simp [hsd]; exact h.lines_driven
    · simp [hto]; omega
    · intro hi
      simp only [Block.beginOp_initState] at hi
      have hp := (h.initializing_iff.1 hi).2
      have := h.phase_in_script hi
      simp only [Block.beginOp_upc, hto]
      rw [hp]
      exact phase_step _ _ this
    · intro hi
      simp only [Block.beginOp_initState] at hi
      have := h.phase_before_init hi
      have hp : b.prog ≠ .init := fun hp => by
        have := h.initializing_iff.2 ⟨hm, hp⟩; simp [hi] at this
      rw [beginOp_ctrlPhase]; simp [hp, this]
    · intro hi
      simp only [Block.beginOp_initState] at hi
      have hl := h.select_low hi
      have hp : b.prog = .init := by
        by_contra hp
        have : b.prog = .send := by cases hq : b.prog <;> simp_all
        exact hi (h.send_ready this hm)
      rw [beginOp_line, Block.entry_line_rs hc]
      cases u <;> simp_all [selectAfter]
      exact uop_setRs_init _ _ _ hu

/-- An acceptance keeps the invariant. -/
theorem accept_inv (hc : c.WellFormed) {b t : Block c} (hm : b.mode = .idle) (h : b.Inv)
    (ht : b.Accept t) : t.Inv := by
  have hE : b.line .e = false := by
    by_contra hcon
    have := (h.strobe_iff.1 (by simpa using hcon)).1
    simp [hm] at this
  have hi0 : b.initState ≠ .initializing := fun e => by
    have := (h.initializing_iff.1 e).1; simp [hm] at this
  have h1lt : 1 < 2 ^ c.cntWidth := lt_of_le_of_lt (hc.cycles_pos .eh) (hc.cycles_lt .eh)
  cases ht with
  | error e he =>
    have hline : ∀ l, (b.raiseError e).line l = b.line l := fun l => Block.line_congr (by simp) l
    constructor <;> simp [hm, hline, Block.strobing, hi0]
    · exact h.idle_rest hm
    · exact h.ready_iff
    · cases hb : b.err
      · simp [he]
      · have := h.err_iff; simp_all
    · exact hE
    · exact h.lines_driven
    · exact h.phase_before_init
    · exact h.select_low
  | init hr =>
    have hu : b.initState = .uninit := by cases hq : b.initState <;> simp_all
    have hph := h.phase_before_init hu
    constructor <;> simp [Block.strobing, duration, beginOp_ctrlPhase, hph, or_own_and_own, beginOp_line,
      Block.entry_line_e hc, Block.entry_line_rs hc, strobeAfter, selectAfter, uop_init_zero]
    · rw [Nat.mod_eq_of_lt h1lt]
    · exact h.err_iff
    · simpa [Block.line, Block.portBit] using hE
    · simp [phaseAt]
    · simpa [Block.line, Block.portBit] using h.select_low hr
  | send rs y k hr =>
    have hop := h.ready_iff.1 hr
    have d1 := hc.cycles_pos .setup
    have d2 := hc.cycles_lt .setup
    constructor <;> simp [Block.strobing, duration, beginOp_ctrlPhase, hop, hr]
    · exact Nat.mod_eq_of_lt d2 ▸ d1
    · exact h.err_iff
    · rw [beginOp_line, Block.entry_line_e hc, uop_congr (b := b.latch rs y k) (by simp) (by simp) (by simp),
        uop_send_zero]
      simp [strobeAfter]
    · exact h.lines_driven (by simp [hr])

end Sys2Proof.Machine
end

