-- ==== Sys2Proof/Laws/PerInstr.lean ====
section
/-! SUPPORT. Per-instruction laws of the syntax.  `EncodesItsRow`: an instruction's encoding is as wide as its
format says, and its own row of the opcode table selects it, and no other row of its format does. -/

namespace Sys2Proof.Laws.EncodesItsRow

/-- The encoding fits its format, and the rows that select it are exactly the instruction's own. -/
def Statement (i : Instr) : Prop :=
  encode i < 2 ^ i.format.width ∧
    (opcodeRows.filter fun r => r.selects i.format (encode i)).map (·.name) = [i.mnemonic]

theorem init (p : Byte) : Statement (.init p) := by
  unfold Statement; revert p; decide

theorem sendInstr (b : Byte) : Statement (.sendInstr b) := by
  unfold Statement; revert b; decide

theorem sendData (b : Byte) : Statement (.sendData b) := by
  unfold Statement; revert b; decide

theorem reserved (p : Byte) : Statement (.reserved p) := by
  unfold Statement; revert p; decide

theorem clearDisplay : Statement .clearDisplay := by
  unfold Statement; decide

theorem homeCursor (x : Bool) : Statement (.homeCursor x) := by
  unfold Statement; revert x; decide

theorem entryModeSet (i s : Bool) : Statement (.entryModeSet i s) := by
  unfold Statement; revert i s; decide

theorem displayOnOff (d c b : Bool) : Statement (.displayOnOff d c b) := by
  unfold Statement; revert d c b; decide

theorem functionReset (n f : Bool) (x : BitVec 2) : Statement (.functionReset n f x) := by
  unfold Statement; revert n f x; decide

theorem functionSet4Bit (n f : Bool) (x : BitVec 2) : Statement (.functionSet4Bit n f x) := by
  unfold Statement; revert n f x; decide

theorem setCursorPosition (a : BitVec 7) : Statement (.setCursorPosition a) := by
  unfold Statement; revert a; decide

theorem nibReset : Statement .nibReset := by
  unfold Statement; decide

theorem nib4Bit : Statement .nib4Bit := by
  unfold Statement; decide

end Sys2Proof.Laws.EncodesItsRow
end

