-- ==== Sys2Proof/Laws/Run.lean ====
section
/-! SUPPORT. Runs in a quiet outside: one micro-op as a whole (`doOp`), a list of micro-ops (`doOps`), and a
micro-program from its acceptance to its end, with the number of edges each takes. -/

namespace Sys2Proof.Machine

variable {c : Config}

/-! ### Composing runs -/

theorem run_add {a n : Nat} {s t : State} (h : Host.Core.run Sys2Proof.core a s = .next t) :
    Host.Core.run Sys2Proof.core (a + n) s = Host.Core.run Sys2Proof.core n t := by
  induction a generalizing s with
  | zero => cases h; simp
  | succ a ih =>
    rw [Nat.succ_add]
    simp only [Host.Core.run] at h ⊢
    cases hs : Sys2Proof.core.step s with
    | next u => rw [hs] at h; exact ih h
    | fault _ => rw [hs] at h; cases h
    | refused _ => rw [hs] at h; cases h

theorem run_one {s t : State} (h : step s = .next t) : Host.Core.run Sys2Proof.core 1 s = .next t := by
  have h' : Sys2Proof.core.step s = .next t := h
  simp only [Host.Core.run, h']

theorem run_step {n : Nat} {s t : State} (h : step s = .next t) :
    Host.Core.run Sys2Proof.core (n + 1) s = Host.Core.run Sys2Proof.core n t := by
  rw [Nat.add_comm]; exact run_add (run_one h)

/-! ### The quiet outside -/

theorem Block.Quiet.nextInput {b : Block c} (h : b.Quiet) : b.nextInput = EdgeInput.quiet c.portWidth := by
  simp [Block.nextInput, h.edgeInputs]

/-- No reset comes from a quiet outside. -/
theorem Block.Quiet.no_reset {b : Block c} (h : b.Quiet) (k : Nat) : (b.inputAt k).rst = false := by
  simp [Block.inputAt, h.edgeInputs, EdgeInput.quiet]

/-- A block with the same outside is as quiet. -/
theorem Block.Quiet.congr {b t : Block c} (h : b.Quiet) (he : t.edgeInputs = b.edgeInputs)
    (hp : t.hostPauses = b.hostPauses) : t.Quiet := ⟨he.trans h.1, hp.trans h.2⟩

theorem foreignWrite_none (x : BitVec c.portWidth) : foreignWrite c x 0#c.portWidth 0#c.portWidth = x := by
  refine BitVec.eq_of_getLsbD_eq fun i _ => ?_
  simp [foreignWrite_bit]

theorem Block.Quiet.offeredWord {b : Block c} (h : b.Quiet) : b.offeredWord = b.hostWords.head? := by
  simp [Block.offeredWord, h.hostPauses]

/-- What opening a quiet edge changes: the host's words, where one is consumed. -/
theorem Block.Quiet.openEdge {b : Block c} (h : b.Quiet) :
    b.openEdge = { b with hostWords := b.wordsAfter } := by
  simp only [Block.openEdge, h.edgeInputs, h.hostPauses, h.nextInput, pausesAfter, List.tail_nil,
    EdgeInput.quiet, OtherWrite.none, Block.othersWrite, foreignWrite_none]

/-- A quiet edge of a running program changes nothing before the sequencer steps. -/
theorem Block.Quiet.openEdge_run {b : Block c} (h : b.Quiet) (hm : b.mode = .run) : b.openEdge = b := by
  rw [h.openEdge, wordsAfter_run hm]

/-- A quiet edge of a block at rest takes the host's next word, if there is one. -/
theorem Block.Quiet.openEdge_idle {b : Block c} (h : b.Quiet) (hm : b.mode = .idle) :
    b.openEdge = { b with hostWords := b.hostWords.tail } := by
  have hw : b.wordsAfter = b.hostWords.tail := by
    cases hh : b.hostWords <;>
      simp [Block.wordsAfter, Block.handshake, Block.cmdReady, h.nextInput, h.offeredWord, hm, hh,
        EdgeInput.quiet]
  rw [h.openEdge, hw]

theorem quiet_step_run {b t : Block c} (hc : c.WellFormed) (h : b.Quiet) (hm : b.mode = .run)
    (ht : b.tick = .next t) : step ⟨c, b⟩ = .next ⟨c, t.closeEdge⟩ :=
  step_running hc (by simp [h.nextInput, EdgeInput.quiet]) hm (by rwa [h.openEdge_run hm])

/-! ### One micro-op -/

/-- The micro-op in progress has `n` cycles fewer left, `n` edges later. -/
def Block.elapse (b : Block c) (n : Nat) : Block c :=
  { b with cnt := b.cnt - BitVec.ofNat c.cntWidth n, edge := b.edge + n }

theorem elapse_zero (b : Block c) : b.elapse 0 = b := by
  simp [Block.elapse]

/-- While cycles are left, a quiet run only counts. -/
theorem run_elapse (hc : c.WellFormed) {b : Block c} (h : b.Quiet) (hm : b.mode = .run) (n : Nat)
    (hn : n < b.cnt.toNat) : Host.Core.run Sys2Proof.core n ⟨c, b⟩ = .next ⟨c, b.elapse n⟩ := by
  induction n with
  | zero => rw [elapse_zero]; rfl
  | succ n ih =>
    have hlt := b.cnt.isLt
    have e : (b.elapse n).cnt.toNat = b.cnt.toNat - n := by
      show (b.cnt - BitVec.ofNat c.cntWidth n).toNat = _
      rw [BitVec.toNat_sub, BitVec.toNat_ofNat, Nat.mod_eq_of_lt (a := n) (by omega)]
      rw [show 2 ^ c.cntWidth - n + b.cnt.toNat = (b.cnt.toNat - n) + 2 ^ c.cntWidth by omega,
        Nat.add_mod_right, Nat.mod_eq_of_lt (by omega)]
    rw [run_add (ih (by omega))]
    have ht : (b.elapse n).tick = .next (b.elapse n).countDown := by
      rw [Block.tick, if_pos (by omega)]
    have hs := quiet_step_run hc (b := b.elapse n) (h.congr rfl rfl) hm ht
    rw [run_one hs]
    congr 2
    simp only [Block.elapse, Block.countDown, Block.closeEdge]
    congr 1
    rw [BitVec.sub_sub]
    congr 1
    rw [BitVec.ofNat_add]

/-- A running program whose next edge begins micro-op `i` of `p`, in a quiet outside. -/
structure Block.Before (b : Block c) (p : Program) (i : Nat) : Prop where
  quiet : b.Quiet
  mode : b.mode = .run
  prog : b.prog = p
  upc : b.upc.toNat + 1 = i
  cnt : b.cnt.toNat ≤ 1

/-- Micro-op `u`, number `i` of `p`, from the edge that begins it to its last cycle. -/
def Block.doOp (b : Block c) (p : Program) (i : Nat) (u : MicroOp) : Block c :=
  { b.beginOp p i u with cnt := 1#c.cntWidth, edge := b.edge + duration c u }

/-- A list of micro-ops of `p`, from number `i` on. -/
def Block.doOps (b : Block c) (p : Program) : Nat → List MicroOp → Block c
  | _, [] => b
  | i, u :: us => (b.doOp p i u).doOps p (i + 1) us

/-- The cycles of a list of micro-ops. -/
def opsCycles (c : Config) (us : List MicroOp) : Nat := (us.map (duration c)).sum

/-- A micro-op that has just begun runs to its last cycle. -/
theorem run_rest_of_op (hc : c.WellFormed) {b : Block c} (hq : b.Quiet) (p : Program) (i : Nat) (u : MicroOp) :
    Host.Core.run Sys2Proof.core (duration c u - 1) ⟨c, (b.beginOp p i u).closeEdge⟩ =
      .next ⟨c, b.doOp p i u⟩ := by
  have hp := duration_pos hc u
  have hl := duration_lt hc u
  have hcnt : ((b.beginOp p i u).closeEdge).cnt.toNat = duration c u := by
    simp [Nat.mod_eq_of_lt hl]
  rw [run_elapse hc (hq.congr (by simp) (by simp)) (by simp) _ (by omega)]
  congr 2
  simp only [Block.elapse, Block.doOp, Block.closeEdge, Block.beginOp_cnt, Block.beginOp_edge]
  have e1 : BitVec.ofNat c.cntWidth (duration c u) - BitVec.ofNat c.cntWidth (duration c u - 1) =
      1#c.cntWidth := by
    apply BitVec.eq_of_toNat_eq
    have h1 : 1 < 2 ^ c.cntWidth := lt_of_le_of_lt (hc.cycles_pos .eh) (hc.cycles_lt .eh)
    rw [BitVec.toNat_sub, BitVec.toNat_ofNat, BitVec.toNat_ofNat, BitVec.toNat_ofNat,
      Nat.mod_eq_of_lt hl, Nat.mod_eq_of_lt (a := duration c u - 1) (by omega), Nat.mod_eq_of_lt h1]
    rw [show 2 ^ c.cntWidth - (duration c u - 1) + duration c u = 1 + 2 ^ c.cntWidth by omega,
      Nat.add_mod_right, Nat.mod_eq_of_lt h1]
  rw [e1, show b.edge + 1 + (duration c u - 1) = b.edge + duration c u by omega]

/-- After a micro-op the next one is due. -/
theorem doOp_before (hc : c.WellFormed) {b : Block c} (hq : b.Quiet) (p : Program) {i : Nat} (u : MicroOp)
    (hi : i ≤ 58) : (b.doOp p i u).Before p (i + 1) where
  quiet := hq.congr (by simp [Block.doOp]) (by simp [Block.doOp])
  mode := by simp [Block.doOp]
  prog := by simp [Block.doOp]
  upc := by
    show (b.beginOp p i u).upc.toNat + 1 = i + 1
    simp; omega
  cnt := by
    have h1 : 1 < 2 ^ c.cntWidth := lt_of_le_of_lt (hc.cycles_pos .eh) (hc.cycles_lt .eh)
    show (1#c.cntWidth).toNat ≤ 1
    rw [BitVec.toNat_ofNat, Nat.mod_eq_of_lt h1]

/-- One micro-op of a running program, from edge to edge. -/
theorem run_op (hc : c.WellFormed) {b : Block c} {p : Program} {i : Nat} {u : MicroOp} (h : b.Before p i)
    (hu : b.uop p i = some u) :
    Host.Core.run Sys2Proof.core (duration c u) ⟨c, b⟩ = .next ⟨c, b.doOp p i u⟩ := by
  have hle := uop_le hu
  have hp := duration_pos hc u
  have ht : b.tick = .next (b.beginOp p i u) := by
    rw [Block.tick, if_neg (by have := h.cnt; omega), if_neg (by rw [h.prog]; have := h.upc; omega),
      h.prog, h.upc, start_eq hu]
  have hs := quiet_step_run hc h.quiet h.mode ht
  rw [show duration c u = (duration c u - 1) + 1 by omega, run_step hs]
  exact run_rest_of_op hc h.quiet p i u

/-- The micro-programs do not change while they run. -/
theorem doOp_uop (b : Block c) (p q : Program) (i j : Nat) (u : MicroOp) :
    (b.doOp p i u).uop q j = b.uop q j :=
  uop_congr (by simp [Block.doOp]) (by simp [Block.doOp]) (by simp [Block.doOp]) q j

/-- A stretch of a micro-program. -/
theorem run_ops (hc : c.WellFormed) (p : Program) (us : List MicroOp) :
    ∀ (b : Block c) (i : Nat), b.Before p i → (∀ k, (hk : k < us.length) → b.uop p (i + k) = some us[k]) →
      Host.Core.run Sys2Proof.core (opsCycles c us) ⟨c, b⟩ = .next ⟨c, b.doOps p i us⟩ := by
  induction us with
  | nil => intro b i _ _; rfl
  | cons u us ih =>
    intro b i h hu
    have h0 := hu 0 (by simp)
    simp only [Nat.add_zero, List.getElem_cons_zero] at h0
    have hi := uop_le h0
    have h58 := lastIndex_le p
    have hb := doOp_before hc h.quiet p u (i := i) (by omega)
    have hrest : ∀ k, (hk : k < us.length) → (b.doOp p i u).uop p (i + 1 + k) = some us[k] := by
      intro k hk
      rw [doOp_uop, show i + 1 + k = i + (k + 1) by omega]
      exact hu (k + 1) (by simpa using hk)
    have e : opsCycles c (u :: us) = duration c u + opsCycles c us := by simp [opsCycles]
    rw [e, run_add (run_op hc h h0)]
    exact ih _ _ hb hrest

/-- A micro-program from the block that has accepted its command: its first micro-op begins at the
acceptance edge, the program ends one edge after its last cycle (spec 41_protocol_driver R96, R99). -/
theorem run_program (hc : c.WellFormed) {b : Block c} (hq : b.Quiet) (p : Program) (u : MicroOp)
    (us : List MicroOp) (hus : b.microProgram p = u :: us) :
    Host.Core.run Sys2Proof.core (opsCycles c (u :: us)) ⟨c, (b.beginOp p 0 u).closeEdge⟩ =
      .next ⟨c, (b.doOps p 0 (u :: us)).finish.closeEdge⟩ := by
  have hp := duration_pos hc u
  have hlen : us.length = p.lastIndex := by
    have := microProgram_length b p
    rw [hus] at this
    simpa using this
  have hb := doOp_before hc hq p u (i := 0) (by omega)
  have hops := run_ops hc p us (b.doOp p 0 u) 1 hb (by
    intro k hk
    rw [doOp_uop, Block.uop, hus, Nat.add_comm 1 k, List.getElem?_cons_succ, List.getElem?_eq_getElem hk])
  have e : opsCycles c (u :: us) = (duration c u - 1) + (opsCycles c us + 1) := by
    simp only [opsCycles, List.map_cons, List.sum_cons]; omega
  rw [e, run_add (run_rest_of_op hc hq p 0 u), run_add hops]
  -- the edge that ends the program
  have hend : ∀ (vs : List MicroOp) (x : Block c) (i : Nat), x.Before p i → i + vs.length ≤ 59 →
      (x.doOps p i vs).Before p (i + vs.length) := by
    intro vs
    induction vs with
    | nil => intro x i hx _; exact hx
    | cons v vs ih =>
      intro x i hx hle
      simp only [List.length_cons] at hle
      have := ih _ _ (doOp_before hc hx.quiet p v (i := i) (by omega)) (by omega)
      simpa [Block.doOps, Nat.add_comm, Nat.add_left_comm, Nat.add_assoc] using this
  have hl := lastIndex_le p
  have hB : ((b.doOp p 0 u).doOps p 1 us).Before p (1 + us.length) := hend us _ _ hb (by omega)
  have hfin : (b.doOps p 0 (u :: us)).tick = .next (b.doOps p 0 (u :: us)).finish := by
    change ((b.doOp p 0 u).doOps p 1 us).tick = .next ((b.doOp p 0 u).doOps p 1 us).finish
    rw [Block.tick, if_neg (by have := hB.cnt; omega), if_pos (by rw [hB.prog]; have := hB.upc; omega)]
  exact run_one (quiet_step_run hc hB.quiet hB.mode hfin)

/-! ### What a stretch of a micro-program leaves -/

theorem opsCycles_append (us vs : List MicroOp) :
    opsCycles c (us ++ vs) = opsCycles c us + opsCycles c vs := by
  simp only [opsCycles, List.map_append, List.sum_append]

theorem opsCycles_single (u : MicroOp) : opsCycles c [u] = duration c u := by simp [opsCycles]

theorem doOps_append (b : Block c) (p : Program) (i : Nat) (us vs : List MicroOp) :
    b.doOps p i (us ++ vs) = (b.doOps p i us).doOps p (i + us.length) vs := by
  induction us generalizing b i with
  | nil => simp [Block.doOps]
  | cons u us ih =>
    simp only [List.cons_append, Block.doOps, ih, List.length_cons]
    congr 1
    omega

theorem doOp_port (b : Block c) (p : Program) (i : Nat) (u : MicroOp) :
    (b.doOp p i u).port = (b.entry u).port := by
  change (b.beginOp p i u).port = _
  rw [beginOp_port]
  exact entry_port_congr (by simp) u

theorem doOp_portBit (b : Block c) (p : Program) (i : Nat) (u : MicroOp) (q : Nat) :
    (b.doOp p i u).portBit q = (b.entry u).portBit q := by
  simp [Block.portBit, doOp_port]

theorem doOp_line (b : Block c) (p : Program) (i : Nat) (u : MicroOp) (l : Line) :
    (b.doOp p i u).line l = (b.entry u).line l := Block.line_congr (doOp_port _ _ _ _) l

theorem doOp_ddr (b : Block c) (p : Program) (i : Nat) (u : MicroOp) :
    (b.doOp p i u).ddr = if u = .setDir then b.ddr ||| ownMask c else b.ddr := beginOp_ddr _ _ _ _

theorem doOp_commits (b : Block c) (p : Program) (i : Nat) (u : MicroOp) :
    (b.doOp p i u).commits = b.commits ++
      if u = .strobeLo then [⟨b.edge, b.line .rs, b.nibbleOnLines⟩] else [] :=
  beginOp_commits _ _ _ _

theorem doOp_edge (b : Block c) (p : Program) (i : Nat) (u : MicroOp) :
    (b.doOp p i u).edge = b.edge + duration c u := rfl

/-- Only a STROBE_LO moves the controller observer. -/
theorem doOp_controller (b : Block c) (p : Program) (i : Nat) (u : MicroOp) :
    (b.doOp p i u).controller =
      if u = .strobeLo then (b.observe p i (b.line .rs) b.nibbleOnLines).controller
      else b.controller := by
  change (b.beginOp p i u).controller = _
  cases u <;> simp [Block.beginOp, Block.sense, Block.entry, Block.markPhase] <;> split_ifs <;> simp

/-- What no micro-op touches. -/
theorem doOps_same (b : Block c) (p : Program) (us : List MicroOp) (i : Nat) :
    (b.doOps p i us).hostWords = b.hostWords ∧ (b.doOps p i us).hostPauses = b.hostPauses ∧
    (b.doOps p i us).edgeInputs = b.edgeInputs ∧
    b.SameLatches (b.doOps p i us) ∧ b.SameErrors (b.doOps p i us) ∧
    (b.doOps p i us).initState = b.initState := by
  induction us generalizing b i with
  | nil => exact ⟨rfl, rfl, rfl, ⟨rfl, rfl, rfl⟩, ⟨rfl, rfl⟩, rfl⟩
  | cons u us ih =>
    obtain ⟨a1, a0, a2, a3, a4, a5⟩ := ih (b.doOp p i u) (i + 1)
    simp only [Block.doOps]
    exact ⟨a1.trans (by simp [Block.doOp]), a0.trans (by simp [Block.doOp]), a2.trans (by simp [Block.doOp]),
      ⟨a3.1.trans (by simp [Block.doOp]), a3.2.trans (by simp [Block.doOp]),
        a3.3.trans (by simp [Block.doOp])⟩,
      ⟨a4.1.trans (by simp [Block.doOp]), a4.2.trans (by simp [Block.doOp])⟩,
      a5.trans (by simp [Block.doOp])⟩

/-- A SEND program does not move CTRL_PHASE. -/
theorem doOps_send_ctrlPhase (b : Block c) (us : List MicroOp) (i : Nat) :
    (b.doOps .send i us).ctrlPhase = b.ctrlPhase := by
  induction us generalizing b i with
  | nil => rfl
  | cons u us ih =>
    simp only [Block.doOps, ih]
    change (b.beginOp .send i u).ctrlPhase = _
    rw [beginOp_ctrlPhase]
    simp

theorem doOps_prog (b : Block c) (p : Program) (u : MicroOp) (us : List MicroOp) (i : Nat) :
    (b.doOps p i (u :: us)).prog = p := by
  induction us generalizing b i u with
  | nil => simp [Block.doOps, Block.doOp]
  | cons v us ih => exact ih _ _ _

end Sys2Proof.Machine
end

