-- ==== Sys2Proof/Tests/Slice0.lean ====
section
/-! SUPPORT. The model's own tests.  Expected values are the spec's: the encodings of 30_encoding, the worked
examples and the vectors of 95_test_vectors.  The second half gives, for every obligation with hypotheses,
a concrete state and operands that meet them. -/

namespace Sys2Proof.Tests

open Sys2Proof.Machine

/-! ### Configurations that the checks refuse (spec 00_scope R16) -/

/-- CFG_EX with other values. -/
abbrev cx : Config := Config.cfgEx

theorem test_cfgEx_accepted : cx.wellFormed = true := by decide
theorem test_wf1_refuses : ({ cx with portWidth := 5 } : Config).wf1 = false := by decide
theorem test_wf2_refuses_shared_pin : ({ cx with pinE := 0 } : Config).wf2 = false := by decide
theorem test_wf2_refuses_high_pin : ({ cx with pinE := 8 } : Config).wf2 = false := by decide
theorem test_wf3_refuses : ({ cx with nSetup := 0 } : Config).wf3 = false := by decide
theorem test_wf4_refuses : ({ cx with nPowerOn := 39999 } : Config).wf4 = false := by decide
theorem test_wf5_refuses : ({ cx with nClear := 10000 } : Config).wf5 = false := by decide
theorem test_wf6_refuses : ({ cx with cntWidth := 15 } : Config).wf6 = false := by decide
/-- WF7 cannot fail: the types say it. -/
theorem test_wf7_by_type : ∀ n : Nibble, n.toNat ≤ 15 := by decide
theorem test_clock_range_refuses : ({ cx with clkHz := 0 } : Config).wfRange = false := by decide
theorem test_counter_range_refuses : ({ cx with hostUintBits := 0 } : Config).wfRange = false := by decide
theorem test_each_check_counts :
    [({ cx with portWidth := 5 } : Config), { cx with pinE := 0 }, { cx with pinE := 8 },
     { cx with nSetup := 0 }, { cx with nPowerOn := 39999 }, { cx with nClear := 10000 },
     { cx with cntWidth := 15 }, { cx with clkHz := 0 }, { cx with hostUintBits := 0 }].all
      (fun k => !k.wellFormed) = true := by decide

/-- An ill-formed machine refuses its step by name. -/
theorem test_step_refuses_ill_formed :
    step ⟨{ cx with nSetup := 0 }, Block.reset _⟩ = .refused .illFormedConfiguration := rfl

theorem test_setpos_range : (HostLine.setPos 127).wellFormed cx = true ∧
    (HostLine.setPos 128).wellFormed cx = false := by decide
theorem test_printnum_range : (HostLine.printNum 4294967295).wellFormed cx = true ∧
    (HostLine.printNum 4294967296).wellFormed cx = false := by decide
theorem test_tick_range : (HostLine.tick 4294967296).wellFormed cx = false := by decide
theorem test_refused_line_gives_no_command : expandLine cx (.setPos 128) = none := by decide

/-! ### Words written out from the encodings (spec 30_encoding R58, R59, R62, R64) -/

theorem test_decode_init : decodeTableWord 10 0b0000000000 = some (.init 0x00#8) := by decide
theorem test_decode_sendInstr : decodeTableWord 10 0b0100000010 = some (.sendInstr 0x02#8) := by decide
theorem test_decode_sendData : decodeTableWord 16 0b1001000001 = some (.sendData 0x41#8) := by decide
theorem test_decode_reserved : decodeTableWord 16 0b1100000001 = some (.reserved 0x01#8) := by decide
theorem test_decode_clearDisplay : decodeTableWord 8 0b00000001 = some .clearDisplay := by decide
theorem test_decode_homeCursor : decodeTableWord 8 0b00000010 = some (.homeCursor false) := by decide
theorem test_decode_entryModeSet :
    decodeTableWord 8 0b00000101 = some (.entryModeSet false true) := by decide
theorem test_decode_displayOnOff :
    decodeTableWord 8 0b00001001 = some (.displayOnOff false false true) := by decide
theorem test_decode_functionReset :
    decodeTableWord 8 0b00110110 = some (.functionReset false true 2#2) := by decide
theorem test_decode_functionSet4Bit :
    decodeTableWord 8 0b00101001 = some (.functionSet4Bit true false 1#2) := by decide
theorem test_decode_setCursorPosition :
    decodeTableWord 8 0b11111110 = some (.setCursorPosition 0x7E#7) := by decide
theorem test_decode_nibReset : decodeTableWord 4 0b0011 = some .nibReset := by decide
theorem test_decode_nib4Bit : decodeTableWord 4 0b0010 = some .nib4Bit := by decide
/-- Bytes outside the closed set (spec 30_encoding R67), and words too wide. -/
theorem test_decode_rejects :
    [0x00, 0x10, 0x1F, 0x40, 0x7F].all (fun w => (decodeTableWord 8 w).isNone) = true ∧
    decodeTableWord 4 0b0100 = none ∧ decodeTableWord 8 0x100 = none ∧
    decodeTableWord 10 0x400 = none := by decide
/-- No two rows of one format select the same byte (spec 30_encoding R73). -/
theorem test_rows_do_not_overlap :
    ∀ b : Byte, (opcodeRows.filter fun r => r.selects .lcdInstr b.toNat).length ≤ 1 := by decide

/-! ### Small states on CFG_EX -/

/-- A controller with known contents, for states that are compared or printed. -/
def aController : Controller := ⟨.fourBit, 0#1, false, 0#4⟩

/-- A block at rest with the given initialisation state and ports, in a quiet outside. -/
def rest (i : InitState) (k : CtrlPhase) (port ddr : BitVec 8) (words : List CmdWord) : Block cx :=
  { Block.reset cx with
    initState := i, ctrlPhase := k, port := port, ddr := ddr, hostWords := words
    controller := aController }

/-- After reset, with words to offer. -/
def fresh (words : List CmdWord) : Block cx := rest .uninit .uninitialized 0x00#8 0x00#8 words

/-- After the INIT script (PORT 0xC0, DDR 0xF3: spec 41_protocol_driver R91), with words to offer. -/
def readyRest (words : List CmdWord) : Block cx := rest .ready .operational 0xC0#8 0xF3#8 words

/-- The INIT script in micro-op `i` with `n` cycles left. -/
def inScript (i n : Nat) (port : BitVec 8) : Block cx :=
  { rest .initializing (phaseAt i) port 0xF3#8 [0x241#10] with
    mode := .run, prog := .init, upc := BitVec.ofNat 6 i, cnt := BitVec.ofNat 16 n }

/-- The SEND program for (1, 0x41) in micro-op `i` with `n` cycles left. -/
def inSend (i n : Nat) (port : BitVec 8) : Block cx :=
  { rest .ready .operational port 0xF3#8 [0x241#10] with
    mode := .run, prog := .send, upc := BitVec.ofNat 6 i, cnt := BitVec.ofNat 16 n
    latchRs := true, latchByte := 0x41#8, postClass := .data }

/-- The same block with the given signals at the coming edge. -/
def signals (b : Block cx) (x : EdgeInput 8) : Block cx := { b with edgeInputs := [x] }

/-- The same block with a host that lets `n` edges pass before it offers its next word. -/
def pausing (b : Block cx) (n : Nat) : Block cx := { b with hostPauses := [n] }

/-- An edge with reset. -/
def resetInput : EdgeInput 8 := ⟨true, OtherWrite.none 8⟩

/-- An edge at which another user sets PORT and DDR bits 2 and 3. -/
def othersInput : EdgeInput 8 := ⟨false, ⟨0x0C#8, 0x0C#8, 0x0C#8, 0x0C#8⟩⟩

/-- What a test looks at: PORT, DDR, STATUS, CNT and the commits' events. -/
structure View where
  port : Nat
  ddr : Nat
  status : Nat
  cnt : Nat
  commits : List (Bool × Nibble)
deriving DecidableEq, Repr

/-- What a test looks at after one step. -/
def view : Host.Outcome State Fault Refusal → Option View
  | .next s => some ⟨s.block.port.toNat, s.block.ddr.toNat, s.block.status.toNat, s.block.cnt.toNat,
      s.block.commits.map Commit.event⟩
  | _ => none

/-- The view after one step of a block on CFG_EX. -/
def stepView (b : Block cx) : Option View := view (step ⟨cx, b⟩)

/-- The view after an instruction's execution. -/
def execView (i : Instr) (b : Block cx) : Option View :=
  view (exec i ⟨cx, b⟩)

/-! ### Micro-ops (spec 95_test_vectors 2.1) -/

/-- PORT, DDR and the commits after a micro-op's entry action. -/
def entryView (port ddr : BitVec 8) (u : MicroOp) : Nat × Nat × List (Bool × Nibble) :=
  let t := (rest .ready .operational port ddr []).entry u
  (t.port.toNat, t.ddr.toNat, t.commits.map Commit.event)

theorem test_U1_setDir : entryView 0x00#8 0x00#8 .setDir = (0x00, 0xF3, []) := by decide
theorem test_U2_setDir_keeps_others : entryView 0x00#8 0x0C#8 .setDir = (0x00, 0xFF, []) := by decide
theorem test_U3_wait : entryView 0x30#8 0xF3#8 (.wait .reset2) = (0x30, 0xF3, []) ∧
    duration cx (.wait .reset2) = 100 := by decide
theorem test_U4_zero : entryView 0x0C#8 0xFF#8 .zero = (0x00, 0xFF, []) := by decide
theorem test_U5_setRs : entryView 0xC0#8 0xF3#8 (.setRs true) = (0xC1, 0xF3, []) := by decide
theorem test_U6_setRs : entryView 0x11#8 0xF3#8 (.setRs false) = (0x10, 0xF3, []) := by decide
theorem test_U8_putNib : entryView 0x01#8 0xF3#8 (.putNib 0x4#4) = (0x41, 0xF3, []) := by decide
theorem test_U10_putNib : entryView 0x0C#8 0xFF#8 (.putNib 0xF#4) = (0xFC, 0xFF, []) := by decide
theorem test_U11_strobeHi : entryView 0x41#8 0xF3#8 .strobeHi = (0x43, 0xF3, []) := by decide
theorem test_U12_strobeLo :
    entryView 0x43#8 0xF3#8 .strobeLo = (0x41, 0xF3, [(true, 0x4#4)]) := by decide
theorem test_U13_strobeLo :
    entryView 0xFE#8 0xFF#8 .strobeLo = (0xFC, 0xFF, [(false, 0xF#4)]) := by decide

/-! ### The instructions, one edge each (spec 95_test_vectors 2.3 to 2.6, 41_protocol_driver R91 to R107) -/

/-- V-I1, edge 0: DDR becomes 0xF3, STATUS 0x03; the payload is ignored (30_encoding R60). -/
theorem test_init_starts : execView (.init 0xFF#8) (fresh []) = some ⟨0x00, 0xF3, 0x03, 1, []⟩ := by decide
/-- A second INIT: ERR with cause REINIT, STATUS 0xEC (60_exceptions R125). -/
theorem test_init_again : execView (.init 0#8) (readyRest []) = some ⟨0xC0, 0xF3, 0xEC, 0, []⟩ := by decide
/-- R92's example: PORT 0xC0 at edge k after SEND_INSTR(0x02) from PORT 0xC0; BUSY. -/
theorem test_sendInstr_starts :
    execView (.sendInstr 0x02#8) (readyRest []) = some ⟨0xC0, 0xF3, 0xC5, 1, []⟩ := by decide
/-- V-E1: SEND_INSTR in UNINIT: STATUS 0x18, nothing sent. -/
theorem test_sendInstr_uninit :
    execView (.sendInstr 0x01#8) (fresh []) = some ⟨0x00, 0x00, 0x18, 0, []⟩ := by decide
/-- R93's example: PORT 0x00 becomes 0x01 at the acceptance of SEND_DATA. -/
theorem test_sendData_starts :
    execView (.sendData 0x41#8) (rest .ready .operational 0x00#8 0xF3#8 []) =
      some ⟨0x01, 0xF3, 0xC5, 1, []⟩ := by decide
theorem test_sendData_uninit :
    execView (.sendData 0x41#8) (fresh []) = some ⟨0x00, 0x00, 0x18, 0, []⟩ := by decide
/-- RESERVED_OP: STATUS 0x38 from UNINIT, 0xFC from READY (60_exceptions R125). -/
theorem test_reserved_uninit :
    execView (.reserved 0x55#8) (fresh []) = some ⟨0x00, 0x00, 0x38, 0, []⟩ := by decide
theorem test_reserved_ready :
    execView (.reserved 0x00#8) (readyRest []) = some ⟨0xC0, 0xF3, 0xFC, 0, []⟩ := by decide

/-- The byte latched and the post-delay's class after the acceptance of a closed-set instruction. -/
def latchView (i : Instr) : Option (Bool × Nat × PostClass) :=
  match exec i ⟨cx, readyRest []⟩ with
  | .next s => some (s.block.latchRs, s.block.latchByte.toNat, s.block.postClass)
  | _ => none

theorem test_clearDisplay_latches : latchView .clearDisplay = some (false, 0x01, .clear) := by decide
theorem test_homeCursor_latches : latchView (.homeCursor true) = some (false, 0x03, .home) := by decide
theorem test_entryModeSet_latches :
    latchView (.entryModeSet true false) = some (false, 0x06, .std) := by decide
theorem test_displayOnOff_latches :
    latchView (.displayOnOff true true false) = some (false, 0x0E, .std) := by decide
theorem test_functionReset_latches :
    latchView (.functionReset false false 0#2) = some (false, 0x30, .std) := by decide
theorem test_functionSet4Bit_latches :
    latchView (.functionSet4Bit true false 0#2) = some (false, 0x28, .std) := by decide
theorem test_setCursorPosition_latches :
    latchView (.setCursorPosition 0x40#7) = some (false, 0xC0, .std) := by decide

/-- V-I1, edge 40002: PUTNIB(3). -/
theorem test_nibReset_writes :
    execView .nibReset (inScript 2 1 0x00#8) = some ⟨0x30, 0xF3, 0x03, 1, []⟩ := by decide
/-- V-I1, edge 50110: the third function-reset commit; STATUS becomes 0x43. -/
theorem test_nibReset_commits :
    execView .nibReset (inScript 12 1 0x32#8) = some ⟨0x30, 0xF3, 0x43, 1, [(false, 0x3#4)]⟩ := by decide
/-- V-I1, edge 50211: PUTNIB(2). -/
theorem test_nib4Bit_writes :
    execView .nib4Bit (inScript 14 1 0x30#8) = some ⟨0x20, 0xF3, 0x43, 1, []⟩ := by decide
/-- V-I1: the fourth commit. -/
theorem test_nib4Bit_commits :
    execView .nib4Bit (inScript 16 1 0x22#8) = some ⟨0x20, 0xF3, 0x43, 1, [(false, 0x2#4)]⟩ := by decide
/-- At rest no single-nibble form is sent (30_encoding R62). -/
theorem test_nibble_forms_refused_at_rest :
    exec .nibReset ⟨cx, readyRest []⟩ = .refused .singleNibbleOutsideInit ∧
    exec .nib4Bit ⟨cx, readyRest []⟩ = .refused .singleNibbleOutsideInit := ⟨rfl, rfl⟩

/-! ### The step -/

/-- A running program counts down; the offered word waits (40_bus_signal_driver R74, 41_protocol_driver R90). -/
theorem test_step_counts : stepView (inSend 7 100 0x11#8) = some ⟨0x11, 0xF3, 0xC5, 99, []⟩ := by decide
/-- V-D1: the second commit of SEND_DATA(0x41). -/
theorem test_step_commits :
    stepView (inSend 5 1 0x13#8) = some ⟨0x11, 0xF3, 0xC5, 1, [(true, 0x1#4)]⟩ := by decide
/-- The end of the SEND program: IDLE, STATUS 0xC4. -/
theorem test_step_ends_send : stepView (inSend 7 1 0x11#8) = some ⟨0x11, 0xF3, 0xC4, 0, []⟩ := by decide
/-- The end of the INIT script: READY and OPERATIONAL, STATUS 0xC4 (41_protocol_driver R91). -/
theorem test_step_ends_init : stepView (inScript 58 1 0xC0#8) = some ⟨0xC0, 0xF3, 0xC4, 0, []⟩ := by decide
/-- CTRL_PHASE becomes FOUR_BIT_CONFIRMED at micro-op 27 (10_state R27): STATUS 0x83. -/
theorem test_step_phase : stepView (inScript 26 1 0x80#8) = some ⟨0x80, 0xF3, 0x83, 1, []⟩ := by decide
/-- Reset during STROBE_HI: no commit, everything 0 (70_reset_and_hazards R139, R149). -/
theorem test_step_reset :
    stepView (signals (inScript 4 1 0x32#8) resetInput) = some ⟨0x00, 0x00, 0x00, 0, []⟩ := by decide
/-- ZERO overrides another user's write at its edge (20_memory R50); DDR takes that write. -/
theorem test_step_zero_overrides :
    stepView (signals (inScript 1 1 0x00#8) othersInput) = some ⟨0x00, 0xFF, 0x03, 1, []⟩ := by decide
/-- At any other edge the two writes merge (20_memory R49). -/
theorem test_step_writes_merge :
    stepView (signals (inScript 2 1 0x00#8) othersInput) = some ⟨0x3C, 0xFF, 0x03, 1, []⟩ := by decide
/-- A word waits behind reset, and an idle edge accepts it (60_exceptions R128). -/
theorem test_step_offers_after_reset :
    stepView (signals (readyRest [0x241#10]) resetInput) = some ⟨0x00, 0x00, 0x00, 0, []⟩ ∧
    stepView (readyRest [0x241#10]) = some ⟨0xC1, 0xF3, 0xC5, 1, []⟩ := by decide
/-- A word is accepted at the edge after its pause, not before (42_host_pseudo R111). -/
theorem test_step_pause :
    stepView (pausing (readyRest [0x241#10]) 1) = some ⟨0xC0, 0xF3, 0xC4, 0, []⟩ ∧
    stepView (pausing (readyRest [0x241#10]) 0) = some ⟨0xC1, 0xF3, 0xC5, 1, []⟩ := by decide
/-- V-R2: a stream that a reset edge cuts short has not run to its end (41_protocol_driver R110). -/
theorem test_reset_is_no_completion (n : Nat) (t : Block cx) (hn : 1 ≤ n) :
    ¬ (signals (inSend 3 1 0x41#8) resetInput).Completed n t := fun h =>
  absurd (h.no_reset 0 hn) (by decide)
/-- The CTRL_PHASE field and every other field of STATUS at reset (70_reset_and_hazards R140). -/
theorem test_reset_status : State.reset.block.status = 0x00#8 ∧ State.reset.block.cmdReady = true := by
  decide

/-- The words placed by `withFetchWord` run as the very next step. -/
theorem test_fetch_host_word :
    view (step (State.reset.withFetchWord 16 0x000)) = some ⟨0x00, 0xF3, 0x03, 1, []⟩ := by decide
theorem test_fetch_nibble :
    view (step (State.reset.withFetchWord 4 0x3)) = some ⟨0x30, 0x00, 0x03, 1, []⟩ := by decide

/-! ### The host side (spec 95_test_vectors W1 to W5, 30_encoding R71, R72) -/

theorem test_W1_zero : digitCodes 0 = [0x30#8] := by decide
theorem test_W2_404 : programWords cx [.printNum 404] = some [0x234#10, 0x230#10, 0x234#10] := by decide
theorem test_W4_tick_12345 : programWords cx [.tick 12345] = some [0x102#10, 0x231#10, 0x232#10] := by decide
theorem test_W5_tick_999 : programWords cx [.tick 999] = some [0x102#10, 0x230#10] := by decide
theorem test_tick_cycles : tickCycles cx 2 = 2224 := by decide
theorem test_text_instr :
    readLine ['I', 'N', 'S', 'T', 'R', ' ', '0', 'x', '2', '8', ' ', ';', 'f'] = some (.instr 0x28#8) := by
  decide
theorem test_text_data : readLine ['D', 'A', 'T', 'A', ' ', '\'', 'A', '\''] = some (.data 0x41#8) := by
  decide
theorem test_text_print :
    readLine ['P', 'R', 'I', 'N', 'T', ' ', '"', 'H', 'i', '"'] = some (.print [0x48#8, 0x69#8]) := by
  decide
theorem test_text_rejects :
    readLine ['I', 'N', 'S', 'T', 'R', ' ', '2', '5', '6'] = none ∧ readLine ['N', 'O', 'P'] = none := by
  decide

/-! ### Witnesses: for every obligation with hypotheses, values that meet them all, clause by clause -/

/-- Blocks that meet the invariant: at rest before and after INIT, in the script, in a frame. -/
theorem inv_fresh : (fresh [0x000#10]).Inv := by
  constructor <;> (try unfold Block.strobing) <;> decide
theorem inv_ready : (readyRest [0x241#10]).Inv := by
  constructor <;> (try unfold Block.strobing) <;> decide
theorem inv_ready_reserved : (readyRest [0x3FF#10]).Inv := by
  constructor <;> (try unfold Block.strobing) <;> decide
theorem inv_before_putNib : (inScript 2 1 0x00#8).Inv := by
  constructor <;> (try unfold Block.strobing) <;> decide
theorem inv_strobing : (inScript 4 1 0x32#8).Inv := by
  constructor <;> (try unfold Block.strobing) <;> decide
theorem inv_last_of_script : (inScript 58 1 0xC0#8).Inv := by
  constructor <;> (try unfold Block.strobing) <;> decide
theorem inv_in_frame : (inSend 5 1 0x13#8).Inv := by
  constructor <;> (try unfold Block.strobing) <;> decide

/-- IllFormedConfigurationIsRefused: both sides occur. -/
theorem test_witness_IllFormedConfigurationIsRefused :
    ({ cx with nSetup := 0 } : Config).wellFormed = false ∧ cx.wellFormed = true := by decide

theorem test_witness_StepKeepsTheConfiguration :
    ∃ s' : State, step ⟨cx, inScript 4 1 0x32#8⟩ = .next s' := ⟨_, rfl⟩

/-- ResetEdgeRestoresEveryElement: at rest with a word offered, and while E is 1. -/
theorem test_witness_ResetEdgeRestoresEveryElement :
    cx.WellFormed ∧ (signals (readyRest [0x241#10]) resetInput).nextInput.rst = true ∧
    (signals (inScript 4 1 0x32#8) resetInput).nextInput.rst = true := by decide

/-- StepExecutesTheOfferedCommand: an idle block, where the word is consumed, and a running one. -/
theorem test_witness_StepExecutesTheOfferedCommand :
    cx.WellFormed ∧ (readyRest [0x241#10]).nextInput.rst = false ∧
    (readyRest [0x241#10]).offeredWord = some 0x241#10 ∧ (readyRest [0x241#10]).mode = .idle ∧
    (inSend 5 1 0x13#8).nextInput.rst = false ∧ (inSend 5 1 0x13#8).offeredWord = some 0x241#10 ∧
    (inSend 5 1 0x13#8).mode = .run := by decide

theorem test_witness_RunningProgramMakesTheHostWait :
    cx.WellFormed ∧ (inSend 7 100 0x11#8).nextInput.rst = false ∧ (inSend 7 100 0x11#8).mode = .run ∧
    (inSend 7 100 0x11#8).hostWords = [0x241#10] := by decide
theorem test_witness_RunningProgramMakesTheHostWait_step :
    ∃ s' : State, step ⟨cx, inSend 7 100 0x11#8⟩ = .next s' := ⟨_, rfl⟩

/-- IdleEdgeWithoutCommandHolds: no word left, and a host that has not offered its word yet. -/
theorem test_witness_IdleEdgeWithoutCommandHolds :
    cx.WellFormed ∧ (readyRest []).nextInput.rst = false ∧ (readyRest []).mode = .idle ∧
    (readyRest []).offeredWord = none ∧
    (pausing (readyRest [0x241#10]) 1).nextInput.rst = false ∧
    (pausing (readyRest [0x241#10]) 1).mode = .idle ∧
    (pausing (readyRest [0x241#10]) 1).offeredWord = none := by decide

/-- HostHoldsItsWordUntilAccepted: a word accepted, one held while a program runs and across a reset edge,
and one not offered yet. -/
theorem test_witness_HostHoldsItsWordUntilAccepted :
    ((readyRest [0x241#10]).offeredWord = some 0x241#10 ∧ (readyRest [0x241#10]).nextInput.rst = false ∧
      (readyRest [0x241#10]).mode = .idle ∧ ∃ t : Block cx, step ⟨cx, readyRest [0x241#10]⟩ = .next ⟨cx, t⟩) ∧
    ((inSend 7 1 0x11#8).offeredWord = some 0x241#10 ∧ (inSend 7 1 0x11#8).mode = .run ∧
      ∃ t : Block cx, step ⟨cx, inSend 7 1 0x11#8⟩ = .next ⟨cx, t⟩) ∧
    ((signals (readyRest [0x241#10]) resetInput).offeredWord = some 0x241#10 ∧
      (signals (readyRest [0x241#10]) resetInput).nextInput.rst = true ∧
      ∃ t : Block cx, step ⟨cx, signals (readyRest [0x241#10]) resetInput⟩ = .next ⟨cx, t⟩) ∧
    ((pausing (readyRest [0x241#10]) 1).offeredWord = none ∧
      ∃ t : Block cx, step ⟨cx, pausing (readyRest [0x241#10]) 1⟩ = .next ⟨cx, t⟩) :=
  ⟨⟨rfl, rfl, rfl, _, rfl⟩, ⟨rfl, rfl, _, rfl⟩, ⟨rfl, rfl, _, rfl⟩, ⟨rfl, _, rfl⟩⟩

/-- OfferedCommandWaitsWhileRunning: one instruction of each command format. -/
theorem test_witness_OfferedCommandWaitsWhileRunning :
    (Instr.sendData 0x41#8).format ≠ .lcdNibble ∧ Instr.clearDisplay.format ≠ .lcdNibble ∧
    (inSend 7 1 0x11#8).mode = .run := by decide

theorem test_witness_DecodeOfEncodeIsTheInstruction :
    (Instr.reserved 0xFF#8).wellFormed = true ∧ Instr.nib4Bit.wellFormed = true ∧
    (Instr.setCursorPosition 0x7F#7).wellFormed = true := by decide

/-- CommandWordsDecodeByOpAlone: the least and the greatest word of each op. -/
theorem test_witness_CommandWordsDecodeByOpAlone :
    ([0x000#10, 0x0FF#10] : List CmdWord).all (fun w => w.toNat / 256 = 0) = true ∧
    ([0x100#10, 0x1FF#10] : List CmdWord).all (fun w => w.toNat / 256 = 1) = true ∧
    ([0x200#10, 0x2FF#10] : List CmdWord).all (fun w => w.toNat / 256 = 2) = true ∧
    ([0x300#10, 0x3FF#10] : List CmdWord).all (fun w => w.toNat / 256 = 3) = true := by decide

theorem test_witness_InitStartsTheScript :
    (fresh []).mode = .idle ∧ (fresh []).initState ≠ .ready := by decide
/-- SecondInitIsRefused, SendInstrStartsTheFrame, SendDataStartsTheFrame, LcdInstructionsStartTheirFrame. -/
theorem test_witness_SecondInitIsRefused :
    (readyRest []).mode = .idle ∧ (readyRest []).initState = .ready := by decide
theorem test_witness_SendInstrStartsTheFrame :
    cx.WellFormed ∧ (readyRest []).mode = .idle ∧ (readyRest []).initState = .ready := by decide
theorem test_witness_SendDataStartsTheFrame :
    cx.WellFormed ∧ (readyRest []).mode = .idle ∧ (readyRest []).initState = .ready := by decide
theorem test_witness_SendBeforeReadyIsRefused :
    (∃ y, Instr.sendInstr 0x01#8 = .sendInstr y ∨ Instr.sendInstr 0x01#8 = .sendData y) ∧
    (∃ y, Instr.sendData 0x41#8 = .sendInstr y ∨ Instr.sendData 0x41#8 = .sendData y) ∧
    [Instr.clearDisplay, .homeCursor true, .entryModeSet true false, .displayOnOff true true true,
     .functionReset false false 0#2, .functionSet4Bit true false 3#2, .setCursorPosition 0x7F#7].all
      (fun i => decide (i.format = .lcdInstr)) = true ∧
    (fresh []).mode = .idle ∧ (fresh []).initState ≠ .ready :=
  ⟨⟨_, .inl rfl⟩, ⟨_, .inr rfl⟩, by decide, rfl, by decide⟩
/-- ReservedOpIsRefused: both clauses; the least and the greatest reserved word, in READY and UNINIT. -/
theorem test_witness_ReservedOpIsRefused :
    cx.WellFormed ∧ (readyRest [0x3FF#10]).nextInput.rst = false ∧ (readyRest [0x3FF#10]).mode = .idle ∧
    (readyRest [0x3FF#10]).offeredWord = some 0x3FF#10 ∧ (0x3FF#10).toNat / 256 = 3 ∧
    (fresh [0x300#10]).nextInput.rst = false ∧ (fresh [0x300#10]).mode = .idle ∧
    (fresh [0x300#10]).offeredWord = some 0x300#10 ∧ (0x300#10).toNat / 256 = 3 := by decide
theorem test_witness_LcdInstructionsStartTheirFrame :
    cx.WellFormed ∧
    [Instr.clearDisplay, .homeCursor true, .entryModeSet true false, .displayOnOff true true true,
     .functionReset false false 0#2, .functionSet4Bit true false 3#2, .setCursorPosition 0x7F#7].all
      (fun i => decide (i.format = .lcdInstr)) = true ∧
    (readyRest []).mode = .idle ∧ (readyRest []).initState = .ready := by decide

/-- NibResetRunsInTheScript: every micro-op of the row at which the next one begins, the first and the last
edge of the row that only count, and the edge of micro-op 13. -/
theorem test_witness_NibResetRunsInTheScript :
    cx.WellFormed ∧
    [2, 3, 4, 5, 6, 7, 8, 9, 10, 11, 12, 13].all (fun i =>
      (inScript i 1 0x30#8).inInitOps 3 14 && decide ((inScript i 1 0x30#8).cnt.toNat ≤ 1) &&
        decide ((inScript i 1 0x30#8).upc.toNat = i)) = true ∧
    [3, 14].all (fun i => (inScript i 2 0x30#8).inInitOps 3 14 &&
      decide (1 < (inScript i 2 0x30#8).cnt.toNat)) = true := by decide
/-- Nib4BitRunsInTheScript: the same, for micro-ops 15 to 18. -/
theorem test_witness_Nib4BitRunsInTheScript :
    cx.WellFormed ∧
    [14, 15, 16, 17].all (fun i =>
      (inScript i 1 0x20#8).inInitOps 15 18 && decide ((inScript i 1 0x20#8).cnt.toNat ≤ 1) &&
        decide ((inScript i 1 0x20#8).upc.toNat = i)) = true ∧
    [15, 18].all (fun i => (inScript i 2 0x20#8).inInitOps 15 18 &&
      decide (1 < (inScript i 2 0x20#8).cnt.toNat)) = true := by decide
/-- NibbleFormsRunOnlyInTheScript: just before and just after each form's edges, at rest, in a frame. -/
theorem test_witness_NibbleFormsRunOnlyInTheScript :
    (inScript 2 2 0x00#8).inInitOps 3 14 = false ∧ (inScript 14 1 0x30#8).inInitOps 3 14 = false ∧
    (inScript 14 2 0x30#8).inInitOps 15 18 = false ∧ (inScript 18 1 0x20#8).inInitOps 15 18 = false ∧
    (readyRest []).mode = .idle ∧ (inSend 5 1 0x13#8).prog = .send := by decide

/-- MicroOpsKeepForeignBits: bits 2 and 3 of CFG_EX, and a bit past the port. -/
theorem test_witness_MicroOpsKeepForeignBits :
    cx.WellFormed ∧ ¬ Owned cx 2 ∧ ¬ Owned cx 3 ∧ ¬ Owned cx 8 ∧ MicroOp.setDir ≠ .zero := by
  unfold Owned; decide
theorem test_witness_OtherUsersWriteOutsideOwnOnly :
    ¬ Owned cx 2 ∧ othersInput.others.portMask.getLsbD 2 = true ∧
    ¬ Owned cx 8 ∧ othersInput.others.portMask.getLsbD 8 = false := by unfold Owned; decide
/-- The other micro-op statements need a well-formed configuration; SetDir also a bit outside OWN. -/
theorem test_witness_SetDirMakesTheLinesOutputs : cx.WellFormed ∧ ¬ Owned cx 3 := by unfold Owned; decide
theorem test_witness_SetRsWritesSelectAndStrobe : cx.WellFormed := test_cfgEx_accepted
theorem test_witness_PutNibDrivesTheNibble : cx.WellFormed := test_cfgEx_accepted
theorem test_witness_StrobePairCommitsOnce : cx.WellFormed := test_cfgEx_accepted

/-- PostDelayClassification: a byte of each class, with the home code's two bytes. -/
theorem test_witness_PostDelayClassification :
    (0x01#8) = cx.opClear ∧
    (0x02#8 ≠ cx.opClear ∧ 0x02#8 &&& 0xFE#8 = cx.opHome &&& 0xFE#8) ∧
    (0x03#8 ≠ cx.opClear ∧ 0x03#8 &&& 0xFE#8 = cx.opHome &&& 0xFE#8) ∧
    (0x00#8 ≠ cx.opClear ∧ 0x00#8 &&& 0xFE#8 ≠ cx.opHome &&& 0xFE#8) ∧
    (0x04#8 ≠ cx.opClear ∧ 0x04#8 &&& 0xFE#8 ≠ cx.opHome &&& 0xFE#8) := by decide

/-- SequencerStepRule: two cycles left; the last cycle of each program's last micro-op and of the one
before it; the two phase edges. -/
theorem test_witness_SequencerStepRule :
    cx.WellFormed ∧ (inScript 58 2 0xC0#8).nextInput.rst = false ∧
    (inScript 58 2 0xC0#8).mode = .run ∧ 1 < (inScript 58 2 0xC0#8).cnt.toNat ∧
    ((inScript 58 1 0xC0#8).cnt.toNat ≤ 1 ∧ (inScript 58 1 0xC0#8).upc.toNat = Program.init.lastIndex) ∧
    ((inSend 7 1 0x11#8).cnt.toNat ≤ 1 ∧ (inSend 7 1 0x11#8).upc.toNat = Program.send.lastIndex) ∧
    ([0, 12, 26, 57].all fun i => decide ((inScript i 1 0x00#8).upc.toNat < Program.init.lastIndex)) = true ∧
    ([0, 6].all fun i => decide ((inSend i 1 0x01#8).upc.toNat < Program.send.lastIndex)) = true := by decide

/-- UpcAboveLastIndexIsStuck: the first index above each program. -/
theorem test_witness_UpcAboveLastIndexIsStuck :
    cx.WellFormed ∧ (inScript 59 1 0xC0#8).nextInput.rst = false ∧ (inScript 59 1 0xC0#8).mode = .run ∧
    (inScript 59 1 0xC0#8).cnt.toNat ≤ 1 ∧
    (inScript 59 1 0xC0#8).prog.lastIndex < (inScript 59 1 0xC0#8).upc.toNat ∧
    (inSend 8 1 0x11#8).mode = .run ∧ (inSend 8 1 0x11#8).cnt.toNat ≤ 1 ∧
    (inSend 8 1 0x11#8).prog.lastIndex < (inSend 8 1 0x11#8).upc.toNat := by decide

theorem test_witness_StepKeepsTheInvariant :
    (⟨cx, inScript 4 1 0x32#8⟩ : State).Inv ∧
    ∃ s' : State, step ⟨cx, inScript 4 1 0x32#8⟩ = .next s' := ⟨inv_strobing, _, rfl⟩
theorem test_witness_InvariantStatesNeverStop :
    cx.WellFormed ∧ (⟨cx, inScript 58 1 0xC0#8⟩ : State).Inv := ⟨by decide, inv_last_of_script⟩

/-- InitStateMovesForwardOnly: from each of the three states, and at a reset edge. -/
theorem test_witness_InitStateMovesForwardOnly :
    ((fresh [0x000#10]).Inv ∧ (fresh [0x000#10]).initState = .uninit ∧
      (fresh [0x000#10]).nextInput.rst = false ∧
      ∃ t : Block cx, step ⟨cx, fresh [0x000#10]⟩ = .next ⟨cx, t⟩) ∧
    ((inScript 58 1 0xC0#8).Inv ∧ (inScript 58 1 0xC0#8).initState = .initializing ∧
      ∃ t : Block cx, step ⟨cx, inScript 58 1 0xC0#8⟩ = .next ⟨cx, t⟩) ∧
    ((readyRest [0x241#10]).Inv ∧ (readyRest [0x241#10]).initState = .ready ∧
      ∃ t : Block cx, step ⟨cx, readyRest [0x241#10]⟩ = .next ⟨cx, t⟩) :=
  ⟨⟨inv_fresh, rfl, rfl, _, rfl⟩, ⟨inv_last_of_script, rfl, _, rfl⟩, ⟨inv_ready, rfl, _, rfl⟩⟩
theorem inv_reset_offered : (signals (inScript 4 1 0x32#8) resetInput).Inv := by
  constructor <;> (try unfold Block.strobing) <;> decide
theorem test_witness_InitStateMovesForwardOnly_reset :
    (signals (inScript 4 1 0x32#8) resetInput).Inv ∧
    (signals (inScript 4 1 0x32#8) resetInput).nextInput.rst = true ∧
    ∃ t : Block cx, step ⟨cx, signals (inScript 4 1 0x32#8) resetInput⟩ = .next ⟨cx, t⟩ :=
  ⟨inv_reset_offered, rfl, _, rfl⟩
theorem test_witness_CtrlPhaseMovesForwardOnly :
    (inScript 58 1 0xC0#8).Inv ∧ (inScript 58 1 0xC0#8).nextInput.rst = false ∧
    ∃ t : Block cx, step ⟨cx, inScript 58 1 0xC0#8⟩ = .next ⟨cx, t⟩ := ⟨inv_last_of_script, rfl, _, rfl⟩

/-- ErrorRecordIsSticky: a reset edge, an error already recorded, and each cause's first error. -/
theorem test_witness_ErrorRecordIsSticky :
    (∃ t : Block cx, step ⟨cx, signals (readyRest [0x3FF#10]) resetInput⟩ = .next ⟨cx, t⟩) ∧
    ((readyRest [0x000#10]).raiseError .notInit).err = true ∧
    (∃ t : Block cx, step ⟨cx, (readyRest [0x000#10]).raiseError .notInit⟩ = .next ⟨cx, t⟩) ∧
    ((readyRest [0x3FF#10]).err = false ∧ (readyRest [0x3FF#10]).offeredWord = some 0x3FF#10 ∧
      ∃ t : Block cx, step ⟨cx, readyRest [0x3FF#10]⟩ = .next ⟨cx, t⟩) ∧
    ((readyRest [0x000#10]).initState = .ready ∧ (readyRest [0x000#10]).offeredWord = some 0x000#10 ∧
      ∃ t : Block cx, step ⟨cx, readyRest [0x000#10]⟩ = .next ⟨cx, t⟩) ∧
    ((fresh [0x100#10]).initState ≠ .ready ∧ (fresh [0x100#10]).offeredWord = some 0x100#10 ∧
      ∃ t : Block cx, step ⟨cx, fresh [0x100#10]⟩ = .next ⟨cx, t⟩) ∧
    ((fresh [0x2FF#10]).initState ≠ .ready ∧ (fresh [0x2FF#10]).offeredWord = some 0x2FF#10 ∧
      ∃ t : Block cx, step ⟨cx, fresh [0x2FF#10]⟩ = .next ⟨cx, t⟩) :=
  ⟨⟨_, rfl⟩, rfl, ⟨_, rfl⟩, ⟨rfl, rfl, _, rfl⟩, ⟨rfl, rfl, _, rfl⟩, ⟨by decide, rfl, _, rfl⟩,
   ⟨by decide, rfl, _, rfl⟩⟩

theorem test_witness_LinesHoldWhileStrobeIsHigh :
    (inScript 4 1 0x32#8).Inv ∧ (inScript 4 1 0x32#8).nextInput.rst = false ∧
    (inScript 4 1 0x32#8).line .e = true ∧
    ∃ t : Block cx, step ⟨cx, inScript 4 1 0x32#8⟩ = .next ⟨cx, t⟩ :=
  ⟨inv_strobing, rfl, by decide, _, rfl⟩
/-- CommitsAreStrobeFalls: a fall; a reset edge while E is 1; an edge with E at 0. -/
theorem test_witness_CommitsAreStrobeFalls :
    ((inScript 4 1 0x32#8).Inv ∧ (inScript 4 1 0x32#8).line .e = true ∧
      ∃ t : Block cx, step ⟨cx, inScript 4 1 0x32#8⟩ = .next ⟨cx, t⟩ ∧ t.line .e = false) ∧
    ((signals (inScript 4 1 0x32#8) resetInput).Inv ∧
      ∃ t : Block cx, step ⟨cx, signals (inScript 4 1 0x32#8) resetInput⟩ = .next ⟨cx, t⟩) ∧
    ((inScript 2 1 0x00#8).Inv ∧ (inScript 2 1 0x00#8).line .e = false ∧
      ∃ t : Block cx, step ⟨cx, inScript 2 1 0x00#8⟩ = .next ⟨cx, t⟩) :=
  ⟨⟨inv_strobing, by decide, _, rfl, by decide⟩, ⟨inv_reset_offered, _, rfl⟩,
   ⟨inv_before_putNib, by decide, _, rfl⟩⟩
/-- ForeignBitsArePreserved: another user's bit, at an ordinary edge and at the edge of ZERO. -/
theorem test_witness_ForeignBitsArePreserved :
    ¬ Owned cx 2 ∧
    ((signals (inScript 2 1 0x00#8) othersInput).nextInput.rst = false ∧
      ¬ ((inScript 2 1 0x00#8).upc = 1#6) ∧
      ∃ t : Block cx, step ⟨cx, signals (inScript 2 1 0x00#8) othersInput⟩ = .next ⟨cx, t⟩) ∧
    ((signals (inScript 1 1 0x00#8) othersInput).nextInput.rst = false ∧
      (inScript 1 1 0x00#8).upc = 1#6 ∧
      ∃ t : Block cx, step ⟨cx, signals (inScript 1 1 0x00#8) othersInput⟩ = .next ⟨cx, t⟩) :=
  ⟨by unfold Owned; decide, ⟨rfl, by decide, _, rfl⟩, ⟨rfl, by decide, _, rfl⟩⟩
theorem test_witness_ZeroOverridesTheOtherUsers :
    cx.WellFormed ∧ (signals (inScript 1 1 0x00#8) othersInput).nextInput.rst = false ∧
    (signals (inScript 1 1 0x00#8) othersInput).mode = .run ∧
    (signals (inScript 1 1 0x00#8) othersInput).prog = .init ∧
    (signals (inScript 1 1 0x00#8) othersInput).upc = 1#6 ∧
    (signals (inScript 1 1 0x00#8) othersInput).cnt.toNat ≤ 1 := by decide
/-- OwnedDirectionBitsStaySet: a set bit, and a bit that INIT micro-op 0 sets. -/
theorem test_witness_OwnedDirectionBitsStaySet :
    ((readyRest [0x241#10]).Inv ∧ (readyRest [0x241#10]).nextInput.rst = false ∧
      (readyRest [0x241#10]).ddrBit (cx.pin .db7) = true ∧
      ∃ t : Block cx, step ⟨cx, readyRest [0x241#10]⟩ = .next ⟨cx, t⟩) ∧
    ((fresh [0x000#10]).Inv ∧ (fresh [0x000#10]).nextInput.rst = false ∧
      (fresh [0x000#10]).ddrBit (cx.pin .db7) = false ∧
      ∃ t : Block cx, step ⟨cx, fresh [0x000#10]⟩ = .next ⟨cx, t⟩ ∧ t.ddrBit (cx.pin .db7) = true) :=
  ⟨⟨inv_ready, rfl, by decide, _, rfl⟩, ⟨inv_fresh, rfl, by decide, _, rfl, by decide⟩⟩
theorem test_witness_SelectRisesOnlyForData :
    (readyRest [0x241#10]).Inv ∧ (readyRest [0x241#10]).line .rs = false ∧
    ∃ t : Block cx, step ⟨cx, readyRest [0x241#10]⟩ = .next ⟨cx, t⟩ ∧ t.line .rs = true :=
  ⟨inv_ready, by decide, _, rfl, by decide⟩

/-- NibbleWaveform: the first reset nibble, with the first and the last of its P edges. -/
theorem test_witness_NibbleWaveform :
    cx.WellFormed ∧ (inScript 2 1 0x00#8).Inv ∧ (inScript 2 1 0x00#8).Quiet ∧
    (inScript 2 1 0x00#8).mode = .run ∧ (inScript 2 1 0x00#8).cnt.toNat ≤ 1 ∧
    (inScript 2 1 0x00#8).uop .init ((inScript 2 1 0x00#8).upc.toNat + 1) = some (.putNib 0x3#4) ∧
    0 < cx.nSetup + cx.nEh + cx.nEl ∧ 2 < cx.nSetup + cx.nEh + cx.nEl :=
  ⟨by decide, inv_before_putNib, ⟨rfl, rfl⟩, rfl, by decide, by decide, by decide, by decide⟩
/-- SendInstrRunsToItsEnd, with an aligned controller and a byte that keeps it so. -/
theorem test_witness_SendInstrRunsToItsEnd :
    cx.WellFormed ∧ (readyRest [0x102#10]).Quiet ∧ (readyRest [0x102#10]).mode = .idle ∧
    (readyRest [0x102#10]).initState = .ready ∧
    (readyRest [0x102#10]).hostWords = sendInstrWord 0x02#8 :: [] ∧
    keepsFourBit 0x02#8 = true ∧
    Block.Aligned { readyRest [0x102#10] with controller := ⟨.fourBit, 0#1, false, 0#4⟩ } :=
  ⟨by decide, ⟨rfl, rfl⟩, rfl, rfl, by decide, by decide, rfl, rfl⟩
theorem test_witness_SendDataRunsToItsEnd :
    cx.WellFormed ∧ (readyRest [0x241#10]).Quiet ∧ (readyRest [0x241#10]).mode = .idle ∧
    (readyRest [0x241#10]).initState = .ready ∧
    (readyRest [0x241#10]).hostWords = sendDataWord 0x41#8 :: [] :=
  ⟨by decide, ⟨rfl, rfl⟩, rfl, rfl, by decide⟩
/-- InitRunsToReady, with a payload that is ignored. -/
theorem test_witness_InitRunsToReady :
    cx.WellFormed ∧ (fresh [0x0FF#10]).Quiet ∧ (fresh [0x0FF#10]).mode = .idle ∧
    (fresh [0x0FF#10]).initState = .uninit ∧ (fresh [0x0FF#10]).hostWords = 0x0FF#10 :: [] ∧
    (0x0FF#10).toNat / 256 = 0 ∧
    [cx.opDispOff, cx.opClear, cx.opEntry, cx.opDispOn].all keepsFourBit = true :=
  ⟨by decide, ⟨rfl, rfl⟩, rfl, rfl, rfl, by decide, by decide⟩
/-- HostProgramIsDecodedInOrder: the program P2 of 95_test_vectors, and INIT alone. -/
theorem test_witness_HostProgramIsDecodedInOrder :
    cx.WellFormed ∧ (fresh [0x000#10, 0x102#10, 0x231#10, 0x232#10]).Quiet ∧
    (fresh [0x000#10, 0x102#10, 0x231#10, 0x232#10]).mode = .idle ∧
    (fresh [0x000#10, 0x102#10, 0x231#10, 0x232#10]).initState = .uninit ∧
    (fresh [0x000#10, 0x102#10, 0x231#10, 0x232#10]).hostWords =
      initWord :: ([(false, 0x02#8), (true, 0x31#8), (true, 0x32#8)] : List (Bool × Byte)).map
        (fun x => if x.1 then sendDataWord x.2 else sendInstrWord x.2) ∧
    (fresh [0x000#10]).hostWords =
      initWord :: ([] : List (Bool × Byte)).map
        (fun x => if x.1 then sendDataWord x.2 else sendInstrWord x.2) :=
  ⟨by decide, ⟨rfl, rfl⟩, rfl, rfl, by decide, by decide⟩
/-- TickRunsToItsEnd: W4 of 95_test_vectors. -/
theorem test_witness_TickRunsToItsEnd :
    cx.WellFormed ∧ cx.opHome ≠ cx.opClear ∧ (readyRest [0x102#10, 0x231#10, 0x232#10]).Quiet ∧
    (readyRest [0x102#10, 0x231#10, 0x232#10]).mode = .idle ∧
    (readyRest [0x102#10, 0x231#10, 0x232#10]).initState = .ready ∧
    (readyRest [0x102#10, 0x231#10, 0x232#10]).line .e = false ∧
    programWords cx [.tick 12345] = some (readyRest [0x102#10, 0x231#10, 0x232#10]).hostWords :=
  ⟨by decide, by decide, ⟨rfl, rfl⟩, rfl, rfl, by decide, by decide⟩

/-- DigitsSpellTheNumber: zero, and the greatest 16-bit and 32-bit values, with their digits (W1, W3). -/
theorem test_witness_DigitsSpellTheNumber :
    65535 < 2 ^ 16 ∧ 4294967295 < 2 ^ 32 ∧ decimalDigits 0 = [0] ∧
    (decimalDigits 65535).length = 5 := by decide
/-- HostLinesExpandToCommands: the greatest SETPOS operand and the least refused one; the greatest counter. -/
theorem test_witness_HostLinesExpandToCommands :
    127 ≤ 127 ∧ 127 < 128 ∧ 4294967295 < 2 ^ cx.hostUintBits := by decide

end Sys2Proof.Tests
end

section
/-! PROOFS. The configuration (spec 00_scope, section 5): what its check says in words, that an ill-formed
configuration is the one reason a step refuses, and that no step changes it. -/

namespace Sys2Proof.Config

/-! ### What each check says -/

theorem wf1_iff (c : Config) : c.wf1 = true ↔ 6 ≤ c.portWidth := decide_eq_true_iff

theorem wf2_iff (c : Config) : c.wf2 = true ↔
    (∀ l m : Line, c.pin l = c.pin m → l = m) ∧ ∀ l : Line, c.pin l < c.portWidth := by
  have mem (l : Line) : l ∈ Line.all := by cases l <;> decide
  have nodup : Line.all.Nodup := by decide
  simp [wf2, List.nodup_map_iff_inj_on nodup, mem]

theorem wf3_iff (c : Config) : c.wf3 = true ↔ ∀ d : Delay, 1 ≤ c.cycles d := by
  simp [wf3, WellFormed.delay_mem]

/-- The least cycle count rounds up, so it is met exactly where the delay lasts its minimum time. -/
theorem minCycles_le_iff (c : Config) (d : Delay) (n : Nat) :
    c.minCycles d ≤ n ↔ 1 ≤ n ∧ d.minMicros * c.clkHz ≤ n * 1000000 := by
  rw [minCycles, max_le_iff]
  generalize d.minMicros * c.clkHz = t
  omega

theorem wf4_iff (c : Config) : c.wf4 = true ↔
    ∀ d : Delay, 1 ≤ c.cycles d ∧ d.minMicros * c.clkHz ≤ c.cycles d * 1000000 := by
  simp [wf4, WellFormed.delay_mem, minCycles_le_iff]

theorem wf5_iff (c : Config) : c.wf5 = true ↔ ∀ d ∈ Delay.belowClear, c.cycles d < c.nClear := by
  simp [wf5]

theorem wf6_iff (c : Config) : c.wf6 = true ↔ ∀ d : Delay, c.cycles d ≤ 2 ^ c.cntWidth - 1 := by
  simp [wf6, WellFormed.delay_mem]

/-- WF7 holds by the types of the fields (log 19). -/
theorem wf7_eq_true (c : Config) : c.wf7 = true := by
  have nibble (n : Nibble) : n.toNat ≤ 15 := Nat.le_of_lt_succ n.isLt
  have byte (b : Byte) : b.toNat ≤ 255 := Nat.le_of_lt_succ b.isLt
  simp [wf7, nibble, byte]

theorem wfRange_iff (c : Config) : c.wfRange = true ↔ 0 < c.clkHz ∧ 1 ≤ c.hostUintBits := by
  simp [wfRange]

/-- The whole check of spec 00_scope R16; WF4's `1 ≤ N_x` is WF3's. -/
theorem wellFormed_iff (c : Config) : c.wellFormed = true ↔
    6 ≤ c.portWidth ∧
    (∀ l m : Line, c.pin l = c.pin m → l = m) ∧ (∀ l : Line, c.pin l < c.portWidth) ∧
    (∀ d : Delay, 1 ≤ c.cycles d) ∧
    (∀ d : Delay, d.minMicros * c.clkHz ≤ c.cycles d * 1000000) ∧
    (∀ d ∈ Delay.belowClear, c.cycles d < c.nClear) ∧
    (∀ d : Delay, c.cycles d ≤ 2 ^ c.cntWidth - 1) ∧
    0 < c.clkHz ∧ 1 ≤ c.hostUintBits := by
  simp only [wellFormed, Bool.and_eq_true, wf1_iff, wf2_iff, wf3_iff, wf4_iff, wf5_iff, wf6_iff,
    wf7_eq_true, wfRange_iff, forall_and, and_assoc, true_and, and_self_left]

end Sys2Proof.Config

namespace Sys2Proof.Machine

variable {c : Config}

/-! ### Nothing an edge does is refused -/

theorem onState_refused_iff {o : BlockOutcome c} {r : Refusal} :
    onState o = .refused r ↔ o = .refused r := by
  cases o <;> simp [onState]

theorem closing_refused_iff {o : Host.Outcome State Fault Refusal} {r : Refusal} :
    closing o = .refused r ↔ o = .refused r := by
  cases o <;> simp [closing]

theorem start_ne_refused (b : Block c) (p : Program) (i : Nat) (r : Refusal) :
    b.start p i ≠ .refused r := by
  unfold Block.start
  split <;> simp

theorem tick_ne_refused (b : Block c) (r : Refusal) : b.tick ≠ .refused r := by
  unfold Block.tick
  split_ifs
  · simp
  · simp
  · exact start_ne_refused _ _ _ _

theorem offered_ne_refused {b : Block c} {accept : Block c → BlockOutcome c} {r : Refusal}
    (h : accept b ≠ .refused r) : b.offered accept ≠ .refused r := by
  unfold Block.offered
  split
  · exact tick_ne_refused b r
  · exact h

theorem acceptWord_ne_refused (b : Block c) (w : CmdWord) (r : Refusal) :
    b.acceptWord w ≠ .refused r := by
  obtain ⟨t, ht⟩ := acceptWord_exists b w
  simp [ht]

/-- A silent host's edge is an offered edge at which an idle block takes nothing. -/
theorem plainEdge_eq_offered (b : Block c) : b.plainEdge = b.offered .next := rfl

/-- The decoder yields host commands alone, so the refusing arms of `exec` are never reached. -/
theorem edgeAction_ne_refused (b : Block c) (r : Refusal) : edgeAction exec ⟨c, b⟩ ≠ .refused r := by
  unfold edgeAction
  split_ifs
  · simp
  · split
    · next w _ =>
      change exec (decodeHostCmd w) ⟨c, b.openEdge⟩ ≠ _
      rw [exec_decodeHostCmd, Ne, onState_refused_iff]
      exact offered_ne_refused (acceptWord_ne_refused _ w r)
    · rw [Ne, onState_refused_iff, plainEdge_eq_offered]
      exact offered_ne_refused (by simp)

/-- The one refusal of `step` is that of an ill-formed configuration (log 16). -/
theorem step_refused_iff (s : State) (r : Refusal) :
    step s = .refused r ↔ s.cfg.wellFormed = false ∧ r = .illFormedConfiguration := by
  unfold step edgeStep
  split_ifs with hc
  · simp [hc, closing_refused_iff, edgeAction_ne_refused s.block r]
  · simp [hc, eq_comm]

/-! ### The obligations -/

/-- Settles O1: `step_refused_iff` for the step, `Config.wellFormed_iff` for the check. -/
theorem illFormedConfigurationIsRefused : Obligations.IllFormedConfigurationIsRefused := by
  intro s
  exact ⟨by simp [step_refused_iff], s.cfg.wellFormed_iff⟩

/-- Settles O3: the inversion lemma `step_next` gives every next state on the old configuration. -/
theorem stepKeepsTheConfiguration : Obligations.StepKeepsTheConfiguration := by
  rintro ⟨c, b⟩ s' h
  obtain ⟨-, t, rfl, -⟩ := step_next h
  rfl

/-- Settles O2, by evaluating the checks on the sixteen delays and six pins of CFG_EX. -/
theorem exampleConfigurationIsWellFormed : Obligations.ExampleConfigurationIsWellFormed :=
  ⟨by decide, rfl⟩

end Sys2Proof.Machine
end

section
/-! PROOFS. The state (spec 10_state): the invariant R37 at reset, under every step and against a stop; how
INIT_STATE, CTRL_PHASE, the error record, PORT and DDR move at one edge; STATUS. -/

namespace Sys2Proof.Machine

variable {c : Config}

/-! ### The invariant -/

/-- The reset block is what a reset edge makes of itself, so it meets the invariant as every reset edge does. -/
theorem reset_resetEdge (c : Config) : (Block.reset c).resetEdge = Block.reset c := rfl

theorem reset_inv (c : Config) : (Block.reset c).Inv := reset_resetEdge c ▸ resetEdge_inv (Block.reset c)

/-- An edge keeps the invariant: opening it does, and so does whatever happens on the opened block. -/
theorem Block.Edge.inv (hc : c.WellFormed) {b t : Block c} (h : b.Inv) (e : b.Edge t) : t.Inv := by
  cases e with
  | reset _ => exact resetEdge_inv b.openEdge
  | runs _ hm t ht => exact tick_inv (b := b.openEdge) hc hm h.openEdge ht
  | rests _ _ _ => exact h.openEdge
  | accepts _ hm w _ t _ ht => exact accept_inv (b := b.openEdge) hc hm h.openEdge ht

/-- Settles O40: the inversion lemma `step_next`, then `Block.Edge.inv` and `Block.Inv.closeEdge`. -/
theorem stepKeepsTheInvariant : Obligations.StepKeepsTheInvariant := by
  rintro ⟨c, b⟩ s' h hs
  obtain ⟨hc, t, rfl, e⟩ := step_next hs
  exact (e.inv hc h).closeEdge

/-- Settles O41: the invariant keeps UPC on a micro-op of PROG, which is all that `step_exists` asks for. -/
theorem invariantStatesNeverStop : Obligations.InvariantStatesNeverStop := by
  rintro ⟨c, b⟩ hc h
  exact step_exists hc h.upc_in_program

/-- Settles O39, by `reset_inv`. -/
theorem invariantHoldsAtReset : Obligations.InvariantHoldsAtReset :=
  ⟨reset_inv, reset_inv Config.cfgEx⟩

/-! ### What an offered word does, by its op -/

theorem opField_toNat (w : CmdWord) : (opField w).toNat = w.toNat / 256 := by
  have := w.isLt
  simp only [opField, BitVec.extractLsb'_toNat, Nat.shiftRight_eq_div_pow]
  omega

/-- The acceptance of a word by the number of its op (spec 30_encoding R59). -/
theorem acceptWord_eq (b : Block c) (w : CmdWord) :
    b.acceptWord w =
      if w.toNat / 256 = 0 then b.acceptInit
      else if w.toNat / 256 = 1 then b.acceptSendInstr (payloadField w)
      else if w.toNat / 256 = 2 then b.acceptSendData (payloadField w)
      else b.acceptReserved := by
  simp only [Block.acceptWord, decodeHostCmd, ← BitVec.toNat_inj, opField_toNat, BitVec.toNat_ofNat,
    Nat.reducePow, Nat.reduceMod]
  split_ifs <;> rfl

/-- Offered to an idle block in this INIT_STATE, the word is an illegal command of this cause
(spec 60_exceptions R125). -/
inductive Illegal (i : InitState) (w : CmdWord) : ErrCause → Prop
  | reservedOp (hw : w.toNat / 256 = 3) : Illegal i w .reservedOp
  | reinit (hw : w.toNat / 256 = 0) (h : i = .ready) : Illegal i w .reinit
  | notInit (hw : w.toNat / 256 = 1 ∨ w.toNat / 256 = 2) (h : i ≠ .ready) : Illegal i w .notInit

theorem acceptSend_of_not_ready {b : Block c} (h : b.initState ≠ .ready) (rs : Bool) (y : Byte) (k : PostClass) :
    b.acceptSend rs y k = .next (b.raiseError .notInit) := if_neg h

/-- The acceptance of an illegal command records its cause and does nothing else. -/
theorem acceptWord_illegal {b : Block c} {w : CmdWord} {e : ErrCause} (h : Illegal b.initState w e) :
    b.acceptWord w = .next (b.raiseError e) := by
  rw [acceptWord_eq]
  cases h with
  | reservedOp hw => simp [hw, Block.acceptReserved]
  | reinit hw hr => simp [hw, Block.acceptInit, hr]
  | notInit hw hr =>
    rcases hw with hw | hw <;>
      simp [hw, Block.acceptSendInstr, Block.acceptSendData, acceptSend_of_not_ready hr]

/-- Everything the acceptance of the word `w` can do: `Block.Accept` with the op that does it. -/
inductive Block.AcceptOp (b : Block c) (w : CmdWord) : Block c → Prop
  | error (e : ErrCause) (h : Illegal b.initState w e) : Block.AcceptOp b w (b.raiseError e)
  | init (hw : w.toNat / 256 = 0) (h : b.initState ≠ .ready) :
    Block.AcceptOp b w (b.enterInit.beginOp .init 0 .setDir)
  | send (rs : Bool) (byte : Byte) (k : PostClass) (h : b.initState = .ready) :
    Block.AcceptOp b w ((b.latch rs byte k).beginOp .send 0 (.setRs rs))

theorem acceptInit_op {b t : Block c} {w : CmdWord} (hw : w.toNat / 256 = 0) (h : b.acceptInit = .next t) :
    b.AcceptOp w t := by
  unfold Block.acceptInit at h
  split_ifs at h with hr
  · cases h; exact .error _ (.reinit hw hr)
  · rw [start_eq (uop_init_zero _)] at h
    cases h; exact .init hw hr

theorem acceptSend_op {b t : Block c} {w : CmdWord} (hw : w.toNat / 256 = 1 ∨ w.toNat / 256 = 2)
    {rs : Bool} {y : Byte} {k : PostClass} (h : b.acceptSend rs y k = .next t) : b.AcceptOp w t := by
  unfold Block.acceptSend at h
  split_ifs at h with hr
  · rw [start_eq (uop_send_zero _)] at h
    cases h; exact .send rs y k hr
  · cases h; exact .error _ (.notInit hw hr)

theorem acceptWord_op {b t : Block c} {w : CmdWord} (h : b.acceptWord w = .next t) : b.AcceptOp w t := by
  have hlt := w.isLt
  rw [acceptWord_eq] at h
  split_ifs at h with h0 h1 h2
  · exact acceptInit_op h0 h
  · exact acceptSend_op (.inl h1) h
  · exact acceptSend_op (.inr h2) h
  · cases h; exact .error _ (.reservedOp (by omega))

/-- `step_next` where the next state is given as a block. -/
theorem step_edge {b t : Block c} (h : step ⟨c, b⟩ = .next ⟨c, t⟩) :
    c.WellFormed ∧ ∃ u : Block c, t = u.closeEdge ∧ b.Edge u := by
  obtain ⟨hc, u, hu, e⟩ := step_next h
  cases hu
  exact ⟨hc, u, rfl, e⟩

/-! ### INIT_STATE (spec 10_state R26) -/

theorem Block.Tick.initState {b t : Block c} (h : b.Tick t) :
    t.initState = b.initState ∨ (b.prog = .init ∧ t.initState = .ready) := by
  cases h with
  | counts _ => exact .inl rfl
  | ends _ _ =>
    by_cases hp : b.prog = .init
    · exact .inr ⟨hp, by simp [finish_initState_eq, hp]⟩
    · exact .inl (by simp [finish_initState_eq, hp])
  | starts _ _ u _ => exact .inl (by simp)

/-- The two moves of INIT_STATE at an edge without reset: the script's end, and the acceptance of an INIT. -/
theorem Block.Edge.initState {b t : Block c} (h : b.Inv) (hr : b.nextInput.rst = false) (e : b.Edge t) :
    t.initState = b.initState ∨
    (b.initState = .initializing ∧ t.initState = .ready) ∨
    (b.initState = .uninit ∧ t.initState = .initializing ∧
      ∃ w, b.offeredWord = some w ∧ w.toNat / 256 = 0) := by
  cases e with
  | reset hr' => simp [hr] at hr'
  | runs _ hm t ht =>
    rcases ht.initState with hs | ⟨hp, ht⟩
    · exact .inl hs
    · exact .inr (.inl ⟨h.initializing_iff.2 ⟨hm, hp⟩, ht⟩)
  | rests _ _ _ => exact .inl rfl
  | accepts _ hm w ho t hw _ =>
    cases acceptWord_op hw with
    | error e _ => exact .inl (by simp)
    | send _ _ _ _ => exact .inl (by simp)
    | init h0 hnr =>
      have hni : b.initState ≠ .initializing := fun hi => by
        simpa [hm] using (h.initializing_iff.1 hi).1
      have hu : b.initState = .uninit := by
        cases hi : b.initState with
        | uninit => rfl
        | initializing => exact absurd hi hni
        | ready => exact absurd hi hnr
      exact .inr (.inr ⟨hu, by simp, w, ho, h0⟩)

theorem Block.Edge.of_reset {b t : Block c} (hr : b.nextInput.rst = true) (e : b.Edge t) :
    t = b.openEdge.resetEdge := by
  cases e with
  | reset _ => rfl
  | runs h _ _ _ => simp [hr] at h
  | rests h _ _ => simp [hr] at h
  | accepts h _ _ _ _ _ _ => simp [hr] at h

/-- Settles O42: `Block.Edge.of_reset` for a reset edge, the moves of `Block.Edge.initState` for any other. -/
theorem initStateMovesForwardOnly : Obligations.InitStateMovesForwardOnly := by
  intro c b t h hs
  obtain ⟨-, u, rfl, e⟩ := step_edge hs
  refine ⟨fun hr => by simp [e.of_reset hr], fun hr => ?_⟩
  rcases e.initState h hr with hu | ⟨hb, hu⟩ | ⟨hb, hu, hw⟩
  · simp +contextual [hu]
  · simp [hb, hu]
  · exact ⟨by simp [hb], by simp [hb], fun _ => .inr ⟨hu, hw⟩⟩

/-! ### CTRL_PHASE (spec 10_state R27) -/

theorem phaseAt_le_succ (i : Nat) : (phaseAt i).code.toNat ≤ (phaseAt (i + 1)).code.toNat := by
  unfold phaseAt
  split_ifs <;> simp [CtrlPhase.code] <;> omega

/-- A running program moves CTRL_PHASE along the script, and its end gives the last phase. -/
theorem Block.Tick.ctrlPhase_le {b t : Block c} (h : b.Inv) (hm : b.mode = .run) (ht : b.Tick t) :
    b.ctrlPhase.code.toNat ≤ t.ctrlPhase.code.toNat := by
  cases ht with
  | counts _ => exact le_rfl
  | ends _ _ =>
    rw [finish_ctrlPhase_eq]
    split_ifs
    · exact Nat.le_of_lt_succ b.ctrlPhase.code.isLt
    · exact le_rfl
  | starts _ _ u _ =>
    cases hp : b.prog with
    | init =>
      have hb := h.phase_in_script (h.initializing_iff.2 ⟨hm, hp⟩)
      rw [phase_step _ u hb, hb]
      exact phaseAt_le_succ _
    | send => simp [beginOp_ctrlPhase]

theorem Block.Accept.ctrlPhase {b t : Block c} (h : b.Accept t) : t.ctrlPhase = b.ctrlPhase := by
  cases h with
  | error _ _ => simp
  | init _ => simp [beginOp_ctrlPhase]
  | send _ _ _ _ => simp [beginOp_ctrlPhase]

/-- Settles O43: only a running program moves CTRL_PHASE, by `Block.Tick.ctrlPhase_le`. -/
theorem ctrlPhaseMovesForwardOnly : Obligations.CtrlPhaseMovesForwardOnly := by
  intro c b t h hs hr
  obtain ⟨-, u, rfl, e⟩ := step_edge hs
  cases e with
  | reset hr' => simp [hr] at hr'
  | runs _ hm u hu => simpa using hu.ctrlPhase_le h.openEdge hm
  | rests _ _ _ => exact le_rfl
  | accepts _ _ w _ u _ hu => simp [hu.ctrlPhase]

/-! ### The error record (spec 10_state R28) -/

theorem raiseError_records (b : Block c) (e : ErrCause) : b.RecordsError (b.raiseError e) e :=
  ⟨b.raiseError_err e, b.raiseError_errCause e⟩

/-- A running program leaves the error record alone. -/
theorem Block.Tick.sameErrors {b t : Block c} (h : b.Tick t) : b.SameErrors t := by
  cases h with
  | counts _ => exact ⟨rfl, rfl⟩
  | ends _ _ => exact ⟨by simp, by simp⟩
  | starts _ _ u _ => exact ⟨by simp, by simp⟩

/-- An illegal command offered to an idle block is recorded. -/
theorem Block.Edge.records {b t : Block c} {w : CmdWord} {cause : ErrCause}
    (hr : b.nextInput.rst = false) (hm : b.mode = .idle) (ho : b.offeredWord = some w)
    (hi : Illegal b.initState w cause) (e : b.Edge t) : b.RecordsError t cause := by
  cases e with
  | reset hr' => simp [hr] at hr'
  | runs _ hm' _ _ => simp [hm] at hm'
  | rests _ _ ho' => simp [ho] at ho'
  | accepts _ _ w' ho' t hw _ =>
    obtain rfl : w = w' := by simpa [ho] using ho'
    rw [acceptWord_illegal (b := b.openEdge) hi] at hw
    cases hw
    exact raiseError_records b.openEdge cause

/-- Nothing but an illegal command offered to an idle block moves the error record. -/
theorem Block.Edge.sameErrors_or_illegal {b t : Block c} (hr : b.nextInput.rst = false) (e : b.Edge t) :
    b.SameErrors t ∨
    (b.mode = .idle ∧ ∃ w cause, b.offeredWord = some w ∧ Illegal b.initState w cause) := by
  cases e with
  | reset hr' => simp [hr] at hr'
  | runs _ _ t ht => exact .inl ⟨ht.sameErrors.err, ht.sameErrors.errCause⟩
  | rests _ _ _ => exact .inl ⟨rfl, rfl⟩
  | accepts _ hm w ho t hw _ =>
    cases acceptWord_op hw with
    | error cause hi => exact .inr ⟨hm, w, cause, ho, hi⟩
    | init _ _ => exact .inl ⟨by simp, by simp⟩
    | send _ _ _ _ => exact .inl ⟨by simp, by simp⟩

/-- The first cause is kept (spec 60_exceptions R127). -/
theorem Block.Edge.keeps_first_error {b t : Block c} (hr : b.nextInput.rst = false) (hb : b.err = true)
    (e : b.Edge t) : t.err = true ∧ t.errCause = b.errCause := by
  rcases e.sameErrors_or_illegal hr with hs | ⟨hm, w, cause, ho, hi⟩
  · exact ⟨hs.err.trans hb, hs.errCause⟩
  · simpa [Block.RecordsError, hb] using e.records hr hm ho hi

/-- Settles O44: an illegal command is recorded (`Block.Edge.records`), nothing else is
(`Block.Edge.sameErrors_or_illegal`), and the first record stays. -/
theorem errorRecordIsSticky : Obligations.ErrorRecordIsSticky := by
  intro c b t hs
  obtain ⟨-, u, rfl, e⟩ := step_edge hs
  refine ⟨fun hr => by simp [e.of_reset hr], fun hr hb => by simpa using e.keeps_first_error hr hb,
    fun hr hb => ?_⟩
  have records {w cause} (hm : b.mode = .idle) (ho : b.offeredWord = some w)
      (hi : Illegal b.initState w cause) : u.err = true ∧ u.errCause = cause := by
    simpa [Block.RecordsError, hb] using e.records hr hm ho hi
  refine ⟨fun w hm ho => ⟨fun hw => records hm ho (.reservedOp hw),
    fun hw hi => records hm ho (.reinit hw hi), fun hw hi => records hm ho (.notInit hw hi)⟩, ?_, ?_⟩
  · intro hu
    rcases e.sameErrors_or_illegal hr with hs | ⟨hm, w, cause, ho, hi⟩
    · exact absurd (hs.err.symm.trans hu) (by simp [hb])
    · refine ⟨hm, w, ho, ?_⟩
      cases hi with
      | reservedOp hw => exact .inl hw
      | reinit hw hi => exact .inr (.inl ⟨hw, hi⟩)
      | notInit hw hi => exact .inr (.inr ⟨hw, hi⟩)
  · intro hu
    rcases e.sameErrors_or_illegal hr with hs | ⟨hm, w, cause, ho, hi⟩
    · exact hs.errCause
    · simp [(records hm ho hi).1] at hu

/-! ### PORT and DDR (spec 10_state R29, R30) -/

theorem Owned.of_pin (c : Config) (l : Line) : Owned c (c.pin l) :=
  List.mem_map_of_mem (by cases l <;> decide)

theorem pin_ne_of_not_owned {p : Nat} (hp : ¬ Owned c p) (l : Line) : p ≠ c.pin l :=
  fun e => hp (e ▸ .of_pin c l)

theorem ownMask_bit_of_not_owned {p : Nat} (hp : ¬ Owned c p) : (ownMask c).getLsbD p = false := by
  rw [Bool.eq_false_iff, Ne, ownMask_bit]
  rintro ⟨-, l, e⟩
  exact pin_ne_of_not_owned hp l e

/-- Outside OWN the other users' write counts as it stands (spec 20_memory R49). -/
theorem foreignWrite_bit_of_not_owned {p : Nat} (hp : ¬ Owned c p) (old m v : BitVec c.portWidth) :
    (foreignWrite c old m v).getLsbD p = if m.getLsbD p then v.getLsbD p else old.getLsbD p := by
  simp [foreignWrite_bit, ownMask_bit_of_not_owned hp]

/-- ZERO apart, no micro-op writes a PORT bit outside OWN (spec 40_bus_signal_driver R87). -/
theorem entry_portBit_of_not_owned (hc : c.WellFormed) {p : Nat} (hp : ¬ Owned c p) (b : Block c)
    {u : MicroOp} (hu : u ≠ .zero) : (b.entry u).portBit p = b.portBit p := by
  have hl := pin_ne_of_not_owned hp
  cases u with
  | setDir => rfl
  | wait _ => rfl
  | zero => exact absurd rfl hu
  | setRs v => simp [Block.entry_setRs_bit hc, hl]
  | putNib n => simp [Block.entry_putNib_bit hc, hl]
  | strobeHi => simp [Block.entry_strobeHi_bit hc, hl]
  | strobeLo => simp [Block.entry_strobeLo_bit, hl]

/-- The edge that begins INIT micro-op 2 apart, a running program writes no PORT bit outside OWN. -/
theorem Block.Tick.portBit_of_not_owned (hc : c.WellFormed) {p : Nat} (hp : ¬ Owned c p) {b t : Block c}
    (ht : b.Tick t) (hz : ¬ (b.prog = .init ∧ b.upc = 1#6 ∧ b.cnt.toNat ≤ 1)) :
    t.portBit p = b.portBit p := by
  cases ht with
  | counts _ => rfl
  | ends _ _ => simp [Block.portBit]
  | starts h1 _ u hu =>
    rw [beginOp_portBit]
    refine entry_portBit_of_not_owned hc hp b ?_
    rintro rfl
    obtain ⟨hprog, hi⟩ := uop_zero _ _ _ hu
    exact hz ⟨hprog, BitVec.eq_of_toNat_eq (by simpa using hi), Nat.le_of_not_lt h1⟩

theorem Block.Accept.portBit_of_not_owned (hc : c.WellFormed) {p : Nat} (hp : ¬ Owned c p) {b t : Block c}
    (ht : b.Accept t) : t.portBit p = b.portBit p := by
  cases ht with
  | error e _ => simp [Block.portBit]
  | init _ =>
    rw [beginOp_portBit]
    exact entry_portBit_of_not_owned hc hp b.enterInit (by decide)
  | send rs y k _ =>
    rw [beginOp_portBit]
    exact entry_portBit_of_not_owned hc hp (b.latch rs y k) (by simp)

/-- SETDIR begins no edge of a running program, so DDR stays. -/
theorem Block.Tick.ddr {b t : Block c} (h : b.Tick t) : t.ddr = b.ddr := by
  cases h with
  | counts _ => rfl
  | ends _ _ => simp
  | starts _ _ u hu =>
    have hne : u ≠ .setDir := by
      rintro rfl
      simpa using (uop_setDir _ _ _ hu).2
    simp [hne]

/-- At an edge without reset LCDNB leaves DDR as the other users write it, or begins INIT micro-op 0 and
sets the owned bits. -/
theorem Block.Edge.ddr {b t : Block c} (hr : b.nextInput.rst = false) (e : b.Edge t) :
    t.ddr = b.openEdge.ddr ∨
    (t.ddr = b.openEdge.ddr ||| ownMask c ∧ t.prog = .init ∧ t.mode = .run ∧ t.upc = 0#6) := by
  cases e with
  | reset hr' => simp [hr] at hr'
  | runs _ _ t ht => exact .inl ht.ddr
  | rests _ _ _ => exact .inl rfl
  | accepts _ _ w _ t _ ht =>
    cases ht with
    | error e _ => exact .inl (by simp)
    | init _ => exact .inr ⟨by simp, by simp, by simp, by simp⟩
    | send _ _ _ _ => exact .inl (by simp)

theorem Block.Edge.ddrBit_of_not_owned {p : Nat} (hp : ¬ Owned c p) {b t : Block c}
    (hr : b.nextInput.rst = false) (e : b.Edge t) : t.ddrBit p = b.openEdge.ddrBit p := by
  rcases e.ddr hr with h | ⟨h, -⟩ <;> simp [Block.ddrBit, h, ownMask_bit_of_not_owned hp]

theorem Block.Edge.portBit_of_not_owned (hc : c.WellFormed) {p : Nat} (hp : ¬ Owned c p) {b t : Block c}
    (hr : b.nextInput.rst = false) (e : b.Edge t)
    (hz : ¬ (b.mode = .run ∧ b.prog = .init ∧ b.upc = 1#6 ∧ b.cnt.toNat ≤ 1)) :
    t.portBit p = b.openEdge.portBit p := by
  cases e with
  | reset hr' => simp [hr] at hr'
  | runs _ hm t ht => exact ht.portBit_of_not_owned hc hp fun h => hz ⟨hm, h⟩
  | rests _ _ _ => rfl
  | accepts _ _ w _ t _ ht => exact ht.portBit_of_not_owned hc hp

/-- Settles O47: LCDNB leaves a bit outside OWN as the opened edge has it, and there the other users'
write stands. -/
theorem foreignBitsArePreserved : Obligations.ForeignBitsArePreserved := by
  intro c b t p hs hr hp
  obtain ⟨hc, u, rfl, e⟩ := step_edge hs
  exact ⟨(e.ddrBit_of_not_owned hp hr).trans (foreignWrite_bit_of_not_owned hp _ _ _),
    fun hz => (e.portBit_of_not_owned hc hp hr hz).trans (foreignWrite_bit_of_not_owned hp _ _ _)⟩

/-- The other users' writes leave the direction of a line alone (spec 20_memory R49). -/
theorem openEdge_ddrBit_pin (b : Block c) (l : Line) : b.openEdge.ddrBit (c.pin l) = b.ddrBit (c.pin l) :=
  foreignWrite_pin _ _ _ _

/-- Settles O49, by the two cases of `Block.Edge.ddr`: neither clears an owned bit, the second sets it. -/
theorem ownedDirectionBitsStaySet : Obligations.OwnedDirectionBitsStaySet := by
  intro c b t l _ hs hr
  obtain ⟨-, u, rfl, e⟩ := step_edge hs
  rw [← openEdge_ddrBit_pin b l]
  rcases e.ddr hr with hd | ⟨hd, hinit⟩
  · have hu : u.ddrBit (c.pin l) = b.openEdge.ddrBit (c.pin l) := congrArg (·.getLsbD (c.pin l)) hd
    exact ⟨hu.trans, fun h h' => absurd (hu.symm.trans h') (by simp [h])⟩
  · have hu : u.ddrBit (c.pin l) = (b.openEdge.ddrBit (c.pin l) || (ownMask c).getLsbD (c.pin l)) := by
      simp only [Block.ddrBit, hd, BitVec.getLsbD_or]
    exact ⟨fun h => hu.trans (by simp [h]), fun _ _ => hinit⟩

/-! ### STATUS (spec 10_state R31, R32) -/

/-- The fields of an 8-bit word put together as STATUS is. -/
theorem append_fields (phase cause : BitVec 2) (err : BitVec 1) (init : BitVec 2) (mode : BitVec 1) :
    (phase ++ cause ++ err ++ init ++ mode).getLsbD 0 = mode.getLsbD 0 ∧
    (phase ++ cause ++ err ++ init ++ mode).extractLsb' 1 2 = init ∧
    (phase ++ cause ++ err ++ init ++ mode).getLsbD 3 = err.getLsbD 0 ∧
    (phase ++ cause ++ err ++ init ++ mode).extractLsb' 4 2 = cause ∧
    (phase ++ cause ++ err ++ init ++ mode).extractLsb' 6 2 = phase := by
  refine ⟨?_, ?_, ?_, ?_, ?_⟩
  · simp only [BitVec.getLsbD_append, Nat.zero_lt_one, if_true]
  · rw [BitVec.extractLsb'_append_eq_of_le (by decide)]
    exact BitVec.extractLsb'_append_eq_right
  · simp only [BitVec.getLsbD_append, Nat.reduceLT, Nat.reduceSub, if_true, if_false]
  · iterate 3 rw [BitVec.extractLsb'_append_eq_of_le (by decide)]
    exact BitVec.extractLsb'_append_eq_right
  · iterate 3 rw [BitVec.extractLsb'_append_eq_of_le (by decide)]
    exact BitVec.extractLsb'_append_eq_left

/-- Settles O51: each field of STATUS by `append_fields`, MODE's bit by its two codes. -/
theorem statusShowsTheState : Obligations.StatusShowsTheState := by
  intro c b
  obtain ⟨h0, h1, h3, h4, h6⟩ :=
    append_fields b.ctrlPhase.code b.errCause.code (BitVec.ofBool b.err) b.initState.code b.mode.code
  refine ⟨?_, h1, ?_, h4, h6, decide_eq_true_iff⟩
  · rw [Block.status, h0]
    cases b.mode <;> decide
  · rw [Block.status, h3]
    cases b.err <;> rfl

end Sys2Proof.Machine
end

section
/-! PROOFS. The port as shared memory (spec 20_memory): the nibble's bit order, the other users' duty, the
override of ZERO, and the commits as the falls of E. -/

namespace Sys2Proof.Machine

variable {c : Config}

/-! ### The nibble on the lines (spec 20_memory R41) -/

/-- PUTNIB writes the four data lines only (spec 40_bus_signal_driver R80). -/
theorem entry_putNib_samePortExcept (hc : c.WellFormed) (b : Block c) (n : Nibble) :
    b.SamePortExcept (b.entry (.putNib n)) [.db4, .db5, .db6, .db7] := by
  intro p hp
  simp only [List.map_cons, List.map_nil, List.mem_cons, List.not_mem_nil, or_false, not_or] at hp
  obtain ⟨h4, h5, h6, h7⟩ := hp
  rw [Block.entry_putNib_bit hc, if_neg h7, if_neg h6, if_neg h5, if_neg h4]

/-- Settles O28: `Block.entry_putNib_bit` at each data pin, the pins being distinct. -/
theorem putNibDrivesTheNibble : Obligations.PutNibDrivesTheNibble := by
  intro c b n hc
  have line (l : Line) := Block.entry_putNib_bit hc b n (c.pin l)
  simp only [hc.pin_eq] at line
  exact ⟨line .db7, line .db6, line .db5, line .db4, Block.entry_putNib_nibble hc b n,
    entry_putNib_samePortExcept hc b n, rfl, rfl, rfl⟩

/-! ### The other port users (spec 20_memory R49) -/

/-- Settles O32, bit by bit: `foreignWrite_pin` on the pins of the lines, and outside OWN
`foreignWrite_bit_of_not_owned`. -/
theorem otherUsersWriteOutsideOwnOnly : Obligations.OtherUsersWriteOutsideOwnOnly := fun _ _ _ =>
  ⟨fun _ => ⟨foreignWrite_pin _ _ _ _, foreignWrite_pin _ _ _ _⟩,
    fun _ hp => ⟨foreignWrite_bit_of_not_owned hp _ _ _, foreignWrite_bit_of_not_owned hp _ _ _⟩⟩

/-! ### ZERO (spec 20_memory R50) -/

theorem uop_init_two (b : Block c) : b.uop .init 2 = some .zero := by
  simp [Block.uop, Block.microProgram, initScript]

/-- In its last cycle a micro-op that is not its program's last gives way to the next one. -/
theorem tick_starts {b : Block c} {u : MicroOp} (h : b.cnt.toNat ≤ 1) (hl : b.upc.toNat ≠ b.prog.lastIndex)
    (hu : b.uop b.prog (b.upc.toNat + 1) = some u) :
    b.tick = .next (b.beginOp b.prog (b.upc.toNat + 1) u) := by
  rw [Block.tick, if_neg (Nat.not_lt.2 h), if_neg hl, start_eq hu]

/-- Settles O48: the edge begins INIT micro-op 2, a ZERO, on a block in which the other users' writes stand
already. -/
theorem zeroOverridesTheOtherUsers : Obligations.ZeroOverridesTheOtherUsers := by
  intro c b hc hr hm hp hupc hcnt
  have htick : b.openEdge.tick = .next (b.openEdge.beginOp .init 2 .zero) := by
    simpa [hp, hupc] using tick_starts (b := b.openEdge) hcnt (by simp [hp, hupc, Program.lastIndex])
      (by simpa [hp, hupc] using uop_init_two b.openEdge)
  exact ⟨_, step_running hc hr hm htick, by simp, by simp, by simp, by simp⟩

/-! ### Commits (spec 20_memory R51) -/

/-- The bus events that E makes between `b` and `t`: where it falls, one, of the edge number, RS and the
nibble in `b`. -/
def Block.fallEvents (b t : Block c) : List Commit :=
  if b.line .e = true ∧ t.line .e = false then [⟨b.edge, b.line .rs, b.nibbleOnLines⟩] else []

theorem fallEvents_of_fall {b t : Block c} (hb : b.line .e = true) (ht : t.line .e = false) :
    b.fallEvents t = [⟨b.edge, b.line .rs, b.nibbleOnLines⟩] := if_pos ⟨hb, ht⟩

theorem fallEvents_of_no_fall {b t : Block c} (h : ¬ (b.line .e = true ∧ t.line .e = false)) :
    b.fallEvents t = [] := if_neg h

theorem fallEvents_of_same_port {b t : Block c} (h : t.port = b.port) : b.fallEvents t = [] :=
  fallEvents_of_no_fall (by simp [Block.line_congr h])

/-- The other users' writes do not reach E, RS or the data lines. -/
@[simp] theorem openEdge_fallEvents (b t : Block c) : b.openEdge.fallEvents t = b.fallEvents t := by
  simp [Block.fallEvents]

/-- E falls where a STROBE_LO begins, and nowhere else: it stands behind a STROBE_HI and follows every one. -/
theorem beginOp_fall_iff (hc : c.WellFormed) {b : Block c} (h : b.Inv) (hm : b.mode = .run) {u : MicroOp}
    (hu : b.uop b.prog (b.upc.toNat + 1) = some u) :
    b.line .e = true ∧ (b.beginOp b.prog (b.upc.toNat + 1) u).line .e = false ↔ u = .strobeLo := by
  rw [beginOp_line, Block.entry_line_e hc]
  constructor
  · rintro ⟨he, -⟩
    obtain ⟨-, -, hlo⟩ := h.after_strobe he
    exact Option.some.inj (hu.symm.trans hlo)
  · rintro rfl
    have hlt : b.upc.toNat < 58 := Nat.lt_of_lt_of_le (uop_le hu) (lastIndex_le _)
    exact ⟨h.strobe_iff.2 ⟨hm, uop_before_strobeLo b _ _ hlt hu⟩, rfl⟩

theorem Block.Tick.commits (hc : c.WellFormed) {b t : Block c} (h : b.Inv) (hm : b.mode = .run)
    (ht : b.Tick t) : t.commits = b.commits ++ b.fallEvents t := by
  cases ht with
  | counts _ => simp [fallEvents_of_same_port (Block.countDown_port b)]
  | ends _ _ => simp [fallEvents_of_same_port (Block.finish_port b)]
  | starts _ _ u hu => simp only [beginOp_commits, Block.fallEvents, beginOp_fall_iff hc h hm hu]

/-- An acceptance starts no STROBE_LO. -/
theorem Block.Accept.commits {b t : Block c} (ht : b.Accept t) : t.commits = b.commits := by
  cases ht with
  | error _ _ => simp
  | init _ => simp
  | send _ _ _ _ => simp

/-- E is low while no program runs. -/
theorem Block.Inv.strobe_low {b : Block c} (h : b.Inv) (hm : b.mode = .idle) : b.line .e = false := by
  by_contra he
  obtain ⟨hrun, -⟩ := h.strobe_iff.1 (by simpa using he)
  simp [hm] at hrun

theorem Block.Edge.commits (hc : c.WellFormed) {b t : Block c} (h : b.Inv) (hr : b.nextInput.rst = false)
    (e : b.Edge t) : t.commits = b.commits ++ b.fallEvents t := by
  have idle (hm : b.mode = .idle) : b.fallEvents t = [] :=
    fallEvents_of_no_fall (by simp [h.strobe_low hm])
  cases e with
  | reset hr' => simp [hr] at hr'
  | runs _ hm t ht => simpa using ht.commits hc h.openEdge hm
  | rests _ hm _ => simp [idle hm]
  | accepts _ hm w _ t _ ht => simp [idle hm, ht.commits]

/-- Settles O46: `Block.Edge.commits` at an edge without reset, and a reset edge keeps the history. -/
theorem commitsAreStrobeFalls : Obligations.CommitsAreStrobeFalls := by
  intro c b t h hs
  obtain ⟨hc, u, rfl, e⟩ := step_edge hs
  refine ⟨fun hr hb hu => ?_, fun hno => ?_⟩
  · exact (e.commits hc h hr).trans (by rw [fallEvents_of_fall (t := u) hb hu])
  · cases hr : b.nextInput.rst with
    | true => simp [e.of_reset hr]
    | false =>
      have hnf : ¬ (b.line .e = true ∧ u.line .e = false) := hno.resolve_left (by simp [hr])
      exact (e.commits hc h hr).trans (by rw [fallEvents_of_no_fall hnf, List.append_nil])

end Sys2Proof.Machine
end

section
/-! PROOFS. The encodings (spec 30_encoding): the fields of a command word, the closed set of LCD bytes and
the rows that select them; then what the reserved op, the single-nibble rows and the host lines do. -/

namespace Sys2Proof

/-! ### The decoder on words of a format's width -/

theorem decode_hostCmd (w : CmdWord) : decode .hostCmd w.toNat = .ok (decodeHostCmd w) := by
  have hlt : ¬ 2 ^ Format.hostCmd.width ≤ w.toNat := Nat.not_le.2 w.isLt
  simp only [decode, if_neg hlt, BitVec.ofNat_toNat, BitVec.setWidth_eq]

theorem decode_lcdInstr (b : Byte) : decode .lcdInstr b.toNat = decodeLcdInstr b := by
  have hlt : ¬ 2 ^ Format.lcdInstr.width ≤ b.toNat := Nat.not_le.2 b.isLt
  simp only [decode, if_neg hlt, BitVec.ofNat_toNat, BitVec.setWidth_eq]

/-! ### The two fields of a command word (spec 30_encoding R58) -/

@[simp] theorem opField_hostWord (op : BitVec 2) (p : Byte) : opField (hostWord op p) = op :=
  BitVec.extractLsb'_append_eq_left

@[simp] theorem payloadField_hostWord (op : BitVec 2) (p : Byte) : payloadField (hostWord op p) = p :=
  BitVec.extractLsb'_append_eq_right

/-- No bit of a command word lies outside its two fields. -/
@[simp] theorem hostWord_fields (w : CmdWord) : hostWord (opField w) (payloadField w) = w :=
  BitVec.extractLsb'_append_extractLsb'

theorem payloadField_eq (w : CmdWord) : payloadField w = BitVec.ofNat 8 (w.toNat % 256) := by
  apply BitVec.eq_of_toNat_eq
  simp [payloadField]

theorem encode_decodeHostCmd (w : CmdWord) : encode (decodeHostCmd w) = w.toNat := by
  have back {op : BitVec 2} (h : opField w = op) : (hostWord op (payloadField w)).toNat = w.toNat := by
    rw [← h, hostWord_fields]
  unfold decodeHostCmd
  split_ifs with h0 h1 h2
  · exact back h0
  · exact back h1
  · exact back h2
  · have h3 : opField w = 3#2 := by
      generalize opField w = op at h0 h1 h2
      revert op
      decide
    exact back h3

/-- The decoded command by the number of the op (spec 30_encoding R59). -/
theorem decodeHostCmd_eq (w : CmdWord) :
    decodeHostCmd w =
      if w.toNat / 256 = 0 then .init (payloadField w)
      else if w.toNat / 256 = 1 then .sendInstr (payloadField w)
      else if w.toNat / 256 = 2 then .sendData (payloadField w)
      else .reserved (payloadField w) := by
  simp only [decodeHostCmd, ← BitVec.toNat_inj, Machine.opField_toNat, BitVec.toNat_ofNat, Nat.reducePow,
    Nat.reduceMod]

/-- Settles O13: the op is one of four numbers and names the command; the fields keep every bit. -/
theorem commandWordsDecodeByOpAlone : Obligations.CommandWordsDecodeByOpAlone := by
  intro w
  have hop : w.toNat / 256 = 0 ∨ w.toNat / 256 = 1 ∨ w.toNat / 256 = 2 ∨ w.toNat / 256 = 3 := by
    have := w.isLt
    omega
  refine ⟨encode_decodeHostCmd w, ?_⟩
  rw [decodeHostCmd_eq, payloadField_eq]
  rcases hop with h | h | h | h <;> simp [h]

/-! ### The closed set: a row's byte decodes to its instruction (spec 30_encoding R64) -/

theorem decodeLcdInstr_homeCursorByte (x : Bool) :
    decodeLcdInstr (homeCursorByte x) = .ok (.homeCursor x) := by
  revert x; decide

theorem decodeLcdInstr_entryModeByte (i s : Bool) :
    decodeLcdInstr (entryModeByte i s) = .ok (.entryModeSet i s) := by
  revert i s; decide

theorem decodeLcdInstr_displayOnOffByte (d c b : Bool) :
    decodeLcdInstr (displayOnOffByte d c b) = .ok (.displayOnOff d c b) := by
  revert d c b; decide

theorem decodeLcdInstr_functionResetByte (n f : Bool) (x : BitVec 2) :
    decodeLcdInstr (functionResetByte n f x) = .ok (.functionReset n f x) := by
  revert n f x; decide

theorem decodeLcdInstr_functionSet4BitByte (n f : Bool) (x : BitVec 2) :
    decodeLcdInstr (functionSet4BitByte n f x) = .ok (.functionSet4Bit n f x) := by
  revert n f x; decide

theorem decodeLcdInstr_setCursorByte (a : BitVec 7) :
    decodeLcdInstr (setCursorByte a) = .ok (.setCursorPosition a) := by
  revert a; decide

/-- The per-instruction laws as one: an encoding fits its format, and its own row alone selects it. -/
theorem encodesItsRow : ∀ i : Instr, Laws.EncodesItsRow.Statement i
  | .init p => Laws.EncodesItsRow.init p
  | .sendInstr b => Laws.EncodesItsRow.sendInstr b
  | .sendData b => Laws.EncodesItsRow.sendData b
  | .reserved p => Laws.EncodesItsRow.reserved p
  | .clearDisplay => Laws.EncodesItsRow.clearDisplay
  | .homeCursor x => Laws.EncodesItsRow.homeCursor x
  | .entryModeSet i s => Laws.EncodesItsRow.entryModeSet i s
  | .displayOnOff d c b => Laws.EncodesItsRow.displayOnOff d c b
  | .functionReset n f x => Laws.EncodesItsRow.functionReset n f x
  | .functionSet4Bit n f x => Laws.EncodesItsRow.functionSet4Bit n f x
  | .setCursorPosition a => Laws.EncodesItsRow.setCursorPosition a
  | .nibReset => Laws.EncodesItsRow.nibReset
  | .nib4Bit => Laws.EncodesItsRow.nib4Bit

theorem decode_encode : ∀ i : Instr, decode i.format (encode i) = .ok i
  | .init p => (decode_hostCmd (hostWord 0#2 p)).trans (by simp [decodeHostCmd])
  | .sendInstr b => (decode_hostCmd (hostWord 1#2 b)).trans (by simp [decodeHostCmd])
  | .sendData b => (decode_hostCmd (hostWord 2#2 b)).trans (by simp [decodeHostCmd])
  | .reserved p => (decode_hostCmd (hostWord 3#2 p)).trans (by simp [decodeHostCmd])
  | .clearDisplay => decode_lcdInstr 0x01#8
  | .homeCursor x => (decode_lcdInstr _).trans (decodeLcdInstr_homeCursorByte x)
  | .entryModeSet i s => (decode_lcdInstr _).trans (decodeLcdInstr_entryModeByte i s)
  | .displayOnOff d c b => (decode_lcdInstr _).trans (decodeLcdInstr_displayOnOffByte d c b)
  | .functionReset n f x => (decode_lcdInstr _).trans (decodeLcdInstr_functionResetByte n f x)
  | .functionSet4Bit n f x => (decode_lcdInstr _).trans (decodeLcdInstr_functionSet4BitByte n f x)
  | .setCursorPosition a => (decode_lcdInstr _).trans (decodeLcdInstr_setCursorByte a)
  | .nibReset => rfl
  | .nib4Bit => rfl

/-- Settles O12: `encodesItsRow` for the width, `decode_encode` for the way back. -/
theorem decodeOfEncodeIsTheInstruction : Obligations.DecodeOfEncodeIsTheInstruction :=
  fun i _ => ⟨(encodesItsRow i).left, decode_encode i⟩

/-! ### The closed set: a byte that a row selects is the row's byte of its fields -/

theorem homeCursorByte_of_selected {b : Byte} (h : b &&& 0xFE#8 = 0x02#8) :
    homeCursorByte (b.getLsbD 0) = b := by
  revert b; decide

theorem entryModeByte_of_selected {b : Byte} (h : b &&& 0xFC#8 = 0x04#8) :
    entryModeByte (b.getLsbD 1) (b.getLsbD 0) = b := by
  revert b; decide

theorem displayOnOffByte_of_selected {b : Byte} (h : b &&& 0xF8#8 = 0x08#8) :
    displayOnOffByte (b.getLsbD 2) (b.getLsbD 1) (b.getLsbD 0) = b := by
  revert b; decide

theorem functionResetByte_of_selected {b : Byte} (h : b &&& 0xF0#8 = 0x30#8) :
    functionResetByte (b.getLsbD 3) (b.getLsbD 2) (b.extractLsb' 0 2) = b := by
  revert b; decide

theorem functionSet4BitByte_of_selected {b : Byte} (h : b &&& 0xF0#8 = 0x20#8) :
    functionSet4BitByte (b.getLsbD 3) (b.getLsbD 2) (b.extractLsb' 0 2) = b := by
  revert b; decide

theorem setCursorByte_of_selected {b : Byte} (h : b &&& 0x80#8 = 0x80#8) :
    setCursorByte (b.extractLsb' 0 7) = b := by
  revert b; decide

/-- The instruction read from a byte is of the closed set and encodes to that byte. -/
theorem encode_of_decodeLcdInstr {b : Byte} {i : Instr} (h : decodeLcdInstr b = .ok i) :
    i.format = .lcdInstr ∧ encode i = b.toNat := by
  unfold decodeLcdInstr at h
  split_ifs at h with h1 h2 h3 h4 h5 h6 h7 <;> cases h <;> refine ⟨rfl, ?_⟩
  · rw [h1]; rfl
  · exact congrArg BitVec.toNat (homeCursorByte_of_selected h2)
  · exact congrArg BitVec.toNat (entryModeByte_of_selected h3)
  · exact congrArg BitVec.toNat (displayOnOffByte_of_selected h4)
  · exact congrArg BitVec.toNat (functionResetByte_of_selected h5)
  · exact congrArg BitVec.toNat (functionSet4BitByte_of_selected h6)
  · exact congrArg BitVec.toNat (setCursorByte_of_selected h7)

/-- The decoder's tests of a byte are the selections of the seven rows. -/
theorem selects_of_decodeLcdInstr_error {b : Byte} {e : DecodeError} (h : decodeLcdInstr b = .error e) :
    e = .unlistedByte ∧ ∀ r ∈ opcodeRows, r.selects .lcdInstr b.toNat = false := by
  unfold decodeLcdInstr at h
  split_ifs at h with h1 h2 h3 h4 h5 h6 h7
  cases h
  simp only [← BitVec.toNat_inj, BitVec.toNat_and, BitVec.toNat_ofNat, Nat.reducePow, Nat.reduceMod]
    at h1 h2 h3 h4 h5 h6 h7
  have hall : b.toNat &&& 0xFF = b.toNat := Nat.and_two_pow_sub_one_of_lt_two_pow b.isLt
  simp [opcodeRows, hostCmdRows, lcdInstrRows, lcdNibbleRows, OpcodeRow.selects, hall, h1, h2, h3, h4, h5,
    h6, h7]

/-- Settles O14: a byte that decodes is the encoding of its instruction, whose row alone selects it; a byte
that does not has failed the tests of all rows. -/
theorem lcdBytesDecodeOrAreUnlisted : Obligations.LcdBytesDecodeOrAreUnlisted := by
  intro b
  cases hd : decodeLcdInstr b with
  | ok i =>
    obtain ⟨hf, he⟩ := encode_of_decodeLcdInstr hd
    obtain ⟨-, hrow⟩ := encodesItsRow i
    rw [hf, he] at hrow
    exact .inl ⟨i, rfl, hf, he, hrow⟩
  | error e =>
    obtain ⟨rfl, hrows⟩ := selects_of_decodeLcdInstr_error hd
    exact .inr ⟨rfl, List.filter_eq_nil_iff.2 fun r hr => by simp [hrows r hr]⟩

/-- Settles O11, by decoding the sixteen words. -/
theorem writtenWordsDecode : Obligations.WrittenWordsDecode := by
  unfold Obligations.WrittenWordsDecode
  decide

end Sys2Proof

namespace Sys2Proof.Machine

variable {c : Config}

/-! ### The reserved op (spec 30_encoding R66) -/

theorem offered_idle {b : Block c} (hm : b.mode = .idle) (accept : Block c → BlockOutcome c) :
    b.offered accept = accept b := by
  simp [Block.offered, hm]

/-- Recording an error touches nothing but the error record (spec 60_exceptions R127). -/
theorem raiseError_frame (b : Block c) (e : ErrCause) :
    b.SameSequencer (b.raiseError e) ∧ b.SameLatches (b.raiseError e) ∧ b.SameProgress (b.raiseError e) ∧
    b.SamePorts (b.raiseError e) ∧ b.SameOutside (b.raiseError e) := by
  refine ⟨?_, ?_, ?_, ?_, ?_⟩ <;> constructor <;> simp

theorem exec_reserved_idle {b : Block c} (hm : b.mode = .idle) (p : Byte) :
    exec (.reserved p) ⟨c, b⟩ = .next ⟨c, b.raiseError .reservedOp⟩ :=
  congrArg onState (offered_idle hm Block.acceptReserved)

/-- Settles O20: an idle block's acceptance of the reserved op is `raiseError`, at `exec` and, on the opened
edge, at `step`. -/
theorem reservedOpIsRefused : Obligations.ReservedOpIsRefused := by
  refine ⟨fun c b p hm => ⟨_, exec_reserved_idle hm p, raiseError_records b _, raiseError_frame b _⟩,
    fun c b w hc hr hm ho hw => ?_⟩
  have hacc : b.openEdge.acceptWord w = .next (b.openEdge.raiseError .reservedOp) :=
    acceptWord_illegal (.reservedOp hw)
  obtain ⟨hseq, hlatch, hprog, hport, hout⟩ := raiseError_frame b.openEdge .reservedOp
  exact ⟨_, step_accepting hc hr hm ho hacc, raiseError_records b.openEdge _,
    hout.hostWords.trans (wordsAfter_accepted hr hm ho), ⟨hseq.mode, hseq.prog, hseq.upc, hseq.cnt⟩,
    ⟨hlatch.latchRs, hlatch.latchByte, hlatch.postClass⟩, ⟨hprog.initState, hprog.ctrlPhase⟩,
    ⟨hport.port, hport.ddr⟩, hout.commits⟩

/-! ### The single-nibble rows (spec 30_encoding R62) -/

theorem inInitOps_iff (b : Block c) (first last : Nat) :
    b.inInitOps first last = true ↔
      b.mode = .run ∧ b.prog = .init ∧ first ≤ b.opAtEdge ∧ b.opAtEdge ≤ last := by
  simp [Block.inInitOps, and_assoc]

theorem inInitOps_eq_false {b : Block c} (h : b.mode = .idle ∨ b.prog = .send) (first last : Nat) :
    b.inInitOps first last = false := by
  rw [← Bool.not_eq_true, inInitOps_iff]
  rintro ⟨hm, hp, -⟩
  rcases h with h | h
  · simp [hm] at h
  · simp [hp] at h

theorem nibbleFormEdge_refused {b : Block c} {first last : Nat} (h : b.inInitOps first last = false) :
    b.nibbleFormEdge first last = .refused .singleNibbleOutsideInit := by
  simp [Block.nibbleFormEdge, h]

/-- Settles O24: `nibbleFormEdge_refused` for both rows; an edge of either belongs to a running INIT. -/
theorem nibbleFormsRunOnlyInTheScript : Obligations.NibbleFormsRunOnlyInTheScript := fun _ _ =>
  ⟨fun h => congrArg onState (nibbleFormEdge_refused h), fun h => congrArg onState (nibbleFormEdge_refused h),
    fun h => ⟨inInitOps_eq_false h 3 14, inInitOps_eq_false h 15 18⟩⟩

/-! ### The host lines (spec 30_encoding R71, 42_host_pseudo R113 to R121) -/

theorem expandLine_of_wellFormed {l : HostLine} (h : l.wellFormed c = true) :
    expandLine c l = some (expansion c l) := if_pos h

theorem programWords_single {l : HostLine} {is : List Instr} (h : expandLine c l = some is) :
    programWords c [l] = some (is.map commandWord) := by
  simp [programWords, h]

/-- A command word as `op << 8 | payload`. -/
theorem hostWord_eq_or (op : BitVec 2) (p : Byte) :
    hostWord op p = op.setWidth 10 <<< 8 ||| p.setWidth 10 :=
  (BitVec.setWidth_eq _).symm.trans BitVec.setWidth_append_eq_shiftLeft_setWidth_or

/-- The encoding of a command word, read as a number of ten bits, is that word. -/
theorem ofNat_toNat_hostWord (op : BitVec 2) (p : Byte) :
    BitVec.ofNat 10 (hostWord op p).toNat = hostWord op p :=
  (BitVec.ofNat_toNat 10 _).trans (BitVec.setWidth_eq _)

theorem commandWord_sendInstr (y : Byte) : commandWord (.sendInstr y) = 0x100#10 ||| y.setWidth 10 :=
  (ofNat_toNat_hostWord 1#2 y).trans (hostWord_eq_or 1#2 y)

theorem commandWord_sendData (y : Byte) : commandWord (.sendData y) = 0x200#10 ||| y.setWidth 10 :=
  (ofNat_toNat_hostWord 2#2 y).trans (hostWord_eq_or 2#2 y)

/-- SETPOS sets bit 7 beside a 7-bit address, so `0x80 | a` is `0x80 + a` (spec 42_host_pseudo R114). -/
theorem setPosByte_eq {a : Nat} (h : a ≤ 127) : 0x80#8 ||| BitVec.ofNat 8 a = BitVec.ofNat 8 (0x80 + a) := by
  rw [Nat.two_pow_add_eq_or_of_lt (i := 7) (b := a) (by omega) 1, BitVec.ofNat_or]

/-- Settles O59: each line's operand check, then its expansion and the words of the three commands. -/
theorem hostLinesExpandToCommands : Obligations.HostLinesExpandToCommands := by
  intro c a v t s y
  refine ⟨⟨rfl, rfl⟩, ⟨rfl, ?_⟩, ⟨rfl, ?_⟩, rfl, rfl, rfl, rfl, rfl, fun ha => ?_, fun ha => ?_, rfl,
    fun hv => ?_, fun ht => ?_⟩
  · exact (programWords_single rfl).trans (by simp [expansion, commandWord_sendInstr])
  · exact (programWords_single rfl).trans (by simp [expansion, commandWord_sendData])
  · rw [expandLine_of_wellFormed (by simpa [HostLine.wellFormed] using ha), expansion, setPosByte_eq ha]
  · exact if_neg (by simpa [HostLine.wellFormed] using ha)
  · exact expandLine_of_wellFormed (by simpa [HostLine.wellFormed] using hv)
  · exact expandLine_of_wellFormed (by simpa [HostLine.wellFormed] using ht)

end Sys2Proof.Machine
end

section
/-! PROOFS. The Bus Signal Driver (spec 40_bus_signal_driver): what each micro-op's entry action writes, the
cycles of NIBBLE, BYTE and the micro-programs, one edge of the sequencer, and the lines around a strobe. -/

namespace Sys2Proof.Machine

variable {c : Config}

/-! ### The micro-ops' entry actions (R76 to R82, R87) -/

theorem entry_setRs_samePortExcept (hc : c.WellFormed) (b : Block c) (v : Bool) :
    b.SamePortExcept (b.entry (.setRs v)) [.rs, .e] := by
  intro p hp
  obtain ⟨hrs, he⟩ : p ≠ c.pin .rs ∧ p ≠ c.pin .e := by simpa using hp
  rw [Block.entry_setRs_bit hc, if_neg hrs, if_neg he]

theorem entry_strobeHi_samePortExcept (hc : c.WellFormed) (b : Block c) :
    b.SamePortExcept (b.entry .strobeHi) [.e] := by
  intro p hp
  have he : p ≠ c.pin .e := by simpa using hp
  rw [Block.entry_strobeHi_bit hc, if_neg he]

theorem entry_strobeLo_samePortExcept (b : Block c) : b.SamePortExcept (b.entry .strobeLo) [.e] := by
  intro p hp
  have he : p ≠ c.pin .e := by simpa using hp
  rw [Block.entry_strobeLo_bit, if_neg he]

/-- No micro-op writes a DDR bit outside OWN, ZERO included. -/
theorem entry_ddrBit_of_not_owned {p : Nat} (hp : ¬ Owned c p) (b : Block c) (u : MicroOp) :
    (b.entry u).ddrBit p = b.ddrBit p := by
  rw [Block.ddrBit, Block.entry_ddr]
  split_ifs
  · simp [Block.ddrBit, ownMask_bit_of_not_owned hp]
  · rfl

/-- Settles O31: `entry_portBit_of_not_owned` and `entry_ddrBit_of_not_owned` outside OWN, and for each of the
four micro-ops the lines it writes. -/
theorem microOpsKeepForeignBits : Obligations.MicroOpsKeepForeignBits := fun _ b hc =>
  ⟨fun u _ hp hu => ⟨entry_portBit_of_not_owned hc hp b hu, entry_ddrBit_of_not_owned hp b u⟩,
    fun v => ⟨entry_setRs_samePortExcept hc b v, rfl⟩,
    fun n => ⟨entry_putNib_samePortExcept hc b n, rfl⟩,
    ⟨entry_strobeHi_samePortExcept hc b, rfl⟩, ⟨entry_strobeLo_samePortExcept b, rfl⟩⟩

/-- Settles O25: SETDIR ors OWN into DDR, and OWN has the bits of the six pins alone. -/
theorem setDirMakesTheLinesOutputs : Obligations.SetDirMakesTheLinesOutputs := by
  intro c b hc
  refine ⟨fun l => ?_, fun p hp => entry_ddrBit_of_not_owned hp b .setDir, rfl, rfl, rfl⟩
  simp [Block.ddrBit, ownMask_pin hc]

/-- Settles O26, by `Block.entry_zero_port`. -/
theorem zeroClearsTheWholePort : Obligations.ZeroClearsTheWholePort := fun _ b =>
  ⟨b.entry_zero_port, rfl, rfl, rfl⟩

/-- Settles O27, by what SETRS makes of RS and E and `entry_setRs_samePortExcept`. -/
theorem setRsWritesSelectAndStrobe : Obligations.SetRsWritesSelectAndStrobe := fun _ b v hc =>
  ⟨b.entry_line_rs hc (.setRs v), b.entry_line_e hc (.setRs v), entry_setRs_samePortExcept hc b v, rfl, rfl,
    rfl⟩

/-- Settles O29, by what the two strobes make of E; the commit is made before E is written. -/
theorem strobePairCommitsOnce : Obligations.StrobePairCommitsOnce := fun _ b hc =>
  ⟨b.entry_line_e hc .strobeHi, entry_strobeHi_samePortExcept hc b, rfl, rfl, rfl,
    b.entry_line_e hc .strobeLo, entry_strobeLo_samePortExcept b, rfl, b.entry_commits .strobeLo, rfl⟩

/-- Settles O30, by `Block.entry_wait`. -/
theorem waitHoldsEveryOutput : Obligations.WaitHoldsEveryOutput := fun _ b d => ⟨b.entry_wait d, rfl⟩

/-! ### Cycles (R83, R84; spec 41_protocol_driver R96, R99) -/

theorem opsCycles_nibbleOps (n : Nibble) : opsCycles c (nibbleOps n) = nibbleCycles c := by
  simp [opsCycles, nibbleOps, nibbleCycles, duration, Nat.add_assoc]

theorem opsCycles_byteOps (v : Bool) (y : Byte) : opsCycles c (byteOps v y) = byteCycles c := by
  simp only [byteOps, opsCycles_append, opsCycles_single, opsCycles_nibbleOps, byteCycles, duration]
  omega

theorem opsCycles_initScript (c : Config) : opsCycles c (initScript c) = initCycles c := by
  have hstart : opsCycles c [.setDir, .wait .powerOn, .zero] = c.nPowerOn + 2 := by
    simp [opsCycles, duration, Config.cycles]
    omega
  simp only [initScript, List.flatten_cons, List.flatten_nil, List.append_nil, opsCycles_append, hstart,
    opsCycles_nibbleOps, opsCycles_byteOps, opsCycles_single, duration, Config.cycles, initCycles]
  omega

theorem opsCycles_sendProgram (v : Bool) (y : Byte) (k : PostClass) :
    opsCycles c (sendProgram v y k) = sendCycles c k := by
  simp only [sendProgram, opsCycles_append, opsCycles_byteOps, opsCycles_single, duration, sendCycles]

/-- Settles O33: BYTE sums its SETRS and two NIBBLEs, a program its NIBBLEs, BYTEs and other micro-ops. -/
theorem macroAndProgramDurations : Obligations.MacroAndProgramDurations := fun c n v y k =>
  ⟨opsCycles_nibbleOps n, opsCycles_byteOps v y, opsCycles_initScript c, opsCycles_sendProgram v y k⟩

/-! ### One edge of the sequencer (R74) -/

/-- Settles O8: such an edge only opens and closes, and opening it moves no line and consumes no word. -/
theorem idleEdgeWithoutCommandHolds : Obligations.IdleEdgeWithoutCommandHolds := fun _ b hc hr hm ho =>
  ⟨_, step_resting hc hr hm ho, ⟨rfl, rfl, rfl, rfl⟩, ⟨rfl, rfl, rfl⟩, ⟨rfl, rfl⟩, ⟨rfl, rfl⟩,
    fun l => ⟨b.openEdge_line l, openEdge_ddrBit_pin b l⟩, rfl, rfl, wordsAfter_silent ho, rfl⟩

theorem tick_counts {b : Block c} (h : 1 < b.cnt.toNat) : b.tick = .next b.countDown := if_pos h

theorem tick_ends {b : Block c} (h : b.cnt.toNat ≤ 1) (hl : b.upc.toNat = b.prog.lastIndex) :
    b.tick = .next b.finish := by
  rw [Block.tick, if_neg (Nat.not_lt.2 h), if_pos hl]

/-- UPC holds the number of every micro-op. -/
theorem beginOp_upc_toNat (b : Block c) {p : Program} {i : Nat} (hi : i ≤ p.lastIndex) (u : MicroOp) :
    (b.beginOp p i u).upc.toNat = i := by
  have h58 := lastIndex_le p
  rw [Block.beginOp_upc, BitVec.toNat_ofNat, Nat.mod_eq_of_lt (by omega)]

/-- The other users' writes do not show in the lines that a micro-op's entry action leaves. -/
theorem openEdge_entry_line (hc : c.WellFormed) (b : Block c) (u : MicroOp) (l : Line) :
    (b.openEdge.entry u).line l = (b.entry u).line l :=
  Block.entry_line_congr hc b.openEdge_line u l

theorem openEdge_entry_commits (b : Block c) (u : MicroOp) :
    (b.openEdge.entry u).commits = (b.entry u).commits := by
  simp [Block.entry_commits]

theorem beginOp_commits_eq_entry (b : Block c) (p : Program) (i : Nat) (u : MicroOp) :
    (b.beginOp p i u).commits = (b.entry u).commits :=
  (beginOp_commits b p i u).trans (b.entry_commits u).symm

/-- Settles O37: the three answers of `tick` on the opened edge, as `Block.Tick` lists them. -/
theorem sequencerStepRule : Obligations.SequencerStepRule := by
  intro c b hc hr hm
  refine ⟨fun hcnt => ?counts, fun hcnt hl => ?ends, fun hcnt hl => ?starts⟩
  case counts =>
    have hdown : b.openEdge.countDown.cnt.toNat + 1 = b.cnt.toNat := by
      rw [countDown_toNat (b := b.openEdge) hcnt]
      exact Nat.sub_add_cancel hcnt.le
    exact ⟨_, step_running hc hr hm (tick_counts (b := b.openEdge) hcnt), hdown, hm, rfl, rfl,
      ⟨rfl, rfl, rfl⟩, ⟨rfl, rfl⟩, ⟨rfl, rfl⟩, b.openEdge_line, rfl⟩
  case ends =>
    have hline (l : Line) : b.openEdge.finish.line l = b.line l :=
      (Block.line_congr b.openEdge.finish_port l).trans (b.openEdge_line l)
    exact ⟨_, step_running hc hr hm (tick_ends (b := b.openEdge) hcnt hl), by simp, by simp, by simp, by simp,
      finish_initState_eq b.openEdge, finish_ctrlPhase_eq b.openEdge, by constructor <;> simp,
      by constructor <;> simp, hline, by simp⟩
  case starts =>
    obtain ⟨u, hu⟩ := uop_exists b (Nat.succ_le_of_lt hl)
    refine ⟨u, _, hu, step_running hc hr hm (tick_starts (b := b.openEdge) hcnt hl.ne hu), by simp, by simp,
      beginOp_upc_toNat _ (uop_le hu) u, ?cnt, by simp, ?phase, by constructor <;> simp,
      by constructor <;> simp, fun l => ?line, ?commits⟩
    case cnt => exact (congrArg BitVec.toNat (b.openEdge.beginOp_cnt _ _ u)).trans (duration_toNat hc u)
    case phase => simp [beginOp_ctrlPhase]
    case line => exact (beginOp_line _ _ _ u l).trans (openEdge_entry_line hc b u l)
    case commits => exact (beginOp_commits_eq_entry _ _ _ u).trans (openEdge_entry_commits b u)

/-! ### The lines while E is 1 (R81, R88) -/

/-- While E is 1 a running program counts, or begins the STROBE_LO that lowers it: neither writes RS or a data
line. -/
theorem Block.Tick.holds_lines (hc : c.WellFormed) {b t : Block c} (h : b.Inv) (he : b.line .e = true)
    (ht : b.Tick t) : t.line .rs = b.line .rs ∧ t.nibbleOnLines = b.nibbleOnLines := by
  obtain ⟨-, hlast, hlo⟩ := h.after_strobe he
  cases ht with
  | counts _ => exact ⟨rfl, rfl⟩
  | ends _ hl => exact absurd hl hlast
  | starts _ _ u hu =>
    obtain rfl : u = .strobeLo := Option.some.inj (hu.symm.trans hlo)
    exact ⟨(beginOp_line _ _ _ _ _).trans (b.entry_line_rs hc .strobeLo),
      (Block.nibbleOnLines_of_lines (beginOp_line b _ _ _)).trans (b.entry_strobe_nibble hc).2⟩

/-- Settles O45: E is low in an idle block (`Block.Inv.strobe_low`), and a running one holds the lines. -/
theorem linesHoldWhileStrobeIsHigh : Obligations.LinesHoldWhileStrobeIsHigh := by
  intro c b t h hs hr he
  obtain ⟨hc, u, rfl, e⟩ := step_edge hs
  cases e with
  | reset hr' => simp [hr] at hr'
  | runs _ _ u hu =>
    obtain ⟨hrs, hdata⟩ := hu.holds_lines hc h.openEdge ((b.openEdge_line .e).trans he)
    exact ⟨hrs.trans (b.openEdge_line .rs), hdata.trans b.openEdge_nibbleOnLines⟩
  | rests _ hm _ => simp [h.strobe_low hm] at he
  | accepts _ hm _ _ _ _ _ => simp [h.strobe_low hm] at he

/-! ### The waveform of a nibble write (R83, R85) -/

/-- A PUTNIB is followed at once by a STROBE_HI. -/
theorem uop_succ_of_putNib {b : Block c} {p : Program} {i : Nat} {n : Nibble}
    (h : b.uop p i = some (.putNib n)) : b.uop p (i + 1) = some .strobeHi := by
  have hi := uop_le h
  revert h
  cases p with
  | init =>
    simp only [Program.lastIndex] at hi
    simp only [Block.uop, Block.microProgram, initScript, List.flatten_cons, List.flatten_nil,
      nibbleOps, byteOps, List.cons_append, List.nil_append]
    interval_cases i <;> simp
  | send =>
    simp only [Program.lastIndex] at hi
    simp only [Block.uop, Block.microProgram, sendProgram, nibbleOps, byteOps, List.cons_append,
      List.nil_append]
    interval_cases i <;> simp

/-- `uop_after_strobeHi` for every index: no program ends with a STROBE_HI. -/
theorem uop_succ_of_strobeHi {b : Block c} {p : Program} {i : Nat} (h : b.uop p i = some .strobeHi) :
    b.uop p (i + 1) = some .strobeLo := by
  have hne : i ≠ p.lastIndex := fun e => uop_last_ne_strobeHi b p (e ▸ h)
  exact uop_after_strobeHi b p i (((uop_le h).lt_of_ne hne).trans_le (lastIndex_le p)) h

/-- After `k + 1` edges from `b` there is a next state, with `n` on the data lines, `rs` on RS and `e` on E. -/
def Block.Shows (b : Block c) (k : Nat) (n : Nibble) (rs e : Bool) : Prop :=
  ∃ t : Block c, Host.Core.run Sys2Proof.core (k + 1) ⟨c, b⟩ = .next ⟨c, t⟩ ∧
    t.nibbleOnLines = n ∧ t.line .rs = rs ∧ t.line .e = e

/-- Throughout a micro-op's cycles in a quiet outside the lines stay as its entry action leaves them. -/
theorem Block.Before.shows_op (hc : c.WellFormed) {b : Block c} {p : Program} {i : Nat} {u : MicroOp}
    (h : b.Before p i) (hu : b.uop p i = some u) : ∀ k < duration c u,
      b.Shows k (b.entry u).nibbleOnLines ((b.entry u).line .rs) ((b.entry u).line .e) := by
  intro k hk
  obtain ⟨hq, hm, rfl, rfl, hcnt⟩ := h
  have hbegin := quiet_step_run hc hq hm (tick_starts hcnt (Nat.lt_of_succ_le (uop_le hu)).ne hu)
  have hleft : k < (b.beginOp b.prog (b.upc.toNat + 1) u).closeEdge.cnt.toNat := by
    rwa [Block.closeEdge_cnt, Block.beginOp_cnt, duration_toNat hc]
  have hcount := run_elapse hc (hq.congr (by simp) (by simp)) (by simp) k hleft
  have hline := beginOp_line b b.prog (b.upc.toNat + 1) u
  exact ⟨_, (run_step hbegin).trans hcount, Block.nibbleOnLines_of_lines hline, hline .rs, hline .e⟩

theorem Block.Before.doOp (hc : c.WellFormed) {b : Block c} {p : Program} {i : Nat} {u : MicroOp}
    (h : b.Before p i) (hu : b.uop p i = some u) : (b.doOp p i u).Before p (i + 1) :=
  doOp_before hc h.quiet p u ((uop_le hu).trans (lastIndex_le p))

/-- What shows after a micro-op shows its duration later from before it. -/
theorem Block.Before.shows_past_op (hc : c.WellFormed) {b : Block c} {p : Program} {i : Nat} {u : MicroOp}
    (h : b.Before p i) (hu : b.uop p i = some u) {k : Nat} {n : Nibble} {rs e : Bool}
    (hs : (b.doOp p i u).Shows k n rs e) : b.Shows (duration c u + k) n rs e := by
  obtain ⟨t, ht, hlines⟩ := hs
  exact ⟨t, (run_add (run_op hc h hu)).trans ht, hlines⟩

theorem doOp_nibbleOnLines (b : Block c) (p : Program) (i : Nat) (u : MicroOp) :
    (b.doOp p i u).nibbleOnLines = (b.entry u).nibbleOnLines :=
  Block.nibbleOnLines_of_lines (doOp_line b p i u)

/-- The three phases of a nibble write: the data lines are set up, E is high, E is low again. -/
theorem Block.Before.shows_nibble (hc : c.WellFormed) {b : Block c} {p : Program} {i : Nat} {n : Nibble}
    (h : b.Before p i) (hu : b.uop p i = some (.putNib n)) (he : b.line .e = false) :
    (∀ k < c.nSetup, b.Shows k n (b.line .rs) false) ∧
    (∀ k < c.nEh, b.Shows (c.nSetup + k) n (b.line .rs) true) ∧
    (∀ k < c.nEl, b.Shows (c.nSetup + (c.nEh + k)) n (b.line .rs) false) := by
  have hhi := uop_succ_of_putNib hu
  have hlo := uop_succ_of_strobeHi hhi
  have hb₁ := h.doOp hc hu
  have hhi₁ : (b.doOp p i (.putNib n)).uop p (i + 1) = some .strobeHi := (doOp_uop ..).trans hhi
  have hb₂ := hb₁.doOp hc hhi₁
  have hlo₂ : ((b.doOp p i (.putNib n)).doOp p (i + 1) .strobeHi).uop p (i + 1 + 1) = some .strobeLo :=
    (doOp_uop ..).trans ((doOp_uop ..).trans hlo)
  have setup := h.shows_op hc hu
  have high := hb₁.shows_op hc hhi₁
  have low := hb₂.shows_op hc hlo₂
  simp only [doOp_nibbleOnLines, doOp_line, Block.entry_putNib_nibble hc, Block.entry_strobe_nibble hc,
    Block.entry_line_rs hc, Block.entry_line_e hc, selectAfter, strobeAfter, he] at setup high low
  exact ⟨setup, fun k hk => h.shows_past_op hc hu (high k hk),
    fun k hk => h.shows_past_op hc hu (hb₁.shows_past_op hc hhi₁ (low k hk))⟩

/-- Settles O52: `Block.Before.shows_nibble`, E being low before a PUTNIB since a STROBE_HI is followed by a
STROBE_LO. -/
theorem nibbleWaveform : Obligations.NibbleWaveform := by
  intro c b n hc h hq hm hcnt hu k hk
  have he : b.line .e = false := by
    by_contra hne
    obtain ⟨-, -, hlo⟩ := h.after_strobe (by simpa using hne)
    simp [hu] at hlo
  have hb : b.Before b.prog (b.upc.toNat + 1) := ⟨hq, hm, rfl, rfl, hcnt⟩
  obtain ⟨hsetup, hhigh, hlow⟩ := hb.shows_nibble hc hu he
  have hshows : b.Shows k n (b.line .rs) (decide (c.nSetup ≤ k ∧ k < c.nSetup + c.nEh)) := by
    rcases Nat.lt_or_ge k c.nSetup with hk₀ | hk₀
    · simpa [Nat.not_le.2 hk₀] using hsetup k hk₀
    obtain ⟨k, rfl⟩ := Nat.exists_eq_add_of_le hk₀
    rcases Nat.lt_or_ge k c.nEh with hk₁ | hk₁
    · simpa [hk₁] using hhigh k hk₁
    obtain ⟨k, rfl⟩ := Nat.exists_eq_add_of_le hk₁
    simpa using hlow k (by omega)
  obtain ⟨t, hrun, hdata, hrs, hstrobe⟩ := hshows
  exact ⟨t, hrun, hdata, hrs, by rw [hstrobe, decide_eq_true_iff]⟩

end Sys2Proof.Machine
end

section
/-! PROOFS. The protocol driver (spec 41_protocol_driver): the micro-programs as listings, what an acceptance
begins, the script's single-nibble edges, when RS rises, and the whole runs of SEND, INIT and a host program. -/

namespace Sys2Proof.Machine

variable {c : Config}

/-! ### The micro-programs and the waits (R94, R99, R100) -/

/-- Settles O34: BYTE and the post-delay, written out. -/
theorem sendProgramListing : Obligations.SendProgramListing := fun _ _ _ => rfl

/-- Settles O35: the script's NIBBLEs, BYTEs and waits, written out. -/
theorem initScriptListing : Obligations.InitScriptListing := fun _ => rfl

/-- Settles O36: the three answers of `post_class`, one per branch, and the table of the waits. -/
theorem postDelayClassification : Obligations.PostDelayClassification := fun _ _ =>
  ⟨fun hclear => if_pos hclear, fun hclear hhome => (if_neg hclear).trans (if_pos hhome),
    fun hclear hhome => (if_neg hclear).trans (if_neg hhome), rfl, rfl, rfl, rfl⟩

/-! ### A running program (R90, R128) -/

/-- Whether a word is offered or not, the running program steps. -/
theorem edgeAction_running {b : Block c} (hr : b.nextInput.rst = false) (hm : b.mode = .run) :
    edgeAction exec ⟨c, b⟩ = onState b.openEdge.tick := by
  simp only [edgeAction, hr]
  cases b.offeredWord with
  | none => simp [Block.plainEdge, hm]
  | some w =>
    change exec (decodeHostCmd w) ⟨c, b.openEdge⟩ = _
    simp [exec_decodeHostCmd, Block.offered, hm]

theorem step_eq_closing (hc : c.WellFormed) (b : Block c) :
    step ⟨c, b⟩ = closing (edgeAction exec ⟨c, b⟩) := if_pos hc

/-- Settles O7: `edgeAction_running`, and no part of such an edge takes a word from the host. -/
theorem runningProgramMakesTheHostWait : Obligations.RunningProgramMakesTheHostWait := by
  intro c b hc hr hm
  refine ⟨(step_eq_closing hc b).trans (congrArg closing (edgeAction_running hr hm)), wordsAfter_run hm,
    fun s' hs => ?_⟩
  obtain ⟨-, t, rfl, e⟩ := step_next hs
  exact e.host.left.trans (wordsAfter_run hm)

/-! ### Acceptance (R90 to R93) -/

/-- Only a STROBE_LO reaches the controller observer. -/
theorem beginOp_observer {u : MicroOp} (hu : u ≠ .strobeLo) (b : Block c) (p : Program) (i : Nat) :
    (b.beginOp p i u).controller = b.controller ∧ (b.beginOp p i u).draws = b.draws := by
  cases u with
  | strobeLo => exact absurd rfl hu
  | _ => constructor <;> simp [Block.beginOp, Block.sense]

theorem beginOp_sameOutside {u : MicroOp} (hu : u ≠ .strobeLo) (b : Block c) (p : Program) (i : Nat) :
    b.SameOutside (b.beginOp p i u) :=
  ⟨by simp, by simp, by simp, by simp, by simp [hu], (beginOp_observer hu b p i).left,
    (beginOp_observer hu b p i).right⟩

theorem acceptInit_of_not_ready {b : Block c} (h : b.initState ≠ .ready) :
    b.acceptInit = .next (b.enterInit.beginOp .init 0 .setDir) :=
  (if_neg h).trans (start_eq (uop_init_zero _))

theorem acceptSend_of_ready {b : Block c} (h : b.initState = .ready) (rs : Bool) (y : Byte) (k : PostClass) :
    b.acceptSend rs y k = .next ((b.latch rs y k).beginOp .send 0 (.setRs rs)) :=
  (if_pos h).trans (start_eq (uop_send_zero _))

/-- Settles O15: the acceptance begins SETDIR on the block that has entered INIT. -/
theorem initStartsTheScript : Obligations.InitStartsTheScript := by
  intro c b p hm hi
  have hexec : exec (.init p) ⟨c, b⟩ = .next ⟨c, b.enterInit.beginOp .init 0 .setDir⟩ :=
    congrArg onState ((offered_idle hm _).trans (acceptInit_of_not_ready hi))
  obtain ⟨h1, h2, h3, h4, h5, h6, h7⟩ := beginOp_sameOutside (u := .setDir) (by decide) b.enterInit .init 0
  exact ⟨_, hexec, by simp, by simp, by simp, by simp [duration], by simp, by simp [beginOp_ctrlPhase],
    by simp, by simp, by constructor <;> simp, by constructor <;> simp, ⟨h1, h2, h3, h4, h5, h6, h7⟩⟩

theorem beginOp_cnt_toNat (hc : c.WellFormed) (b : Block c) (p : Program) (i : Nat) (u : MicroOp) :
    (b.beginOp p i u).cnt.toNat = duration c u :=
  (congrArg BitVec.toNat (b.beginOp_cnt p i u)).trans (duration_toNat hc u)

/-- What the acceptance of a SEND changes, and what it leaves: the operands are latched and SETRS begins. -/
theorem sendFrame_begins (hc : c.WellFormed) (b : Block c) (rs : Bool) (y : Byte) (k : PostClass) :
    let t := (b.latch rs y k).beginOp .send 0 (.setRs rs)
    t.mode = .run ∧ t.prog = .send ∧ t.upc = 0#6 ∧ t.cnt.toNat = c.nSetup ∧
      t.latchRs = rs ∧ t.latchByte = y ∧ t.postClass = k ∧
      t.line .rs = rs ∧ t.line .e = false ∧ b.SamePortExcept t [.rs, .e] ∧ t.ddr = b.ddr ∧
      b.SameErrors t ∧ b.SameProgress t ∧ b.SameOutside t := by
  intro t
  have hline (l : Line) : t.line l = ((b.latch rs y k).entry (.setRs rs)).line l := beginOp_line _ _ _ _ l
  have hcnt : t.cnt.toNat = c.nSetup := beginOp_cnt_toNat hc ..
  have hport : b.SamePortExcept t [.rs, .e] := fun p hp =>
    (beginOp_portBit _ _ _ _ p).trans (entry_setRs_samePortExcept hc (b.latch rs y k) rs p hp)
  obtain ⟨h1, h2, h3, h4, h5, h6, h7⟩ :=
    beginOp_sameOutside (u := .setRs rs) (by simp) (b.latch rs y k) .send 0
  exact ⟨by simp [t], by simp [t], by simp [t], hcnt, by simp [t], by simp [t], by simp [t],
    (hline .rs).trans (Block.entry_line_rs hc _ _), (hline .e).trans (Block.entry_line_e hc _ _), hport,
    by simp [t], by constructor <;> simp [t], by constructor <;> simp [t, beginOp_ctrlPhase],
    ⟨h1, h2, h3, h4, h5, h6, h7⟩⟩

/-- Settles O17: `sendFrame_begins` with RS = 0 and the byte's class. -/
theorem sendInstrStartsTheFrame : Obligations.SendInstrStartsTheFrame := by
  intro c b y hc hm hi
  have hexec := congrArg onState
    ((offered_idle hm fun x => x.acceptSendInstr y).trans (acceptSend_of_ready hi false y (postClassOf c y)))
  exact ⟨_, hexec, sendFrame_begins hc b false y (postClassOf c y)⟩

/-- Settles O18: `sendFrame_begins` with RS = 1 and the class DATA. -/
theorem sendDataStartsTheFrame : Obligations.SendDataStartsTheFrame := by
  intro c b y hc hm hi
  have hexec := congrArg onState
    ((offered_idle hm fun x => x.acceptSendData y).trans (acceptSend_of_ready hi true y .data))
  exact ⟨_, hexec, sendFrame_begins hc b true y .data⟩

/-- A row of the closed set is executed as the SEND_INSTR of its own byte (log 4). -/
theorem exec_lcdInstr {i : Instr} (h : i.format = .lcdInstr) (s : State) :
    ∃ y : Byte, y.toNat = encode i ∧ exec i s = exec (.sendInstr y) s := by
  cases i with
  | clearDisplay => exact ⟨0x01#8, rfl, rfl⟩
  | homeCursor x => exact ⟨homeCursorByte x, rfl, rfl⟩
  | entryModeSet i sh => exact ⟨entryModeByte i sh, rfl, rfl⟩
  | displayOnOff d cu bl => exact ⟨displayOnOffByte d cu bl, rfl, rfl⟩
  | functionReset n f x => exact ⟨functionResetByte n f x, rfl, rfl⟩
  | functionSet4Bit n f x => exact ⟨functionSet4BitByte n f x, rfl, rfl⟩
  | setCursorPosition a => exact ⟨setCursorByte a, rfl, rfl⟩
  | _ => cases h

/-- Settles O21: `exec_lcdInstr`, then the SEND_INSTR of that byte. -/
theorem lcdInstructionsStartTheirFrame : Obligations.LcdInstructionsStartTheirFrame := by
  intro c b i hc hf hm hi
  obtain ⟨y, hy, hexec⟩ := exec_lcdInstr hf ⟨c, b⟩
  obtain ⟨t, ht, hmode, hprog, hupc, hcnt, hrs, rfl, hclass, hrest⟩ :=
    sendInstrStartsTheFrame c b y hc hm hi
  exact ⟨t, hexec.trans ht, hmode, hprog, hupc, hcnt, hrs, hy, hclass, hrest⟩

/-! ### Mode-Select (R97) -/

/-- SETRS begins a SEND program and stands nowhere else in it. -/
theorem uop_setRs_send {b : Block c} {i : Nat} {v : Bool} (h : b.uop .send i = some (.setRs v)) : i = 0 := by
  have hi := uop_le h
  revert h
  simp only [Program.lastIndex] at hi
  simp only [Block.uop, Block.microProgram, sendProgram, nibbleOps, byteOps, List.cons_append,
    List.nil_append]
  interval_cases i <;> simp

/-- A micro-op that begins while a program runs does not raise RS. -/
theorem selectAfter_of_uop_succ {b : Block c} {p : Program} {i : Nat} {u : MicroOp}
    (hu : b.uop p (i + 1) = some u) : selectAfter false u = false := by
  cases u with
  | setRs v =>
    cases p with
    | init => exact uop_setRs_init b _ v hu
    | send => exact absurd (uop_setRs_send hu) (Nat.succ_ne_zero i)
  | _ => rfl

theorem Block.Tick.select_low (hc : c.WellFormed) {b t : Block c} (ht : b.Tick t) (hb : b.line .rs = false) :
    t.line .rs = false := by
  cases ht with
  | counts _ => exact hb
  | ends _ _ => exact (Block.line_congr b.finish_port .rs).trans hb
  | starts _ _ u hu => rw [beginOp_line, Block.entry_line_rs hc, hb, selectAfter_of_uop_succ hu]

/-- An acceptance that raises RS is that of a SEND_DATA in READY. -/
theorem acceptWord_raises_select (hc : c.WellFormed) {b t : Block c} {w : CmdWord}
    (h : b.acceptWord w = .next t) (hb : b.line .rs = false) (ht : t.line .rs = true) :
    b.initState = .ready ∧ w.toNat / 256 = 2 := by
  have herr (e : ErrCause) : (b.raiseError e).line .rs = false :=
    (Block.line_congr (b.raiseError_port e) .rs).trans hb
  by_cases hi : b.initState = .ready
  · refine ⟨hi, ?_⟩
    by_contra h2
    rw [acceptWord_eq, if_neg h2] at h
    split_ifs at h with h0 h1
    · rw [Block.acceptInit, if_pos hi] at h
      cases h
      simp [herr] at ht
    · rw [Block.acceptSendInstr, acceptSend_of_ready hi] at h
      cases h
      simp [beginOp_line, Block.entry_line_rs hc, selectAfter] at ht
    · cases h
      simp [herr] at ht
  · exfalso
    cases acceptWord_op h with
    | error e _ => simp [herr] at ht
    | init _ _ =>
      have hrs : b.enterInit.line .rs = false := hb
      simp [beginOp_line, Block.entry_line_rs hc, selectAfter, hrs] at ht
    | send _ _ _ hr => exact hi hr

/-- Settles O50: a reset edge, a running program and an idle edge without a command keep RS low. -/
theorem selectRisesOnlyForData : Obligations.SelectRisesOnlyForData := by
  intro c b t h hs hb ht
  obtain ⟨hc, u, rfl, e⟩ := step_edge hs
  have hopen : b.openEdge.line .rs = false := (b.openEdge_line .rs).trans hb
  have hu : u.line .rs = true := ht
  cases e with
  | reset _ => simp [Block.line, Block.portBit] at hu
  | runs _ _ u htick => simp [htick.select_low hc hopen] at hu
  | rests _ _ _ => simp [hopen] at hu
  | accepts _ hm w ho u hw _ =>
    obtain ⟨hi, hop⟩ := acceptWord_raises_select hc hw hopen hu
    exact ⟨hm, hi, w, ho, hop⟩

end Sys2Proof.Machine

namespace Sys2Proof.Machine

variable {c : Config}

/-! ### The single-nibble edges of the script (R94, R105, R106) -/

/-- A micro-op of NIBBLE, or a wait. -/
def inNibbleForm : MicroOp → Bool
  | .putNib _ | .strobeHi | .strobeLo | .wait _ => true
  | .setDir | .zero | .setRs _ => false

theorem uop_init_inNibbleForm {b : Block c} {i : Nat} {u : MicroOp} (h3 : 3 ≤ i) (h18 : i ≤ 18)
    (h : b.uop .init i = some u) : inNibbleForm u = true := by
  revert h
  simp only [Block.uop, Block.microProgram, initScript, List.flatten_cons, List.flatten_nil, nibbleOps,
    List.cons_append, List.nil_append]
  interval_cases i <;> simp <;> rintro rfl <;> rfl

/-- The STROBE_LOs of the four single nibbles. -/
theorem mem_of_uop_init_strobeLo {b : Block c} {i : Nat} (h18 : i + 1 ≤ 18)
    (h : b.uop .init (i + 1) = some .strobeLo) : i ∈ [4, 8, 12, 16] := by
  have hi : i ≤ 17 := Nat.le_of_succ_le_succ h18
  revert h
  simp only [Block.uop, Block.microProgram, initScript, List.flatten_cons, List.flatten_nil, nibbleOps,
    List.cons_append, List.nil_append]
  interval_cases i <;> simp

/-- What no edge of a single-nibble form touches. -/
structure Block.KeepsBesideNibble (b t : Block c) : Prop where
  port : b.SamePortExcept t [.e, .db4, .db5, .db6, .db7]
  ddr : t.ddr = b.ddr
  initState : t.initState = b.initState
  latches : b.SameLatches t
  errors : b.SameErrors t
  hostWords : t.hostWords = b.hostWords
  hostPauses : t.hostPauses = b.hostPauses
  edgeInputs : t.edgeInputs = b.edgeInputs
  edge : t.edge = b.edge

theorem Block.SamePortExcept.mono {b t : Block c} {ls ms : List Line} (h : b.SamePortExcept t ls)
    (hs : ls ⊆ ms) : b.SamePortExcept t ms := fun p hp =>
  h p fun hl => hp (List.map_subset c.pin hs hl)

theorem entry_samePortExcept_of_inNibbleForm (hc : c.WellFormed) (b : Block c) {u : MicroOp}
    (hu : inNibbleForm u = true) : b.SamePortExcept (b.entry u) [.e, .db4, .db5, .db6, .db7] := by
  cases u with
  | putNib n => exact (entry_putNib_samePortExcept hc b n).mono (by decide)
  | strobeHi => exact (entry_strobeHi_samePortExcept hc b).mono (by decide)
  | strobeLo => exact (entry_strobeLo_samePortExcept b).mono (by decide)
  | wait _ => exact fun _ _ => rfl
  | _ => cases hu

theorem beginOp_keepsBesideNibble (hc : c.WellFormed) (b : Block c) (p : Program) (i : Nat) {u : MicroOp}
    (hu : inNibbleForm u = true) : b.KeepsBesideNibble (b.beginOp p i u) where
  port := fun q hq => (beginOp_portBit b p i u q).trans (entry_samePortExcept_of_inNibbleForm hc b hu q hq)
  ddr := by
    rw [beginOp_ddr, if_neg]
    rintro rfl
    cases hu
  initState := by simp
  latches := by constructor <;> simp
  errors := by constructor <;> simp
  hostWords := by simp
  hostPauses := by simp
  edgeInputs := by simp
  edge := by simp

theorem countDown_keepsBesideNibble (b : Block c) : b.KeepsBesideNibble b.countDown :=
  ⟨fun _ _ => rfl, rfl, rfl, ⟨rfl, rfl, rfl⟩, ⟨rfl, rfl⟩, rfl, rfl, rfl, rfl⟩

/-- Everything an edge of INIT micro-ops 3 to 18 does: it counts, or begins the script's next micro-op. -/
structure Block.NibbleEdge (b t : Block c) : Prop where
  mode : t.mode = .run
  prog : t.prog = .init
  upc : t.upc.toNat = b.opAtEdge
  counts : 1 < b.cnt.toNat → t.cnt.toNat + 1 = b.cnt.toNat ∧ b.SamePorts t ∧ t.commits = b.commits ∧
    t.controller = b.controller
  putNib : ∀ n, b.cnt.toNat ≤ 1 → b.uop .init (b.upc.toNat + 1) = some (.putNib n) →
    t.nibbleOnLines = n ∧ t.cnt.toNat = c.nSetup ∧ t.line .e = b.line .e
  strobeHi : b.cnt.toNat ≤ 1 → b.uop .init (b.upc.toNat + 1) = some .strobeHi →
    t.line .e = true ∧ t.nibbleOnLines = b.nibbleOnLines ∧ t.cnt.toNat = c.nEh
  strobeLo : b.cnt.toNat ≤ 1 → b.uop .init (b.upc.toNat + 1) = some .strobeLo →
    t.line .e = false ∧ t.nibbleOnLines = b.nibbleOnLines ∧ t.cnt.toNat = c.nEl ∧
      t.commits = b.commits ++ [⟨b.edge, b.line .rs, b.nibbleOnLines⟩]
  wait : ∀ d, b.cnt.toNat ≤ 1 → b.uop .init (b.upc.toNat + 1) = some (.wait d) →
    t.cnt.toNat = c.cycles d ∧ b.SamePorts t
  silent : ¬ (b.cnt.toNat ≤ 1 ∧ b.uop .init (b.upc.toNat + 1) = some .strobeLo) →
    t.commits = b.commits ∧ t.controller = b.controller ∧ t.draws = b.draws
  ctrlPhase : t.ctrlPhase =
    if b.cnt.toNat ≤ 1 ∧ b.upc.toNat = 12 then .eightBitAssumed else b.ctrlPhase
  keeps : b.KeepsBesideNibble t

theorem nibbleEdge_countDown {b : Block c} (hm : b.mode = .run) (hp : b.prog = .init)
    (hcnt : 1 < b.cnt.toNat) : b.NibbleEdge b.countDown where
  mode := hm
  prog := hp
  upc := (if_pos hcnt).symm
  counts _ := by
    refine ⟨?_, ⟨rfl, rfl⟩, rfl, rfl⟩
    rw [countDown_toNat hcnt]
    exact Nat.sub_add_cancel hcnt.le
  putNib _ h _ := absurd hcnt (Nat.not_lt.2 h)
  strobeHi h _ := absurd hcnt (Nat.not_lt.2 h)
  strobeLo h _ := absurd hcnt (Nat.not_lt.2 h)
  wait _ h _ := absurd hcnt (Nat.not_lt.2 h)
  silent _ := ⟨rfl, rfl, rfl⟩
  ctrlPhase := (if_neg fun h => absurd hcnt (Nat.not_lt.2 h.left)).symm
  keeps := countDown_keepsBesideNibble b

theorem beginOp_nibbleOnLines (b : Block c) (p : Program) (i : Nat) (u : MicroOp) :
    (b.beginOp p i u).nibbleOnLines = (b.entry u).nibbleOnLines :=
  Block.nibbleOnLines_of_lines (beginOp_line b p i u)

theorem nibbleEdge_beginOp (hc : c.WellFormed) {b : Block c} {u : MicroOp} (hcnt : b.cnt.toNat ≤ 1)
    (h3 : 3 ≤ b.upc.toNat + 1) (h18 : b.upc.toNat + 1 ≤ 18)
    (hu : b.uop .init (b.upc.toNat + 1) = some u) :
    b.NibbleEdge (b.beginOp .init (b.upc.toNat + 1) u) where
  mode := by simp
  prog := by simp
  upc := by
    rw [beginOp_upc_toNat b (uop_le hu), Block.opAtEdge, if_neg (Nat.not_lt.2 hcnt)]
  counts h := absurd h (Nat.not_lt.2 hcnt)
  putNib n _ h := by
    obtain rfl : u = .putNib n := Option.some.inj (hu.symm.trans h)
    exact ⟨(beginOp_nibbleOnLines ..).trans (b.entry_putNib_nibble hc n), beginOp_cnt_toNat hc ..,
      (beginOp_line ..).trans (b.entry_line_e hc (.putNib n))⟩
  strobeHi _ h := by
    obtain rfl : u = .strobeHi := Option.some.inj (hu.symm.trans h)
    exact ⟨(beginOp_line ..).trans (b.entry_line_e hc .strobeHi),
      (beginOp_nibbleOnLines ..).trans (b.entry_strobe_nibble hc).left, beginOp_cnt_toNat hc ..⟩
  strobeLo _ h := by
    obtain rfl : u = .strobeLo := Option.some.inj (hu.symm.trans h)
    exact ⟨(beginOp_line ..).trans (b.entry_line_e hc .strobeLo),
      (beginOp_nibbleOnLines ..).trans (b.entry_strobe_nibble hc).right, beginOp_cnt_toNat hc .., by simp⟩
  wait d _ h := by
    obtain rfl : u = .wait d := Option.some.inj (hu.symm.trans h)
    exact ⟨beginOp_cnt_toNat hc .., by simp, by simp⟩
  silent h := by
    have hne : u ≠ .strobeLo := fun e => h ⟨hcnt, e ▸ hu⟩
    exact ⟨by simp [hne], beginOp_observer hne b ..⟩
  ctrlPhase := by
    have h27 : b.upc.toNat + 1 ≠ 27 := by omega
    simp [beginOp_ctrlPhase, hcnt, h27]
  keeps := beginOp_keepsBesideNibble hc b _ _ (uop_init_inNibbleForm h3 h18 hu)

/-- An edge within INIT micro-ops 3 to 18, as either single-nibble form runs it. -/
theorem nibbleFormEdge_next (hc : c.WellFormed) {b : Block c} {first last : Nat}
    (h : b.inInitOps first last = true) (h3 : 3 ≤ first) (h18 : last ≤ 18) :
    ∃ t, b.nibbleFormEdge first last = .next t ∧ b.NibbleEdge t := by
  have htick : b.nibbleFormEdge first last = b.tick := if_pos h
  obtain ⟨hm, hp, hfirst, hlast⟩ := (inInitOps_iff b first last).1 h
  rcases Nat.lt_or_ge 1 b.cnt.toNat with hcnt | hcnt
  · exact ⟨_, htick.trans (tick_counts hcnt), nibbleEdge_countDown hm hp hcnt⟩
  · have hop : b.opAtEdge = b.upc.toNat + 1 := if_neg (Nat.not_lt.2 hcnt)
    obtain ⟨u, hu⟩ := uop_exists b (p := .init) (i := b.upc.toNat + 1) (show _ ≤ 58 by omega)
    have hstart : b.tick = .next (b.beginOp .init (b.upc.toNat + 1) u) := by
      have hne : b.upc.toNat ≠ b.prog.lastIndex := by
        rw [hp]
        exact (Nat.lt_of_succ_le (uop_le hu)).ne
      simpa [hp] using tick_starts hcnt hne (u := u) (by rwa [hp])
    exact ⟨_, htick.trans hstart, nibbleEdge_beginOp hc hcnt (by omega) (by omega) hu⟩

theorem uop_init_putNib_nibReset {b : Block c} {i : Nat} (h : i ∈ [2, 6, 10]) :
    b.uop .init (i + 1) = some (.putNib c.nibReset) := by
  simp only [List.mem_cons, List.not_mem_nil, or_false] at h
  rcases h with rfl | rfl | rfl <;> rfl

theorem uop_init_strobeHi {b : Block c} {i : Nat} (h : i ∈ [3, 7, 11, 15]) :
    b.uop .init (i + 1) = some .strobeHi := by
  simp only [List.mem_cons, List.not_mem_nil, or_false] at h
  rcases h with rfl | rfl | rfl | rfl <;> rfl

theorem uop_init_strobeLo {b : Block c} {i : Nat} (h : i ∈ [4, 8, 12, 16]) :
    b.uop .init (i + 1) = some .strobeLo := by
  simp only [List.mem_cons, List.not_mem_nil, or_false] at h
  rcases h with rfl | rfl | rfl | rfl <;> rfl

/-- A micro-op of the script that begins behind a UPC known by its number. -/
theorem uop_init_succ_of_upc {b : Block c} {i : Nat} {u : MicroOp} (hu : b.uop .init (i + 1) = some u)
    (h : b.upc.toNat = i) : b.uop .init (b.upc.toNat + 1) = some u := h ▸ hu

/-- Settles O22: `nibbleFormEdge_next`, with the micro-op that the listing has behind each UPC. -/
theorem nibResetRunsInTheScript : Obligations.NibResetRunsInTheScript := by
  intro c b hc h
  obtain ⟨t, ht, e⟩ := nibbleFormEdge_next hc h (by decide) (by decide)
  obtain ⟨-, -, -, hlast⟩ := (inInitOps_iff b 3 14).1 h
  have hsilent (hno : ¬ (b.cnt.toNat ≤ 1 ∧ b.upc.toNat ∈ [4, 8, 12])) :
      ¬ (b.cnt.toNat ≤ 1 ∧ b.uop .init (b.upc.toNat + 1) = some .strobeLo) := by
    rintro ⟨hcnt, hlo⟩
    have hop : b.opAtEdge = b.upc.toNat + 1 := if_neg (Nat.not_lt.2 hcnt)
    have hmem := mem_of_uop_init_strobeLo (by omega) hlo
    simp only [List.mem_cons, List.not_mem_nil, or_false] at hno hmem
    omega
  have hmem {i : Nat} {l : List Nat} (x : Nat) (hi : i ∈ l) : i ∈ l ++ [x] := List.mem_append_left [x] hi
  refine ⟨t, congrArg onState ht, e.mode, e.prog, e.upc, e.counts,
    fun ⟨hcnt, hi⟩ => e.putNib _ hcnt (uop_init_putNib_nibReset hi),
    fun ⟨hcnt, hi⟩ => e.strobeHi hcnt (uop_init_strobeHi (hmem 15 hi)),
    fun ⟨hcnt, hi⟩ => e.strobeLo hcnt (uop_init_strobeLo (hmem 16 hi)),
    fun hcnt hi => e.wait .reset1 hcnt (uop_init_succ_of_upc rfl hi),
    fun hcnt hi => e.wait .reset2 hcnt (uop_init_succ_of_upc rfl hi),
    fun hcnt hi => e.wait .reset3 hcnt (uop_init_succ_of_upc rfl hi),
    fun hno => e.silent (hsilent hno), e.ctrlPhase, e.keeps.port, e.keeps.ddr, e.keeps.initState,
    e.keeps.latches, e.keeps.errors, e.keeps.hostWords, e.keeps.hostPauses, e.keeps.edgeInputs, e.keeps.edge⟩

/-- Settles O23: `nibbleFormEdge_next`, with the micro-op that the listing has behind each UPC. -/
theorem nib4BitRunsInTheScript : Obligations.Nib4BitRunsInTheScript := by
  intro c b hc h
  obtain ⟨t, ht, e⟩ := nibbleFormEdge_next hc h (by decide) (by decide)
  obtain ⟨-, -, hfirst, hlast⟩ := (inInitOps_iff b 15 18).1 h
  have hop (hcnt : b.cnt.toNat ≤ 1) : b.opAtEdge = b.upc.toNat + 1 := if_neg (Nat.not_lt.2 hcnt)
  have hsilent (hno : ¬ (b.cnt.toNat ≤ 1 ∧ b.upc.toNat = 16)) :
      ¬ (b.cnt.toNat ≤ 1 ∧ b.uop .init (b.upc.toNat + 1) = some .strobeLo) := by
    rintro ⟨hcnt, hlo⟩
    have hupc := hop hcnt
    have hmem := mem_of_uop_init_strobeLo (by omega) hlo
    simp only [List.mem_cons, List.not_mem_nil, or_false] at hmem
    omega
  have hphase : t.ctrlPhase = b.ctrlPhase := e.ctrlPhase.trans (if_neg fun ⟨hcnt, hi⟩ => by
    have hupc := hop hcnt
    omega)
  exact ⟨t, congrArg onState ht, e.mode, e.prog, e.upc, e.counts,
    fun ⟨hcnt, hi⟩ => e.putNib _ hcnt (uop_init_succ_of_upc rfl hi),
    fun ⟨hcnt, hi⟩ => e.strobeHi hcnt (uop_init_succ_of_upc rfl hi),
    fun ⟨hcnt, hi⟩ => e.strobeLo hcnt (uop_init_succ_of_upc rfl hi),
    fun ⟨hcnt, hi⟩ => e.wait .nib4 hcnt (uop_init_succ_of_upc rfl hi),
    fun hno => e.silent (hsilent hno), e.keeps.port, e.keeps.ddr, ⟨e.keeps.initState, hphase⟩,
    e.keeps.latches, e.keeps.errors, e.keeps.hostWords, e.keeps.hostPauses, e.keeps.edgeInputs, e.keeps.edge⟩

end Sys2Proof.Machine

namespace Sys2Proof.Machine

variable {c : Config}

/-! ### What a list of micro-ops leaves on the port and on the bus -/

/-- The nibble on the data lines after a micro-op's entry action. -/
def nibbleAfter (old : Nibble) : MicroOp → Nibble
  | .zero => 0#4
  | .putNib n => n
  | .setDir | .wait _ | .setRs _ | .strobeHi | .strobeLo => old

theorem entry_nibbleOnLines (hc : c.WellFormed) (b : Block c) (u : MicroOp) :
    (b.entry u).nibbleOnLines = nibbleAfter b.nibbleOnLines u := by
  cases u with
  | setDir => rfl
  | wait _ => rfl
  | zero => simp [Block.nibbleOnLines, Block.line, Block.entry_zero_bit, nibbleAfter]
  | setRs v => simp [Block.nibbleOnLines, Block.line, Block.entry_setRs_bit hc, hc.pin_eq, nibbleAfter]
  | putNib n => exact b.entry_putNib_nibble hc n
  | strobeHi => exact (b.entry_strobe_nibble hc).left
  | strobeLo => exact (b.entry_strobe_nibble hc).right

/-- The commits of a list of micro-ops that begins at edge `k` with `rs` on RS and `n` on the data lines. -/
def opsCommits (c : Config) : List MicroOp → Nat → Bool → Nibble → List Commit
  | [], _, _, _ => []
  | u :: us, k, rs, n =>
    (if u = .strobeLo then [⟨k, rs, n⟩] else []) ++
      opsCommits c us (k + duration c u) (selectAfter rs u) (nibbleAfter n u)

theorem doOps_line_rs (hc : c.WellFormed) (p : Program) (us : List MicroOp) (b : Block c) (i : Nat) :
    (b.doOps p i us).line .rs = us.foldl selectAfter (b.line .rs) := by
  induction us generalizing b i with
  | nil => rfl
  | cons u us ih => simp only [Block.doOps, ih, doOp_line, Block.entry_line_rs hc, List.foldl_cons]

theorem doOps_line_e (hc : c.WellFormed) (p : Program) (us : List MicroOp) (b : Block c) (i : Nat) :
    (b.doOps p i us).line .e = us.foldl strobeAfter (b.line .e) := by
  induction us generalizing b i with
  | nil => rfl
  | cons u us ih => simp only [Block.doOps, ih, doOp_line, Block.entry_line_e hc, List.foldl_cons]

theorem doOps_nibbleOnLines (hc : c.WellFormed) (p : Program) (us : List MicroOp) (b : Block c) (i : Nat) :
    (b.doOps p i us).nibbleOnLines = us.foldl nibbleAfter b.nibbleOnLines := by
  induction us generalizing b i with
  | nil => rfl
  | cons u us ih => simp only [Block.doOps, ih, doOp_nibbleOnLines, entry_nibbleOnLines hc, List.foldl_cons]

theorem doOps_edge (p : Program) (us : List MicroOp) (b : Block c) (i : Nat) :
    (b.doOps p i us).edge = b.edge + opsCycles c us := by
  induction us generalizing b i with
  | nil => rfl
  | cons u us ih =>
    simp only [Block.doOps, ih, doOp_edge, opsCycles, List.map_cons, List.sum_cons, Nat.add_assoc]

theorem doOps_commits (hc : c.WellFormed) (p : Program) (us : List MicroOp) (b : Block c) (i : Nat) :
    (b.doOps p i us).commits = b.commits ++ opsCommits c us b.edge (b.line .rs) b.nibbleOnLines := by
  induction us generalizing b i with
  | nil => simp [Block.doOps, opsCommits]
  | cons u us ih =>
    simp only [Block.doOps, ih, opsCommits, doOp_commits, doOp_edge, doOp_line, doOp_nibbleOnLines,
      Block.entry_line_rs hc, entry_nibbleOnLines hc, List.append_assoc]

theorem doOps_ddr (p : Program) (us : List MicroOp) (b : Block c) (i : Nat) :
    (b.doOps p i us).ddr = if .setDir ∈ us then b.ddr ||| ownMask c else b.ddr := by
  induction us generalizing b i with
  | nil => rfl
  | cons u us ih =>
    simp only [Block.doOps, ih, doOp_ddr, List.mem_cons, eq_comm (a := MicroOp.setDir)]
    by_cases hu : u = .setDir <;> by_cases hus : MicroOp.setDir ∈ us <;>
      simp [hu, hus, BitVec.or_assoc]

/-- Outside OWN a list of micro-ops leaves PORT alone, or clears it by a ZERO. -/
theorem doOps_portBit_of_not_owned (hc : c.WellFormed) {q : Nat} (hq : ¬ Owned c q) (p : Program)
    (us : List MicroOp) (b : Block c) (i : Nat) :
    (b.doOps p i us).portBit q = if .zero ∈ us then false else b.portBit q := by
  induction us generalizing b i with
  | nil => rfl
  | cons u us ih =>
    simp only [Block.doOps, ih, doOp_portBit, List.mem_cons]
    by_cases hu : u = .zero
    · simp [hu, Block.entry_zero_bit]
    · simp [entry_portBit_of_not_owned hc hq b hu, Ne.symm hu]

/-! ### The controller observer over a byte frame (R109, CA4) -/

/-- The controller is in 4-bit mode and holds a high nibble with its RS value. -/
def Block.HoldsHigh (b : Block c) (rs : Bool) (n : Nibble) : Prop :=
  b.controller.mode = .fourBit ∧ b.controller.phase = 1#1 ∧ b.controller.heldRs = rs ∧
    b.controller.heldNibble = n

theorem Block.Aligned.congr {b t : Block c} (h : b.Aligned) (he : t.controller = b.controller) : t.Aligned := by
  rwa [Block.Aligned, he]

theorem Block.HoldsHigh.congr {b t : Block c} {rs : Bool} {n : Nibble} (h : b.HoldsHigh rs n)
    (he : t.controller = b.controller) : t.HoldsHigh rs n := by
  rwa [Block.HoldsHigh, he]

/-- Micro-op `i` of `p` is neither of the two commits that CA2 and CA3 take by name. -/
def pairsCommits (p : Program) (i : Nat) : Prop := p = .init → 25 < i

theorem observe_fourBit {b : Block c} (h : b.controller.mode = .fourBit) {p : Program} {i : Nat}
    (hi : pairsCommits p i) (rs : Bool) (n : Nibble) : b.observe p i rs n = b.fourBitCommit rs n := by
  have h13 : ¬ (p = .init ∧ i = 13) := fun ⟨hp, e⟩ => by have := hi hp; omega
  have h25 : ¬ (p = .init ∧ i = 25) := fun ⟨hp, e⟩ => by have := hi hp; omega
  simp only [Block.observe, if_neg h13, if_neg h25, h]

theorem observe_high {b : Block c} (h : b.Aligned) {p : Program} {i : Nat} (hi : pairsCommits p i)
    (rs : Bool) (n : Nibble) : (b.observe p i rs n).HoldsHigh rs n := by
  obtain ⟨hmode, hphase⟩ := h
  rw [observe_fourBit hmode hi, Block.fourBitCommit, if_pos hphase]
  exact ⟨hmode, rfl, rfl, rfl⟩

theorem observe_low {b : Block c} {rs : Bool} {n m : Nibble} (h : b.HoldsHigh rs n) {p : Program} {i : Nat}
    (hi : pairsCommits p i) (hk : rs = true ∨ keepsFourBit (byteOf n m) = true) :
    (b.observe p i rs m).Aligned := by
  obtain ⟨hmode, hphase, rfl, rfl⟩ := h
  have h1 : b.controller.phase ≠ 0#1 := by simp [hphase]
  rw [observe_fourBit hmode hi, Block.fourBitCommit, if_neg h1, if_pos ⟨rfl, hk⟩]
  exact ⟨hmode, rfl⟩

/-- A NIBBLE shows the controller one commit, of its nibble. -/
theorem doOps_nibbleOps_controller (hc : c.WellFormed) (b : Block c) (p : Program) (i : Nat) (n : Nibble) :
    ∃ x : Block c, x.controller = b.controller ∧
      (b.doOps p i (nibbleOps n)).controller = (x.observe p (i + 2) (b.line .rs) n).controller := by
  refine ⟨(b.doOp p i (.putNib n)).doOp p (i + 1) .strobeHi, by simp [doOp_controller], ?_⟩
  simp only [nibbleOps, Block.doOps, doOp_controller, doOp_line, doOp_nibbleOnLines, if_true,
    Block.entry_line_rs hc, entry_nibbleOnLines hc, selectAfter, nibbleAfter]

theorem byteOf_hi_lo (y : Byte) : byteOf (hi y) (lo y) = y := by
  revert y; decide

theorem pairsCommits.add {p : Program} {i : Nat} (h : pairsCommits p i) (n : Nat) : pairsCommits p (i + n) :=
  fun hp => Nat.lt_add_right n (h hp)

theorem doOps_nibbleOps_high (hc : c.WellFormed) {b : Block c} (h : b.Aligned) {p : Program} {i : Nat}
    (hi : pairsCommits p i) (n : Nibble) : (b.doOps p i (nibbleOps n)).HoldsHigh (b.line .rs) n := by
  obtain ⟨x, hx, hobs⟩ := doOps_nibbleOps_controller hc b p i n
  exact (observe_high (h.congr hx) (hi.add 2) _ n).congr hobs

theorem doOps_nibbleOps_low (hc : c.WellFormed) {b : Block c} {m n : Nibble} (h : b.HoldsHigh (b.line .rs) m)
    {p : Program} {i : Nat} (hi : pairsCommits p i)
    (hk : b.line .rs = true ∨ keepsFourBit (byteOf m n) = true) : (b.doOps p i (nibbleOps n)).Aligned := by
  obtain ⟨x, hx, hobs⟩ := doOps_nibbleOps_controller hc b p i n
  exact (observe_low (h.congr hx) (hi.add 2) hk).congr hobs

/-- BYTE and the wait after it: one byte frame of a micro-program. -/
def frameOps (rs : Bool) (y : Byte) (d : Delay) : List MicroOp := byteOps rs y ++ [.wait d]

/-- An aligned controller takes a frame as its byte, and stays aligned where the byte keeps 4-bit mode. -/
theorem doOps_frameOps_aligned (hc : c.WellFormed) {b : Block c} (h : b.Aligned) {p : Program} {i : Nat}
    (hp : pairsCommits p i) {rs : Bool} {y : Byte} (hk : rs = true ∨ keepsFourBit y = true) (d : Delay) :
    (b.doOps p i (frameOps rs y d)).Aligned := by
  have hops : frameOps rs y d = [.setRs rs] ++ (nibbleOps (hi y) ++ (nibbleOps (lo y) ++ [.wait d])) := rfl
  have hselect : (b.doOp p i (.setRs rs)).line .rs = rs :=
    (doOp_line ..).trans (Block.entry_line_rs hc _ _)
  have hset : (b.doOp p i (.setRs rs)).Aligned := h.congr (by simp [doOp_controller])
  have hhigh := doOps_nibbleOps_high hc hset (hp.add 1) (hi y)
  have hselect' : ((b.doOp p i (.setRs rs)).doOps p (i + 1) (nibbleOps (hi y))).line .rs =
      (b.doOp p i (.setRs rs)).line .rs := doOps_line_rs hc p (nibbleOps (hi y)) _ _
  rw [← hselect'] at hhigh
  have hlow := doOps_nibbleOps_low (n := lo y) hc hhigh (hp.add 4)
    (by rwa [hselect', hselect, byteOf_hi_lo])
  rw [hops, doOps_append, doOps_append, doOps_append]
  exact hlow.congr (by simp [Block.doOps, doOp_controller, nibbleOps])

/-- The frames of the script, one after the other, behind the micro-op that CA3 names. -/
theorem doOps_frames_aligned (hc : c.WellFormed) (fs : List (Byte × Delay))
    (hk : ∀ f ∈ fs, keepsFourBit f.1) {b : Block c} (h : b.Aligned) {i : Nat} (hi : pairsCommits .init i) :
    (b.doOps .init i (fs.flatMap fun f => frameOps false f.1 f.2)).Aligned := by
  induction fs generalizing b i with
  | nil => exact h
  | cons f fs ih =>
    obtain ⟨hf, hfs⟩ := List.forall_mem_cons.1 hk
    rw [List.flatMap_cons, doOps_append]
    exact ih hfs (doOps_frameOps_aligned hc h hi (.inr hf) f.2) (hi.add _)

/-- The script's micro-op 25 makes the controller aligned, whatever it was before (CA3). -/
theorem doOp_init_25_aligned (b : Block c) : (b.doOp .init 25 .strobeLo).Aligned := by
  simp [Block.Aligned, doOp_controller, Block.observe, Controller.aligned]

theorem doOps_initScript_aligned (hc : c.WellFormed) (b : Block c)
    (hk : [c.opDispOff, c.opClear, c.opEntry, c.opDispOn].all keepsFourBit = true) :
    (b.doOps .init 0 (initScript c)).Aligned := by
  have hops : initScript c = (initScript c).take 25 ++ ([.strobeLo, .wait .funcSet] ++
      [(c.opDispOff, Delay.dispOff), (c.opClear, .clear), (c.opEntry, .entry), (c.opDispOn, .dispOn)].flatMap
        fun f => frameOps false f.1 f.2) := rfl
  have hlen : 0 + ((initScript c).take 25).length = 25 := by simp [initScript_length]
  have h25 (x : Block c) : (x.doOps .init 25 [.strobeLo, .wait .funcSet]).Aligned :=
    (doOp_init_25_aligned x).congr (by simp [Block.doOps, doOp_controller])
  rw [hops, doOps_append, doOps_append, hlen]
  exact doOps_frames_aligned hc _ (by simpa using hk) (h25 _) (fun _ => by decide)

/-! ### A whole program in a quiet outside (R96, R99) -/

/-- The block after the edge that ends program `p`, begun in `b`. -/
def Block.afterProgram (b : Block c) (p : Program) : Block c :=
  (b.doOps p 0 (b.microProgram p)).finish.closeEdge

theorem Block.Quiet.openEdge_quiet {b : Block c} (h : b.Quiet) : b.openEdge.Quiet :=
  ⟨by simp [h.edgeInputs], by simp [h.hostPauses, pausesAfter]⟩

/-- From the edge at which an idle block accepts the host's word to the edge that ends its program. -/
theorem run_accepted (hc : c.WellFormed) {b x : Block c} {w : CmdWord} {p : Program} {u : MicroOp}
    (hq : b.Quiet) (hm : b.mode = .idle) (hw : b.hostWords.head? = some w) (hx : x.Quiet)
    (hu : x.uop p 0 = some u) (hacc : b.openEdge.acceptWord w = .next (x.beginOp p 0 u)) :
    Host.Core.run Sys2Proof.core (opsCycles c (x.microProgram p) + 1) ⟨c, b⟩ =
      .next ⟨c, x.afterProgram p⟩ := by
  obtain ⟨us, hus⟩ : ∃ us, x.microProgram p = u :: us := by
    cases hops : x.microProgram p with
    | nil => simp [Block.uop, hops] at hu
    | cons v us =>
      obtain rfl : v = u := by simpa [Block.uop, hops] using hu
      exact ⟨us, rfl⟩
  have hr : b.nextInput.rst = false := by rw [hq.nextInput]; rfl
  have hstep := step_accepting hc hr hm (hq.offeredWord.trans hw) hacc
  rw [run_step hstep, Block.afterProgram, hus]
  exact run_program hc hx p u us hus

theorem afterProgram_line (b : Block c) (p : Program) (l : Line) :
    (b.afterProgram p).line l = (b.doOps p 0 (b.microProgram p)).line l :=
  Block.line_congr (Block.finish_port _) l

theorem afterProgram_line_rs (hc : c.WellFormed) (b : Block c) (p : Program) :
    (b.afterProgram p).line .rs = (b.microProgram p).foldl selectAfter (b.line .rs) :=
  (afterProgram_line b p .rs).trans (doOps_line_rs hc ..)

theorem afterProgram_line_e (hc : c.WellFormed) (b : Block c) (p : Program) :
    (b.afterProgram p).line .e = (b.microProgram p).foldl strobeAfter (b.line .e) :=
  (afterProgram_line b p .e).trans (doOps_line_e hc ..)

theorem afterProgram_nibbleOnLines (hc : c.WellFormed) (b : Block c) (p : Program) :
    (b.afterProgram p).nibbleOnLines = (b.microProgram p).foldl nibbleAfter b.nibbleOnLines :=
  (Block.nibbleOnLines_of_lines (afterProgram_line b p)).trans (doOps_nibbleOnLines hc ..)

theorem afterProgram_commits (hc : c.WellFormed) (b : Block c) (p : Program) :
    (b.afterProgram p).commits =
      b.commits ++ opsCommits c (b.microProgram p) b.edge (b.line .rs) b.nibbleOnLines :=
  (Block.finish_commits _).trans (doOps_commits hc ..)

theorem afterProgram_edge (b : Block c) (p : Program) :
    (b.afterProgram p).edge = b.edge + opsCycles c (b.microProgram p) + 1 :=
  congrArg (· + 1) ((Block.finish_edge _).trans (doOps_edge ..))

theorem afterProgram_ddr (b : Block c) (p : Program) :
    (b.afterProgram p).ddr = if .setDir ∈ b.microProgram p then b.ddr ||| ownMask c else b.ddr :=
  (Block.finish_ddr _).trans (doOps_ddr ..)

theorem afterProgram_portBit_of_not_owned (hc : c.WellFormed) {q : Nat} (hq : ¬ Owned c q) (b : Block c)
    (p : Program) :
    (b.afterProgram p).portBit q = if .zero ∈ b.microProgram p then false else b.portBit q := by
  have hport : (b.afterProgram p).port = (b.doOps p 0 (b.microProgram p)).port := Block.finish_port _
  rw [Block.portBit, hport]
  exact doOps_portBit_of_not_owned hc hq ..

theorem afterProgram_controller (b : Block c) (p : Program) :
    (b.afterProgram p).controller = (b.doOps p 0 (b.microProgram p)).controller := Block.finish_controller _

theorem afterProgram_mode (b : Block c) (p : Program) : (b.afterProgram p).mode = .idle := Block.finish_mode _

/-- What a whole program does not touch. -/
theorem afterProgram_same (b : Block c) (p : Program) :
    (b.afterProgram p).hostWords = b.hostWords ∧ (b.Quiet → (b.afterProgram p).Quiet) ∧
    b.SameLatches (b.afterProgram p) ∧ b.SameErrors (b.afterProgram p) := by
  obtain ⟨hwords, hpauses, hinputs, ⟨hrs, hbyte, hclass⟩, ⟨herr, hcause⟩, -⟩ :=
    doOps_same b p (b.microProgram p) 0
  have hquiet (h : b.Quiet) : (b.afterProgram p).Quiet :=
    h.congr ((Block.finish_edgeInputs _).trans hinputs) ((Block.finish_hostPauses _).trans hpauses)
  exact ⟨(Block.finish_hostWords _).trans hwords, hquiet,
    ⟨(Block.finish_latchRs _).trans hrs, (Block.finish_latchByte _).trans hbyte,
      (Block.finish_postClass _).trans hclass⟩,
    ⟨(Block.finish_err _).trans herr, (Block.finish_errCause _).trans hcause⟩⟩

theorem doOps_microProgram_prog (b : Block c) (p : Program) :
    (b.doOps p 0 (b.microProgram p)).prog = p := by
  cases p with
  | init => exact doOps_prog b .init _ _ 0
  | send => exact doOps_prog b .send _ _ 0

theorem afterProgram_init_progress (b : Block c) :
    (b.afterProgram .init).initState = .ready ∧ (b.afterProgram .init).ctrlPhase = .operational :=
  ⟨(finish_initState_eq _).trans (if_pos (doOps_microProgram_prog b .init)),
    (finish_ctrlPhase_eq _).trans (if_pos (doOps_microProgram_prog b .init))⟩

theorem afterProgram_send_progress (b : Block c) : b.SameProgress (b.afterProgram .send) := by
  have hne : (b.doOps .send 0 (b.microProgram .send)).prog ≠ .init := by
    simp [doOps_microProgram_prog b .send]
  obtain ⟨-, -, -, -, -, hinit⟩ := doOps_same b .send (b.microProgram .send) 0
  exact ⟨(finish_initState_eq _).trans ((if_neg hne).trans hinit),
    (finish_ctrlPhase_eq _).trans ((if_neg hne).trans (doOps_send_ctrlPhase ..))⟩

end Sys2Proof.Machine

namespace Sys2Proof.Machine

variable {c : Config}

/-! ### SEND from its acceptance to its end (R92, R93, R99, R156, R157) -/

/-- The two commits of a SEND program that begins at edge `k`. -/
theorem opsCommits_sendProgram (rs : Bool) (y : Byte) (cls : PostClass) (k : Nat) (r : Bool) (n : Nibble) :
    opsCommits c (sendProgram rs y cls) k r n =
      [⟨k + (2 * c.nSetup + c.nEh), rs, hi y⟩, ⟨k + (byteCycles c - c.nEl), rs, lo y⟩] := by
  have hlisted : opsCommits c (sendProgram rs y cls) k r n =
      [⟨k + c.nSetup + c.nSetup + c.nEh, rs, hi y⟩,
       ⟨k + c.nSetup + c.nSetup + c.nEh + c.nEl + c.nSetup + c.nEh, rs, lo y⟩] := rfl
  have hhigh : k + c.nSetup + c.nSetup + c.nEh = k + (2 * c.nSetup + c.nEh) := by omega
  have hlow : k + c.nSetup + c.nSetup + c.nEh + c.nEl + c.nSetup + c.nEh = k + (byteCycles c - c.nEl) := by
    simp only [byteCycles, nibbleCycles]
    omega
  rw [hlisted, hlow, hhigh]

/-- The block `t` in which the SEND of `y` with RS = `rs`, accepted in `b`, has ended. -/
structure Block.Sent (b t : Block c) (rs : Bool) (y : Byte) (cls : PostClass) : Prop where
  mode : t.mode = .idle
  quiet : t.Quiet
  hostWords : t.hostWords = b.hostWords.tail
  edge : t.edge = b.edge + sendCycles c cls + 1
  commits : t.commits = b.commits ++
    [⟨b.edge + (2 * c.nSetup + c.nEh), rs, hi y⟩, ⟨b.edge + (byteCycles c - c.nEl), rs, lo y⟩]
  select : t.line .rs = rs
  strobe : t.line .e = false
  nibble : t.nibbleOnLines = lo y
  foreign : ∀ p, ¬ Owned c p → t.portBit p = b.portBit p
  ddr : t.ddr = b.ddr
  latchRs : t.latchRs = rs
  latchByte : t.latchByte = y
  postClass : t.postClass = cls
  progress : b.SameProgress t
  errors : b.SameErrors t
  aligned : b.Aligned → rs = true ∨ keepsFourBit y = true → t.Aligned

/-- Opening a quiet edge leaves PORT and DDR alone. -/
theorem Block.Quiet.openEdge_ports {b : Block c} (h : b.Quiet) : b.SamePorts b.openEdge := by
  rw [h.openEdge]
  exact ⟨rfl, rfl⟩

theorem afterProgram_sent (hc : c.WellFormed) {b : Block c} (hq : b.Quiet) (hm : b.mode = .idle)
    (rs : Bool) (y : Byte) (cls : PostClass) :
    b.Sent ((b.openEdge.latch rs y cls).afterProgram .send) rs y cls := by
  have hports := hq.openEdge_ports
  obtain ⟨hwords, hquiet, ⟨hrs, hbyte, hclass⟩, ⟨herr, hcause⟩⟩ :=
    afterProgram_same (b.openEdge.latch rs y cls) .send
  obtain ⟨hinit, hphase⟩ := afterProgram_send_progress (b.openEdge.latch rs y cls)
  have hops : (b.openEdge.latch rs y cls).microProgram .send = sendProgram rs y cls := rfl
  have hwords' : b.openEdge.hostWords = b.hostWords.tail := by rw [hq.openEdge_idle hm]
  constructor
  case mode => exact afterProgram_mode ..
  case quiet => exact hquiet (hq.openEdge_quiet.congr rfl rfl)
  case hostWords => exact hwords.trans hwords'
  case edge => exact (afterProgram_edge ..).trans (by rw [hops, opsCycles_sendProgram]; rfl)
  case commits => exact (afterProgram_commits hc ..).trans (by rw [hops, opsCommits_sendProgram]; rfl)
  case select => exact afterProgram_line_rs hc ..
  case strobe => exact afterProgram_line_e hc ..
  case nibble => exact afterProgram_nibbleOnLines hc ..
  case foreign =>
    intro p hp
    rw [afterProgram_portBit_of_not_owned hc hp, hops, if_neg (by simp [sendProgram, byteOps, nibbleOps])]
    exact congrArg (BitVec.getLsbD · p) hports.port
  case ddr =>
    rw [afterProgram_ddr, hops, if_neg (by simp [sendProgram, byteOps, nibbleOps])]
    exact hports.ddr
  case latchRs => exact hrs
  case latchByte => exact hbyte
  case postClass => exact hclass
  case progress => exact ⟨hinit, hphase⟩
  case errors => exact ⟨herr, hcause⟩
  case aligned =>
    intro h hk
    have hframe : (b.openEdge.latch rs y cls).Aligned := h
    exact (doOps_frameOps_aligned hc hframe (fun hp => by cases hp) hk cls.delay).congr
      (afterProgram_controller ..)

/-- A SEND in a quiet outside: `hacc` says that the host's word is one. -/
theorem run_send (hc : c.WellFormed) {b : Block c} (hq : b.Quiet) (hm : b.mode = .idle)
    (hi : b.initState = .ready) {w : CmdWord} {rest : List CmdWord} (hw : b.hostWords = w :: rest)
    {rs : Bool} {y : Byte} {cls : PostClass}
    (hacc : b.openEdge.acceptWord w = b.openEdge.acceptSend rs y cls) :
    ∃ t, Host.Core.run Sys2Proof.core (sendCycles c cls + 1) ⟨c, b⟩ = .next ⟨c, t⟩ ∧
      b.Sent t rs y cls := by
  have hstart := hacc.trans (acceptSend_of_ready (b := b.openEdge) hi rs y cls)
  have hx : (b.openEdge.latch rs y cls).Quiet := hq.openEdge_quiet.congr rfl rfl
  have hrun := run_accepted hc hq hm (by rw [hw]; rfl) hx (uop_send_zero _) hstart
  have hops : (b.openEdge.latch rs y cls).microProgram .send = sendProgram rs y cls := rfl
  rw [hops, opsCycles_sendProgram] at hrun
  exact ⟨_, hrun, afterProgram_sent hc hq hm rs y cls⟩

theorem acceptWord_sendInstrWord (b : Block c) (y : Byte) :
    b.acceptWord (sendInstrWord y) = b.acceptSendInstr y := by
  simp [Block.acceptWord, decodeHostCmd, sendInstrWord]

theorem acceptWord_sendDataWord (b : Block c) (y : Byte) :
    b.acceptWord (sendDataWord y) = b.acceptSendData y := by
  simp [Block.acceptWord, decodeHostCmd, sendDataWord]

/-- Settles O53: `run_send` with RS = 0 and the byte's class. -/
theorem sendInstrRunsToItsEnd : Obligations.SendInstrRunsToItsEnd := by
  intro c b y rest hc hq hm hi hw
  obtain ⟨t, hrun, h⟩ := run_send hc hq hm hi hw (acceptWord_sendInstrWord _ y)
  exact ⟨t, hrun, h.mode, h.quiet, h.hostWords.trans (congrArg List.tail hw), h.edge, h.commits, h.select,
    h.strobe, h.nibble, h.foreign, h.ddr, h.latchRs, h.latchByte, h.postClass, h.progress, h.errors,
    fun ha hk => h.aligned ha (.inr hk)⟩

/-- Settles O54: `run_send` with RS = 1 and the class DATA. -/
theorem sendDataRunsToItsEnd : Obligations.SendDataRunsToItsEnd := by
  intro c b y rest hc hq hm hi hw
  obtain ⟨t, hrun, h⟩ := run_send hc hq hm hi hw (acceptWord_sendDataWord _ y)
  exact ⟨t, hrun, h.mode, h.quiet, h.hostWords.trans (congrArg List.tail hw), h.edge, h.commits, h.select,
    h.strobe, h.nibble, h.foreign, h.ddr, h.latchRs, h.latchByte, h.postClass, h.progress, h.errors,
    fun ha => h.aligned ha (.inl rfl)⟩

/-! ### INIT from its acceptance to READY (R91, R94 to R96, R156, R157) -/

/-- The bus events of the script, whatever its first edge and the lines before it. -/
theorem initScript_events (k : Nat) (rs : Bool) (n : Nibble) :
    (opsCommits c (initScript c) k rs n).map Commit.event = initEvents c := rfl

theorem initScript_first_edge (k : Nat) (rs : Bool) (n : Nibble) :
    (opsCommits c (initScript c) k rs n).head?.map (·.edge) =
      some (k + (2 + c.nPowerOn + c.nSetup + c.nEh)) := by
  have hlisted : (opsCommits c (initScript c) k rs n).head?.map (·.edge) =
      some (k + 1 + c.nPowerOn + 1 + c.nSetup + c.nEh) := rfl
  rw [hlisted]
  congr 1
  omega

theorem opsCommits_append (us vs : List MicroOp) (k : Nat) (rs : Bool) (n : Nibble) :
    opsCommits c (us ++ vs) k rs n = opsCommits c us k rs n ++
      opsCommits c vs (k + opsCycles c us) (us.foldl selectAfter rs) (us.foldl nibbleAfter n) := by
  induction us generalizing k rs n with
  | nil => rfl
  | cons u us ih =>
    simp only [List.cons_append, opsCommits, ih, List.append_assoc, List.foldl_cons, opsCycles,
      List.map_cons, List.sum_cons, Nat.add_assoc]

/-- The script's last commit is made where its last STROBE_LO begins. -/
theorem initScript_last_edge (k : Nat) (rs : Bool) (n : Nibble) :
    (opsCommits c (initScript c) k rs n).getLast?.map (·.edge) =
      some (k + (initCycles c - c.nDispOn - c.nEl)) := by
  have hops : initScript c = (initScript c).take 57 ++ [.strobeLo, .wait .dispOn] := rfl
  have hcycles : opsCycles c ((initScript c).take 57) + (c.nEl + c.nDispOn) = initCycles c := by
    conv_rhs => rw [← opsCycles_initScript, hops, opsCycles_append]
    simp [opsCycles, duration, Config.cycles]
  have hlast (us : List MicroOp) :
      (opsCommits c (us ++ [.strobeLo, .wait .dispOn]) k rs n).getLast?.map (·.edge) =
        some (k + opsCycles c us) := by
    simp [opsCommits_append, opsCommits]
  have hedge : k + opsCycles c ((initScript c).take 57) = k + (initCycles c - c.nDispOn - c.nEl) := by
    omega
  rw [hops, hlast, hedge]

/-- Settles O55: `run_accepted` for the script, whose commits, lines and cycles are read off its listing. -/
theorem initRunsToReady : Obligations.InitRunsToReady := by
  intro c b w rest hc hq hm hi hw hop
  have hnr : b.openEdge.initState ≠ .ready := by simp [hi]
  have hacc : b.openEdge.acceptWord w = .next (b.openEdge.enterInit.beginOp .init 0 .setDir) := by
    rw [acceptWord_eq, if_pos hop, acceptInit_of_not_ready hnr]
  have hx : b.openEdge.enterInit.Quiet := hq.openEdge_quiet.congr rfl rfl
  have hrun := run_accepted hc hq hm (by rw [hw]; rfl) hx (uop_init_zero _) hacc
  have hops : b.openEdge.enterInit.microProgram .init = initScript c := rfl
  have hports := hq.openEdge_ports
  have hwords' : b.openEdge.hostWords = rest := by rw [hq.openEdge_idle hm, hw]; rfl
  obtain ⟨hwords, hquiet, ⟨hrs, hbyte, hclass⟩, ⟨herr, hcause⟩⟩ :=
    afterProgram_same b.openEdge.enterInit .init
  obtain ⟨hready, hphase⟩ := afterProgram_init_progress b.openEdge.enterInit
  rw [hops, opsCycles_initScript] at hrun
  refine ⟨_, _, hrun, afterProgram_mode .., hquiet hx, hwords.trans hwords', hready, hphase, ?edge,
    afterProgram_commits hc .., initScript_events .., initScript_first_edge .., initScript_last_edge ..,
    afterProgram_line_rs hc .., afterProgram_line_e hc .., afterProgram_nibbleOnLines hc ..,
    fun p hp => ?foreign, ?ddr, ⟨hrs, hbyte, hclass⟩, ⟨herr, hcause⟩, fun hk => ?aligned⟩
  case edge => exact (afterProgram_edge ..).trans (by rw [hops, opsCycles_initScript]; rfl)
  case foreign =>
    rw [afterProgram_portBit_of_not_owned hc hp, hops, if_pos (by simp [initScript])]
  case ddr =>
    rw [afterProgram_ddr, hops, if_pos (by simp [initScript])]
    exact congrArg (· ||| ownMask c) hports.ddr
  case aligned => exact (doOps_initScript_aligned hc _ hk).congr (afterProgram_controller ..)

/-! ### A host program (R108, R110, R153) -/

/-- The command word of a SEND. -/
def sendWord (x : Bool × Byte) : CmdWord := if x.1 then sendDataWord x.2 else sendInstrWord x.2

/-- The post-delay class of a SEND. -/
def sendClass (c : Config) (x : Bool × Byte) : PostClass := if x.1 then .data else postClassOf c x.2

theorem acceptWord_sendWord (b : Block c) (x : Bool × Byte) :
    b.acceptWord (sendWord x) = b.acceptSend x.1 x.2 (sendClass c x) := by
  obtain ⟨rs, y⟩ := x
  cases rs with
  | false => exact acceptWord_sendInstrWord b y
  | true => exact acceptWord_sendDataWord b y

/-- The bus events of bytes sent one after the other, each with its RS value (spec 30_encoding R61). -/
def streamEvents (sent : List (Bool × Byte)) : List (Bool × Nibble) :=
  sent.flatMap fun x => frameEvents x.1 x.2

/-- A READY block at rest in a quiet outside, its lines as the SEND of `x` leaves them. -/
structure Block.RestsAfter (b : Block c) (x : Bool × Byte) : Prop where
  quiet : b.Quiet
  mode : b.mode = .idle
  ready : b.initState = .ready
  select : b.line .rs = x.1
  strobe : b.line .e = false
  nibble : b.nibbleOnLines = lo x.2

/-- A host that holds SENDs alone has them sent, one after the other. -/
theorem run_sends (hc : c.WellFormed) (sends : List (Bool × Byte)) :
    ∀ (b : Block c) (last : Bool × Byte), b.RestsAfter last → b.hostWords = sends.map sendWord →
      ∃ (t : Block c) (new : List Commit),
        Host.Core.run Sys2Proof.core (sends.map fun x => sendCycles c (sendClass c x) + 1).sum ⟨c, b⟩ =
          .next ⟨c, t⟩ ∧
        t.RestsAfter (sends.getLast?.getD last) ∧ t.hostWords = [] ∧ b.SameErrors t ∧
        t.commits = b.commits ++ new ∧
        new.map Commit.event = streamEvents sends := by
  induction sends with
  | nil =>
    intro b last h hw
    exact ⟨b, [], rfl, h, hw, ⟨rfl, rfl⟩, (List.append_nil _).symm, rfl⟩
  | cons x sends ih =>
    intro b last h hw
    obtain ⟨s, hs, hsent⟩ := run_send hc h.quiet h.mode h.ready hw (acceptWord_sendWord _ x)
    have hrest : s.RestsAfter x :=
      ⟨hsent.quiet, hsent.mode, hsent.progress.initState.trans h.ready, hsent.select, hsent.strobe,
        hsent.nibble⟩
    obtain ⟨t, new, ht, hlast, hwords, herr, hcommits, hevents⟩ :=
      ih s x hrest (hsent.hostWords.trans (by rw [hw]; rfl))
    refine ⟨t, _, ?run, ?last, hwords, ?errors,
      hcommits.trans ((congrArg (· ++ new) hsent.commits).trans (List.append_assoc ..)), ?events⟩
    case run => rw [List.map_cons, List.sum_cons, run_add hs, ht]
    case last => rwa [List.getLast?_cons]
    case errors =>
      exact ⟨herr.err.trans hsent.errors.err, herr.errCause.trans hsent.errors.errCause⟩
    case events => rw [List.map_append, hevents]; rfl

theorem assembled_streamEvents (sends : List (Bool × Byte)) :
    assembled (streamEvents sends) = sends := by
  induction sends with
  | nil => rfl
  | cons x sends ih =>
    change (x.1, byteOf (hi x.2) (lo x.2)) :: assembled (streamEvents sends) = _
    rw [ih, byteOf_hi_lo]

/-- The five bytes of the script, as a controller assembles them. -/
def scriptBytes (c : Config) : List (Bool × Byte) :=
  [(false, c.opFuncSet), (false, c.opDispOff), (false, c.opClear), (false, c.opEntry), (false, c.opDispOn)]

/-- Behind the four single nibbles the script and the SENDs are one sequence of frames. -/
theorem decodedBytes_program (c : Config) (sends : List (Bool × Byte)) :
    decodedBytes (initEvents c ++ streamEvents sends) = scriptBytes c ++ sends := by
  have hframes : (initEvents c ++ streamEvents sends).drop 4 =
      streamEvents (scriptBytes c ++ sends) := rfl
  rw [decodedBytes, hframes, assembled_streamEvents]

theorem length_streamEvents (sends : List (Bool × Byte)) :
    (streamEvents sends).length = 2 * sends.length := by
  simp [streamEvents, List.length_flatMap, frameEvents, Nat.mul_comm]

/-- Settles O56: the INIT of O55, then `run_sends`; the events behind the single nibbles are byte frames. -/
theorem hostProgramIsDecodedInOrder : Obligations.HostProgramIsDecodedInOrder := by
  intro c b sends hc hq hm hi hw
  obtain ⟨s, new₁, hs, hmode, hquiet, hwords, hready, -, -, hcommits₁, hevents₁, -, -, hrs, he, hnib,
    -, -, -, herr₁, -⟩ := initRunsToReady c b initWord _ hc hq hm hi hw (by decide)
  obtain ⟨t, new₂, ht, hlast, hdone, herr₂, hcommits₂, hevents₂⟩ :=
    run_sends hc sends s (false, c.opDispOn) ⟨hquiet, hmode, hready, hrs, he, hnib⟩ hwords
  have hevents : (new₁ ++ new₂).map Commit.event =
      initEvents c ++ streamEvents sends := by
    rw [List.map_append, hevents₁, hevents₂]
    rfl
  have hlen : (new₁ ++ new₂).length = 14 + 2 * sends.length := by
    rw [← List.length_map Commit.event, hevents, List.length_append, length_streamEvents]
    rfl
  exact ⟨t, new₁ ++ new₂, ⟨(run_add hs).trans ht, hdone, hlast.mode, fun k _ => hq.no_reset k⟩,
    hlast.ready, ⟨herr₂.err.trans herr₁.err, herr₂.errCause.trans herr₁.errCause⟩,
    hlast.strobe, hlast.select, hlast.nibble,
    by rw [hcommits₂, hcommits₁, List.append_assoc], hlen, by rw [hevents, decodedBytes_program]; rfl⟩

end Sys2Proof.Machine
end

section
/-! PROOFS. The host side (spec 42_host_pseudo): the host holds its word, the digits of a number, and one TICK
from its first word to the end of its last. -/

namespace Sys2Proof.Machine

variable {c : Config}

/-! ### The host holds its word (R111) -/

/-- Settles O9: an edge moves the host's words and pauses where it opens alone (`Block.Edge.host`), and the
opening takes a word exactly where the handshake completes. -/
theorem hostHoldsItsWordUntilAccepted : Obligations.HostHoldsItsWordUntilAccepted := by
  intro c b t hs
  obtain ⟨-, u, rfl, e⟩ := step_edge hs
  obtain ⟨hwords, hpauses⟩ := e.host
  refine ⟨fun w ho => ⟨fun ⟨hr, hm⟩ => hwords.trans (wordsAfter_accepted hr hm ho), fun hn => ?held⟩,
    fun ho => hwords.trans (wordsAfter_silent ho)⟩
  case held =>
    have hh : b.handshake = false := by
      rw [Bool.eq_false_iff, Ne, handshake_iff]
      exact fun ⟨hr, hm, _⟩ => hn ⟨hr, hm⟩
    have hkept : b.wordsAfter = b.hostWords := if_neg (by simp [hh])
    exact ⟨hwords.trans hkept, (offeredWord_congr hwords hpauses).trans (openEdge_holds ho hh)⟩

/-! ### The digits of a number (R116 to R118) -/

/-- Enough fuel gives all the digits of a number other than 0, as `Nat.digits` has them. -/
theorem digitsReversed_eq_digits {fuel v : Nat} (hv : v ≠ 0) (hf : v < fuel) :
    digitsReversed fuel v = Nat.digits 10 v := by
  induction fuel generalizing v with
  | zero => omega
  | succ fuel ih =>
    rw [digitsReversed, Nat.digits_eq_cons_digits_div (by decide) hv]
    split_ifs with hlast
    · rw [hlast, Nat.digits_zero]
    · rw [ih hlast (by omega)]

theorem decimalDigits_zero : decimalDigits 0 = [0] := rfl

theorem decimalDigits_of_ne_zero {v : Nat} (hv : v ≠ 0) : decimalDigits v = (Nat.digits 10 v).reverse :=
  congrArg List.reverse (digitsReversed_eq_digits hv (Nat.lt_succ_self v))

theorem decimalDigits_ne_nil (v : Nat) : decimalDigits v ≠ [] := by
  rcases eq_or_ne v 0 with rfl | hv
  · simp [decimalDigits_zero]
  · simp [decimalDigits_of_ne_zero hv, Nat.digits_eq_nil_iff_eq_zero, hv]

/-- Horner's rule from the most significant digit on. -/
theorem foldl_decimalDigits (v : Nat) : (decimalDigits v).foldl (fun a d => 10 * a + d) 0 = v := by
  rcases eq_or_ne v 0 with rfl | hv
  · rfl
  · calc (decimalDigits v).foldl (fun a d => 10 * a + d) 0
        = (Nat.digits 10 v).foldr (fun d a => d + 10 * a) 0 := by
          simp only [decimalDigits_of_ne_zero hv, List.foldl_reverse, Nat.add_comm]
      _ = Nat.ofDigits 10 (Nat.digits 10 v) := (Nat.ofDigits_eq_foldr 10 _).symm
      _ = v := Nat.ofDigits_digits 10 v

theorem le_nine_of_mem_decimalDigits {v d : Nat} (hd : d ∈ decimalDigits v) : d ≤ 9 := by
  rcases eq_or_ne v 0 with rfl | hv
  · simp [List.mem_singleton.1 hd]
  · rw [decimalDigits_of_ne_zero hv, List.mem_reverse] at hd
    exact Nat.le_of_lt_succ (Nat.digits_lt_base (by decide) hd)

theorem head_decimalDigits_ne_zero {v : Nat} (hv : v ≠ 0) : (decimalDigits v).head? ≠ some 0 := by
  have hne : Nat.digits 10 v ≠ [] := Nat.digits_ne_nil_iff_ne_zero.2 hv
  rw [decimalDigits_of_ne_zero hv, List.head?_reverse, List.getLast?_eq_some_getLast hne]
  exact fun h => Nat.getLast_digit_ne_zero 10 hv (Option.some.inj h)

theorem length_decimalDigits_le {v k : Nat} (hk : 1 ≤ k) (hv : v < 10 ^ k) : (decimalDigits v).length ≤ k := by
  rcases eq_or_ne v 0 with rfl | hne
  · exact hk
  · rw [decimalDigits_of_ne_zero hne, List.length_reverse]
    exact (Nat.digits_length_le_iff (by decide) v).2 hv

theorem digitCode_eq (d : Nat) : digitCode d = BitVec.ofNat 8 (0x30 + d) := (BitVec.ofNat_add 0x30 d).symm

/-- Settles O58: the digits are those of `Nat.digits`, the most significant first, and `[0]` for 0. -/
theorem digitsSpellTheNumber : Obligations.DigitsSpellTheNumber := by
  intro v
  have h16 : 2 ^ 16 ≤ 10 ^ 5 := by decide
  have h32 : 2 ^ 32 ≤ 10 ^ 10 := by decide
  exact ⟨foldl_decimalDigits v, fun _ => le_nine_of_mem_decimalDigits, decimalDigits_ne_nil v,
    head_decimalDigits_ne_zero, fun hv => hv ▸ decimalDigits_zero,
    fun hv => length_decimalDigits_le (by decide) (hv.trans_le h16),
    fun hv => length_decimalDigits_le (by decide) (hv.trans_le h32),
    List.map_congr_left fun d _ => digitCode_eq d⟩

/-! ### One TICK (R121, R123) -/

/-- The SENDs of `TICK v`: OP_HOME as an instruction, then the digits of `v / 1000` as data. -/
def tickSends (c : Config) (v : Nat) : List (Bool × Byte) :=
  (false, c.opHome) :: (digitCodes (v / 1000)).map fun y => (true, y)

theorem map_commandWord_tick (v : Nat) :
    (expansion c (.tick v)).map commandWord = (tickSends c v).map sendWord := by
  have hinstr (y : Byte) : commandWord (.sendInstr y) = sendWord (false, y) := ofNat_toNat_hostWord 1#2 y
  have hdata (y : Byte) : commandWord (.sendData y) = sendWord (true, y) := ofNat_toNat_hostWord 2#2 y
  simp [expansion, printCommands, tickSends, hinstr, hdata]

/-- The words of a TICK that the assembler does not refuse are those of its SENDs. -/
theorem eq_of_programWords_tick {v : Nat} {ws : List CmdWord} (h : programWords c [.tick v] = some ws) :
    ws = (tickSends c v).map sendWord := by
  by_cases hl : (HostLine.tick v).wellFormed c = true
  · rw [programWords_single (expandLine_of_wellFormed hl), map_commandWord_tick] at h
    exact (Option.some.inj h).symm
  · simp [programWords, expandLine, hl] at h

theorem postClassOf_opHome (h : c.opHome ≠ c.opClear) : postClassOf c c.opHome = .home :=
  (if_neg h).trans (if_pos rfl)

/-- The cycles of R123 are those of the SENDs, each with the idle edge behind it. -/
theorem sum_sendCycles_tickSends (h : c.opHome ≠ c.opClear) (v : Nat) :
    ((tickSends c v).map fun x => sendCycles c (sendClass c x) + 1).sum =
      tickCycles c (decimalDigits (v / 1000)).length := by
  simp [tickSends, digitCodes, sendClass, postClassOf_opHome h, Function.comp_def, tickCycles, sendCycles,
    PostClass.delay, Config.cycles]

/-- The lines of a READY block at rest with E low are those that some SEND leaves. -/
theorem restsAfter_of_lines {b : Block c} (hq : b.Quiet) (hm : b.mode = .idle) (hi : b.initState = .ready)
    (he : b.line .e = false) : b.RestsAfter (b.line .rs, byteOf 0#4 b.nibbleOnLines) :=
  ⟨hq, hm, hi, rfl, he, BitVec.extractLsb'_append_eq_right.symm⟩

/-- Settles O57: `run_sends` for the SENDs of the TICK, whose events assemble to the bytes sent. -/
theorem tickRunsToItsEnd : Obligations.TickRunsToItsEnd := by
  intro c b v hc hhome hq hm hi he hwords
  obtain ⟨t, new, hrun, hrest, hdone, herr, hcommits, hevents⟩ :=
    run_sends hc (tickSends c v) b _ (restsAfter_of_lines hq hm hi he) (eq_of_programWords_tick hwords)
  rw [sum_sendCycles_tickSends hhome] at hrun
  have hlen : new.length = 2 * (1 + (decimalDigits (v / 1000)).length) := by
    rw [← List.length_map Commit.event, hevents, length_streamEvents]
    simp [tickSends, digitCodes, Nat.add_comm]
  exact ⟨t, new, ⟨hrun, hdone, hrest.mode, fun k _ => hq.no_reset k⟩, herr, hcommits, hlen,
    by rw [hevents, assembled_streamEvents]; rfl⟩

end Sys2Proof.Machine
end

section
/-! PROOFS. The refused commands (spec 60_exceptions, section 1): an INIT on a READY block, and a SEND or a row of
the LCD closed set before READY.  Each is consumed by `raiseError` with its cause, which moves nothing else. -/

namespace Sys2Proof.Machine

variable {c : Config}

theorem acceptInit_of_ready {b : Block c} (h : b.initState = .ready) :
    b.acceptInit = .next (b.raiseError .reinit) := if_pos h

/-- Settles O16: an idle READY block accepts INIT by `raiseError`, which records the cause and nothing else. -/
theorem secondInitIsRefused : Obligations.SecondInitIsRefused := by
  intro c b p hm hi
  have hexec : exec (.init p) ⟨c, b⟩ = .next ⟨c, b.raiseError .reinit⟩ :=
    congrArg onState ((offered_idle hm _).trans (acceptInit_of_ready hi))
  exact ⟨_, hexec, raiseError_records b .reinit, raiseError_frame b .reinit⟩

theorem exec_sendInstr_not_ready {b : Block c} (hm : b.mode = .idle) (hi : b.initState ≠ .ready) (y : Byte) :
    exec (.sendInstr y) ⟨c, b⟩ = .next ⟨c, b.raiseError .notInit⟩ :=
  congrArg onState
    ((offered_idle hm fun x => x.acceptSendInstr y).trans (acceptSend_of_not_ready hi false y (postClassOf c y)))

theorem exec_sendData_not_ready {b : Block c} (hm : b.mode = .idle) (hi : b.initState ≠ .ready) (y : Byte) :
    exec (.sendData y) ⟨c, b⟩ = .next ⟨c, b.raiseError .notInit⟩ :=
  congrArg onState
    ((offered_idle hm fun x => x.acceptSendData y).trans (acceptSend_of_not_ready hi true y .data))

/-- Settles O19: each SEND is `raiseError` before READY, and a row of the closed set is a SEND_INSTR
(`exec_lcdInstr`). -/
theorem sendBeforeReadyIsRefused : Obligations.SendBeforeReadyIsRefused := by
  intro c b i hsend hm hi
  have hexec : exec i ⟨c, b⟩ = .next ⟨c, b.raiseError .notInit⟩ := by
    rcases hsend with ⟨y, rfl | rfl⟩ | hlcd
    · exact exec_sendInstr_not_ready hm hi y
    · exact exec_sendData_not_ready hm hi y
    · obtain ⟨y, -, hy⟩ := exec_lcdInstr hlcd ⟨c, b⟩
      exact hy.trans (exec_sendInstr_not_ready hm hi y)
  exact ⟨_, hexec, raiseError_records b .notInit, raiseError_frame b .notInit⟩

end Sys2Proof.Machine
end

section
/-! PROOFS. Reset (spec 70_reset_and_hazards, section 1): what STATUS, `cmd_ready` and the lines show wherever the
state elements have their reset values, and that the reset block and every reset edge give them those values. -/

namespace Sys2Proof.Machine

variable {c : Config}

/-! ### What a block at its reset values shows (R31 to R33) -/

theorem Block.AtReset.status_eq_zero {b : Block c} (h : b.AtReset) : b.status = 0x00#8 := by
  rw [Block.status, h.ctrlPhase, h.errCause, h.err, h.initState, h.mode]
  rfl

theorem Block.AtReset.cmdReady_eq_true {b : Block c} (h : b.AtReset) : b.cmdReady = true :=
  decide_eq_true h.mode

theorem Block.AtReset.drivenLevel_eq_none {b : Block c} (h : b.AtReset) (l : Line) : b.drivenLevel l = none :=
  if_neg (by simp [Block.ddrBit, h.ddr])

/-! ### Where the reset values stand (R139, R140, R142) -/

theorem reset_atReset (c : Config) : (Block.reset c).AtReset := by constructor <;> rfl

theorem resetEdge_atReset (b : Block c) : b.resetEdge.AtReset := by constructor <;> simp

theorem Block.AtReset.closeEdge {b : Block c} (h : b.AtReset) : b.closeEdge.AtReset :=
  ⟨h.mode, h.prog, h.upc, h.cnt, h.latchRs, h.latchByte, h.postClass, h.initState, h.ctrlPhase, h.err,
    h.errCause, h.port, h.ddr⟩

/-- Settles O4: `Block.reset` writes the values out, and STATUS, `cmd_ready` and the lines follow from them. -/
theorem resetBlockHasSpecValues : Obligations.ResetBlockHasSpecValues := by
  intro c
  have h := reset_atReset c
  exact ⟨h, h.status_eq_zero, h.cmdReady_eq_true, h.drivenLevel_eq_none⟩

/-- Settles O5: with `rst` = 1 the step is `resetEdge` (`step_reset`), whatever the block; it records no commit,
and the opening of the edge takes no word (`wordsAfter_reset`). -/
theorem resetEdgeRestoresEveryElement : Obligations.ResetEdgeRestoresEveryElement := by
  intro c b hc hrst
  have h : b.openEdge.resetEdge.closeEdge.AtReset := (resetEdge_atReset b.openEdge).closeEdge
  have hcommits : b.openEdge.resetEdge.closeEdge.commits = b.commits := by simp
  have hwords : b.openEdge.resetEdge.closeEdge.hostWords = b.hostWords := by simp [wordsAfter_reset hrst]
  exact ⟨_, step_reset hc hrst, h, h.status_eq_zero, h.cmdReady_eq_true, h.drivenLevel_eq_none, hcommits, hwords⟩

end Sys2Proof.Machine
end

section
/-! PROOFS. One edge without reset: it executes the word the host offers (log 3), which waits while MODE = RUN
(spec 41_protocol_driver R90, 60_exceptions R128), and it is stuck where UPC is above the last index of PROG
(spec 93_implementation_defined I11). -/

namespace Sys2Proof.Machine

variable {c : Config}

/-! ### The offered word is executed (R74, log 3) -/

theorem edgeAction_offered {b : Block c} {w : CmdWord} (hr : b.nextInput.rst = false)
    (ho : b.offeredWord = some w) : edgeAction exec ⟨c, b⟩ = exec (decodeHostCmd w) ⟨c, b.openEdge⟩ := by
  simp only [edgeAction, hr, ho]
  rfl

/-- Where a word is offered and there is no reset, the handshake hangs on MODE alone. -/
theorem handshake_offered_iff {b : Block c} {w : CmdWord} (hr : b.nextInput.rst = false)
    (ho : b.offeredWord = some w) : b.handshake = true ↔ b.mode = .idle := by
  simp [handshake_iff, hr, ho]

theorem openEdge_hostWords_offered {b : Block c} {w : CmdWord} (hr : b.nextInput.rst = false)
    (ho : b.offeredWord = some w) :
    b.openEdge.hostWords = if b.mode = .idle then b.hostWords.tail else b.hostWords := by
  simp only [Block.openEdge_hostWords, Block.wordsAfter, handshake_offered_iff hr ho]

theorem openEdge_hostPauses_offered {b : Block c} {w : CmdWord} (hr : b.nextInput.rst = false)
    (ho : b.offeredWord = some w) :
    b.openEdge.hostPauses = if b.mode = .idle then b.hostPauses.tail else b.hostPauses := by
  simp only [Block.openEdge_hostPauses, pausesAfter_offered ho, handshake_offered_iff hr ho]

/-- Settles O6: `edgeAction_offered` for the step; the opening takes the word and its pause where MODE = IDLE
lets the handshake complete, and its other fields are those of `openEdge`'s own lemmas. -/
theorem stepExecutesTheOfferedCommand : Obligations.StepExecutesTheOfferedCommand := by
  intro c b w hc hr ho
  have hstep : step ⟨c, b⟩ = closing (exec (decodeHostCmd w) ⟨c, b.openEdge⟩) :=
    (step_eq_closing hc b).trans (congrArg closing (edgeAction_offered hr ho))
  exact ⟨hstep, openEdge_hostWords_offered hr ho, openEdge_hostPauses_offered hr ho, b.openEdge_edgeInputs,
    ⟨rfl, rfl, rfl, rfl⟩, ⟨rfl, rfl, rfl⟩, ⟨rfl, rfl⟩, ⟨rfl, rfl⟩, b.openEdge_line, rfl, rfl, rfl, rfl⟩

/-! ### It waits while a program runs (R90, R128) -/

theorem offered_run {b : Block c} (hm : b.mode = .run) (accept : Block c → BlockOutcome c) :
    b.offered accept = b.tick := by
  simp [Block.offered, hm]

theorem exec_sendInstr_run {b : Block c} (hm : b.mode = .run) (y : Byte) :
    exec (.sendInstr y) ⟨c, b⟩ = onState b.tick :=
  congrArg onState (offered_run hm fun x => x.acceptSendInstr y)

/-- Settles O10: each host command is an `offered`, which ticks while MODE = RUN, and a row of the LCD closed set
is a SEND_INSTR (`exec_lcdInstr`). -/
theorem offeredCommandWaitsWhileRunning : Obligations.OfferedCommandWaitsWhileRunning := by
  intro c b i hf hm
  cases hformat : i.format with
  | hostCmd =>
    cases i with
    | init _ => exact congrArg onState (offered_run hm Block.acceptInit)
    | sendInstr y => exact exec_sendInstr_run hm y
    | sendData y => exact congrArg onState (offered_run hm fun x => x.acceptSendData y)
    | reserved _ => exact congrArg onState (offered_run hm Block.acceptReserved)
    | _ => cases hformat
  | lcdInstr =>
    obtain ⟨y, -, hexec⟩ := exec_lcdInstr hformat ⟨c, b⟩
    exact hexec.trans (exec_sendInstr_run hm y)
  | lcdNibble => exact absurd hformat hf

/-! ### It is stuck above the last index (I11) -/

theorem uop_eq_none {b : Block c} {p : Program} {i : Nat} (h : p.lastIndex < i) : b.uop p i = none :=
  Option.not_isSome_iff_eq_none.1 fun hs => Nat.not_le.2 h ((uop_isSome_iff b p i).1 hs)

/-- Past its last cycle a UPC above the last index has no micro-op to begin. -/
theorem tick_stuck {b : Block c} (hcnt : b.cnt.toNat ≤ 1) (hupc : b.prog.lastIndex < b.upc.toNat) :
    b.tick = .fault .noSuchMicroOp := by
  have hnone : b.uop b.prog (b.upc.toNat + 1) = none := uop_eq_none (Nat.lt_succ_of_lt hupc)
  rw [Block.tick, if_neg (Nat.not_lt.2 hcnt), if_neg hupc.ne', Block.start, hnone]

/-- Settles O38: the step is the tick of the opened edge (`edgeAction_running`), which moves neither UPC nor CNT
before `tick_stuck` meets them. -/
theorem upcAboveLastIndexIsStuck : Obligations.UpcAboveLastIndexIsStuck := by
  intro c b hc hr hm hcnt hupc
  have htick : b.openEdge.tick = .fault .noSuchMicroOp := tick_stuck hcnt hupc
  calc step ⟨c, b⟩
      = closing (edgeAction exec ⟨c, b⟩) := step_eq_closing hc b
    _ = closing (onState b.openEdge.tick) := congrArg closing (edgeAction_running hr hm)
    _ = .fault .noSuchMicroOp := by rw [htick]; rfl

end Sys2Proof.Machine
end
